-- ==== Sys2Proof/Word.lean ====
section
/-! DEFINITION. The word type of the block: every register, every element of every memory and every
command word is one 32-bit word (00_scope.md R6 `IDX_W`, R8; 20_memory.md R70). -/

namespace Sys2Proof

/-- A 32-bit word, read as a `u32` or as an `f32` as the rule at hand says (R8). Bit 0 is the least
significant bit. -/
abbrev Word := BitVec 32

/-- The word that is the `u32` 0 and the `f32` `+0.0` (R9). -/
abbrev zeroWord : Word := 0#32

end Sys2Proof
end

