-- ==== Sys2Proof/Syntax.lean ====
section
/-! DEFINITION. What the host can say to the block: the five commands (30_encoding.md R101, one
constructor per row of the opcode table), the names of the address spaces (20_memory.md R70), and the
host's moves between commands (20_memory.md R81, 30_encoding.md R108, R111). -/

namespace Sys2Proof

/-- The five commands (R101). No command carries an operand in its word (R100, R102): the operands are
the operand registers that R21 names for it. -/
inductive Instr where
  | init         -- INIT
  | process      -- PROCESS
  | startMorph   -- START_MORPH
  | updateMorph  -- UPDATE_MORPH
  | isMorphing   -- IS_MORPHING
  deriving DecidableEq, Repr

/-- The nineteen word-addressed spaces of R70. -/
inductive Space where
  | acc                          -- ACC, the circular accumulator
  | dtap | spos | sval | vpos | vneg   -- IR views
  | dtgt | vtp | vtn             -- morph targets
  | dcur | ddel                  -- dense morph scratch
  | vcurp | vcurn                -- velvet working arrays
  | vinip | vinin                -- velvet initial snapshots
  | vtsp | vtsn                  -- velvet target snapshots
  | inp | out                    -- IN and OUT, the block buffers
  deriving DecidableEq, Repr

/-- Every space once. -/
def Space.all : List Space :=
  [.acc, .dtap, .spos, .sval, .vpos, .vneg, .dtgt, .vtp, .vtn, .dcur, .ddel, .vcurp, .vcurn,
   .vinip, .vinin, .vtsp, .vtsn, .inp, .out]

/-- The spaces the host may write (R81): IR views, targets and `IN`. Every other space is
engine-written. -/
def Space.hostOwned : Space → Bool
  | .dtap | .spos | .sval | .vpos | .vneg | .dtgt | .vtp | .vtn | .inp => true
  | .acc | .dcur | .ddel | .vcurp | .vcurn | .vinip | .vinin | .vtsp | .vtsn | .out => false

/-- The fields of `STATUS` (R31) that `RDC` can name (R108). -/
inductive StatusField where
  | st | morphing | policy | layout | kind | tapSrc | morphEn | fcode
  deriving DecidableEq, Repr

/-- The host's moves between commands: exactly those of R81. A host write to a status register is not
expressible. -/
inductive HostMove where
  | writeX (i : Fin 12) (v : Word)              -- WRX i, v
  | readX (i : Fin 12)                          -- a read of an operand register
  | readC (i : Fin 18)                          -- RDC of a status register
  | readField (f : StatusField)                 -- RDC of a field of STATUS
  | writeM (sp : Space) (i : Nat) (v : Word)    -- WRM SPACE, i, v
  | readM (sp : Space) (i : Nat)                -- RDM SPACE, i
  | command (w : Word)                          -- the issue of a command word
  | reset                                       -- hardware reset asserted
  deriving DecidableEq, Repr

end Sys2Proof
end

