-- ==== Sys2Proof/Config.lean ====
section
/-! DEFINITION. What an implementation fixes (00_scope.md R6) and the values the spec leaves free
(93_implementation_defined.md U3, U6). -/

namespace Sys2Proof

/-- The two readings of conflict C2: which cursor gives the slot a velvet substitution overwrites. -/
inductive SubstSlot where
  | regression   -- the value the spec fixes (D21)
  | progression  -- the losing reading
  deriving DecidableEq, Repr

/-- The named parameters of R6 that a model takes as an argument: the three OPEN depths (D13, U5) and
`VM_SUBST_SLOT` (D21, U4). Any value of a depth is allowed, 0 included. A machine's parameters never
change. -/
structure Params where
  accDepth : Nat
  irDepth : Nat
  scrDepth : Nat
  substSlot : SubstSlot
  deriving DecidableEq, Repr

/-- The parameters `State.reset` carries. DESIGN CHOICE (unsafe, log 2): each depth is 2^32 - 1, the
"large enough" value 92_eei_decisions.md names. `REGRESSION` is the spec's own value (D21, log 3). -/
def Config.resetParams : Params :=
  { accDepth := 2 ^ 32 - 1, irDepth := 2 ^ 32 - 1, scrDepth := 2 ^ 32 - 1, substSlot := .regression }

/-- FREE VALUE (safe, log 4): the bits from which the n-th NaN drawn is made. R136 and U3 leave a
NaN's sign and payload unfixed. -/
opaque Config.nanBits : Nat → BitVec 32

/-- FREE VALUE (safe, log 6): what a word that nothing has written since power-on answers to a host
read (U6). It is one unknown value for each word, since a read changes nothing (R83). -/
opaque Config.powerOnWord : Space → Nat → Word

/-- The numerics record of R135: the operations of the sample format. `none` says "the result is a
NaN", whose bits R136 leaves free. -/
structure Numerics where
  add : Word → Word → Option Word
  sub : Word → Word → Option Word
  mul : Word → Word → Option Word
  div : Word → Word → Option Word
  /-- Sign-bit flip, exact (R9). -/
  neg : Word → Word
  /-- `cvt_u32_f32` (R9, R135). -/
  ofNat : Nat → Word

end Sys2Proof
end

