-- ==== Sys2Proof/WellFormed.lean ====
section
/-! DEFINITION. The checks on what the host presents: the two fields of a command word (30_encoding.md
R100) and the host's moves (20_memory.md R81, R70). A command itself has no operand field, so every
`Instr` is well formed. -/

namespace Sys2Proof

/-- Bits 7:0 of a command word, `opcode` (R100). -/
def opcodeField (w : Word) : BitVec 8 := w.extractLsb' 0 8

/-- Bits 31:8 of a command word, `zero` (R100). -/
def zeroField (w : Word) : BitVec 24 := w.extractLsb' 8 24

/-- A command word is well formed when its `zero` field is 0 and its opcode is one of the five (R103). -/
def commandWordOk (w : Word) : Bool :=
  zeroField w == 0#24 && (1#8 ≤ opcodeField w && opcodeField w ≤ 5#8)

/-- Every command is well formed: it has no register field, no immediate and no mode bit (R100). -/
def Instr.wellFormed : Instr → Bool
  | .init | .process | .startMorph | .updateMorph | .isMorphing => true

/-- How many words a space has; `none` is unbounded (R70). -/
def Params.depth (p : Params) : Space → Option Nat
  | .acc => some p.accDepth
  | .dtap | .spos | .sval | .vpos | .vneg | .dtgt | .vtp | .vtn => some p.irDepth
  | .dcur | .ddel | .vcurp | .vcurn | .vinip | .vinin | .vtsp | .vtsn => some p.scrDepth
  | .inp | .out => none

/-- Index `i` names a word of space `sp` (R70). -/
def Params.hasWord (p : Params) (sp : Space) (i : Nat) : Bool :=
  match p.depth sp with
  | some d => decide (i < d)
  | none => true

/-- A host move is well formed when it is one of R81's moves on a word that exists: a memory write
names a host-owned space, and a memory access names an index below the space's depth. -/
def HostMove.wellFormed (p : Params) : HostMove → Bool
  | .writeM sp i _ => sp.hostOwned && p.hasWord sp i
  | .readM sp i => p.hasWord sp i
  | .writeX _ _ | .readX _ | .readC _ | .readField _ | .command _ | .reset => true

end Sys2Proof
end

