-- ==== Sys2Proof/Decode.lean ====
section
/-! DEFINITION. Command decoding (30_encoding.md R100 to R105) and, after it, the encoder written from
the same table (R101). -/

namespace Sys2Proof

/-- Why a word is ILLEGAL (R103). The block reports both with one fault code (R104). -/
inductive Illegal where
  | reservedBits   -- bits 31:8 are not 0
  | unknownOpcode  -- bits 7:0 are not 1 to 5
  deriving DecidableEq, Repr

/-- Decoding, a total function of the command word (R103). -/
def decode (w : Word) : Except Illegal Instr :=
  if zeroField w ≠ 0#24 then .error .reservedBits
  else if opcodeField w = 0x01#8 then .ok .init
  else if opcodeField w = 0x02#8 then .ok .process
  else if opcodeField w = 0x03#8 then .ok .startMorph
  else if opcodeField w = 0x04#8 then .ok .updateMorph
  else if opcodeField w = 0x05#8 then .ok .isMorphing
  else .error .unknownOpcode

/-- The opcode of each command (R101). -/
def opcodeOf : Instr → BitVec 8
  | .init => 0x01#8
  | .process => 0x02#8
  | .startMorph => 0x03#8
  | .updateMorph => 0x04#8
  | .isMorphing => 0x05#8

/-- The command word of a command: the opcode in bits 7:0 under 24 zero bits (R100). -/
def encode (i : Instr) : Word := 0#24 ++ opcodeOf i

/-- The host's question about one row of the opcode table: the command that the decoder reads from an
instruction of `nbits` bits with value `w`. A command word is one 32-bit word; the bits above `nbits`
are 0. -/
def decodeTableWord (nbits w : Nat) : Option Instr :=
  (decode (BitVec.ofNat 32 (w % 2 ^ nbits))).toOption

end Sys2Proof
end

