-- ==== Sys2Proof/Machine/Float.lean ====
section
/-! DEFINITION. binary32 arithmetic (40_wrap_and_fanout.md R135 to R137; 92_eei_decisions.md D5): each
operation computes its exact result and rounds it once, to nearest, ties to even; subnormals are kept;
there are no flags and no traps.

A finite word is an exact integer multiple of 2^-149, the least subnormal. So a sum is an integer, a
product or a quotient a ratio of naturals, in units of 2^-149, and one function, `F32.roundMag`, rounds
them all. What R135 leaves to IEEE 754 itself (signs of zeros, operations on infinities) is PRESUMED
from that standard (log 11). -/

namespace Sys2Proof.Machine

/-- Bit 31 (R8). -/
def F32.sign (w : Word) : Bool := w.msb

/-- Bits 30:0, exponent and fraction together. -/
def F32.mag (w : Word) : Nat := w.toNat % 2 ^ 31

/-- Bits 30:23 (R8). -/
def F32.expo (w : Word) : Nat := F32.mag w / 2 ^ 23

/-- Bits 22:0 (R8). -/
def F32.frac (w : Word) : Nat := w.toNat % 2 ^ 23

/-- The magnitude bits of infinity: exponent all ones, fraction 0. -/
def F32.infMag : Nat := 0x7F800000

/-- Exponent all ones and a fraction that is not 0. -/
def F32.isNaN (w : Word) : Bool := decide (F32.infMag < F32.mag w)

def F32.isInf (w : Word) : Bool := decide (F32.mag w = F32.infMag)

def F32.isZero (w : Word) : Bool := decide (F32.mag w = 0)

/-- The magnitude that the exponent and fraction bits `m` of a finite word stand for, in units of
2^-149: the fraction when the exponent is 0, else the fraction with its leading one, shifted. -/
def F32.unitsOfMag (m : Nat) : Nat :=
  if m / 2 ^ 23 = 0 then m else (2 ^ 23 + m % 2 ^ 23) * 2 ^ (m / 2 ^ 23 - 1)

/-- The magnitude of a finite word in units of 2^-149. -/
def F32.units (w : Word) : Nat := F32.unitsOfMag (F32.mag w)

/-- The value of a finite word in units of 2^-149. -/
def F32.value (w : Word) : Int := if F32.sign w then -(F32.units w : Int) else F32.units w

/-- The word with this sign and these magnitude bits. -/
def F32.pack (neg : Bool) (m : Nat) : Word := BitVec.ofNat 32 (m + if neg then 2 ^ 31 else 0)

/-- The natural number nearest to `num / den`, ties to even. -/
def F32.nearest (num den : Nat) : Nat :=
  let q := num / den
  let r := num % den
  if den < 2 * r ∨ (2 * r = den ∧ q % 2 = 1) then q + 1 else q

/-- The magnitude bits of the binary32 value nearest to `num / den` units, ties to even, rounded once.
The rounding quantum is 2^k units, where `num / den` has k more than 24 bits; a magnitude beyond the
largest finite one rounds to infinity. -/
def F32.roundMag (num den : Nat) : Nat :=
  let k := (num / den).log2 - 23
  min F32.infMag (k * 2 ^ 23 + F32.nearest num (den * 2 ^ k))

/-- `fneg`: flips bit 31 and nothing else (R9, R135). -/
def F32.neg (w : Word) : Word := w ^^^ 0x80000000#32

/-- The sum of two finite words. An exact zero is `+0.0` but for the sum of two negative zeros. -/
def F32.addFinite (a b : Word) : Word :=
  let z := F32.value a + F32.value b
  if z = 0 then F32.pack (F32.sign a && F32.sign b) 0
  else F32.pack (decide (z < 0)) (F32.roundMag z.natAbs 1)

/-- `fadd` (R135, R136); `none` is a NaN. -/
def F32.add (a b : Word) : Option Word :=
  if F32.isNaN a || F32.isNaN b then none
  else if F32.isInf a then
    if F32.isInf b && (F32.sign a != F32.sign b) then none else some a
  else if F32.isInf b then some b
  else some (F32.addFinite a b)

/-- `fsub` (R135, R136); `none` is a NaN. -/
def F32.sub (a b : Word) : Option Word := F32.add a (F32.neg b)

/-- `fmul` (R135, R136); `none` is a NaN. -/
def F32.mul (a b : Word) : Option Word :=
  let s := F32.sign a != F32.sign b
  if F32.isNaN a || F32.isNaN b then none
  else if F32.isInf a || F32.isInf b then
    if F32.isZero a || F32.isZero b then none else some (F32.pack s F32.infMag)
  else some (F32.pack s (F32.roundMag (F32.units a * F32.units b) (2 ^ 149)))

/-- `fdiv` (R135, R136); `none` is a NaN. -/
def F32.div (a b : Word) : Option Word :=
  let s := F32.sign a != F32.sign b
  if F32.isNaN a || F32.isNaN b then none
  else if F32.isInf a then
    if F32.isInf b then none else some (F32.pack s F32.infMag)
  else if F32.isInf b then some (F32.pack s 0)
  else if F32.isZero b then
    if F32.isZero a then none else some (F32.pack s F32.infMag)
  else some (F32.pack s (F32.roundMag (F32.units a * 2 ^ 149) (F32.units b)))

/-- `cvt_u32_f32`: the binary32 value nearest to `n`, ties to even (R9, R135). -/
def F32.ofNat (n : Nat) : Word := F32.pack false (F32.roundMag (n * 2 ^ 149) 1)

/-- The numerics record this model runs with: binary32, unfused (R135, D5). -/
def binary32 : Numerics :=
  { add := F32.add, sub := F32.sub, mul := F32.mul, div := F32.div, neg := F32.neg,
    ofNat := F32.ofNat }

/-- A NaN word made from free bits: exponent all ones and, where the free fraction is 0, fraction 1.
Every NaN word is made from some bits (itself), so the draw is free among all NaN words (R136, U3). -/
def nanOf (bits : BitVec 32) : Word :=
  let w := bits ||| 0x7F800000#32
  if F32.frac w = 0 then w ||| 1#32 else w

end Sys2Proof.Machine
end

