-- ==== Sys2Proof/Machine/State.lean ====
section
/-! DEFINITION. The state of the machine as plain data (10_state.md R20): operand registers, status
registers, memories; and the model's own fields (parameters, the count of free draws, the host's coming
moves and the words its reads have answered). -/

namespace Sys2Proof.Machine

/-- `c.ST` (R32); the fourth code never occurs (R31). -/
inductive LifeCycle where
  | uninit | ready | fault
  deriving DecidableEq, Repr

/-- `c.POLICY` (R35). -/
inductive WrapPolicy where
  | modulo | mask
  deriving DecidableEq, Repr

/-- `c.LAYOUT` (R36). -/
inductive Layout where
  | ch1 | ch2 | ch4 | chN
  deriving DecidableEq, Repr

/-- `c.KIND` (R34); the fourth code never occurs (R31). -/
inductive Kind where
  | dense | sparse | velvet
  deriving DecidableEq, Repr

/-- `c.TAPSRC` (R37): where `PROCESS` reads its taps. -/
inductive TapSource where
  | ir | cur
  deriving DecidableEq, Repr

/-- `c.FCODE` (R33): the codes of R251, by name, in the order of their numbers 0 to 12. Codes 13 to 255
never occur (R251). -/
inductive FaultCode where
  | noFault | notInit | illegalCmd | badKind | nullBuffer | zeroBuflen | zeroChannels | nullTaps
  | noScratch | badSteps | tapcountMismatch | overCapacity | noMorphForKind
  deriving DecidableEq, Repr

/-- The two polarities of a velvet IR (R10). -/
inductive Polarity where
  | pos | neg
  deriving DecidableEq, Repr

/-- The twelve operand registers (R21). The host writes them; no command does. -/
structure OperandRegs where
  kind : Word      -- x[0]
  buflen : Word    -- x[1]
  channels : Word  -- x[2]
  ntapsA : Word    -- x[3]
  ntapsB : Word    -- x[4]
  morphEn : Word   -- x[5]
  capP : Word      -- x[6]
  capN : Word      -- x[7]
  block : Word     -- x[8]
  steps : Word     -- x[9]
  tlenA : Word     -- x[10]
  tlenB : Word     -- x[11]
  deriving DecidableEq, Repr

/-- The velvet status registers of one polarity (R43 to R46, R49; R209 "one copy per polarity"). -/
structure VelvetRegs where
  len : Word  -- LEN, length of the working array
  rc : Word   -- RC, regression count (cursor index + 1)
  pc : Word   -- PC, progression cursor
  tl : Word   -- TL, target snapshot length
  cap : Word  -- CAP, declared capacity
  deriving DecidableEq, Repr

/-- The status registers (R30) and the stored fields of `STATUS` (R31). `MORPHING` is no stored bit
(R38). -/
structure StatusRegs where
  st : LifeCycle
  fcode : FaultCode
  kind : Kind
  policy : WrapPolicy
  layout : Layout
  tapSrc : TapSource
  morphEn : Bool
  wh : Word        -- c[1] WH
  result : Word    -- c[2] RESULT
  mrem : Word      -- c[3] MREM
  bufLen : Word    -- c[12] L
  channels : Word  -- c[13] C
  na : Word        -- c[14] NA
  nb : Word        -- c[15] NB
  pos : VelvetRegs -- c[4], c[6], c[8], c[10], c[16]
  neg : VelvetRegs -- c[5], c[7], c[9], c[11], c[17]
  deriving DecidableEq, Repr

/-- A word of a memory at its index. The block's smallest addressable unit is the 32-bit word and no
rule can observe a byte order (R78, log 7). -/
abbrev Cell := Nat × Word

/-- The words of one space that have been written, by rising index. A word that is not listed has never
been written since power-on (R54, U6). -/
abbrev Bank := List Cell

/-- The memories of R70, one bank per space. No two spaces overlap (R91). -/
structure Memory where
  acc : Bank
  dtap : Bank
  spos : Bank
  sval : Bank
  vpos : Bank
  vneg : Bank
  dtgt : Bank
  vtp : Bank
  vtn : Bank
  dcur : Bank
  ddel : Bank
  vcurp : Bank
  vcurn : Bank
  vinip : Bank
  vinin : Bank
  vtsp : Bank
  vtsn : Bank
  inp : Bank
  out : Bank
  deriving DecidableEq, Repr

/-- The whole machine: the block's state (`x`, `c`, `mem`; R20) and the model's own fields. -/
structure State where
  /-- Operand registers (R21). -/
  x : OperandRegs
  /-- Status registers (R30). -/
  c : StatusRegs
  /-- Memories (R70). -/
  mem : Memory
  /-- The model's own: the machine's parameters (R6), constant in every step (log 2). -/
  params : Params
  /-- The model's own: how many free NaN words have been drawn (R136, log 4). -/
  draws : Nat
  /-- The model's own: the host's coming moves, the next one first (R28, R81, log 1). -/
  host : List HostMove
  /-- The model's own: the words the host's reads have answered, newest first (log 10). -/
  answers : List Word
  deriving DecidableEq, Repr

/-- Why the machine stops with a fault of the MODEL. (The block's own FAULT state is a next state,
R252.) -/
inductive Fault where
  /-- Raised by the memory operations on an index at or beyond the space's depth: no such word exists
  (R70). Safe: no command reaches it from a state the machine can be in (R262). -/
  | beyondDepth (sp : Space) (i : Nat)
  deriving DecidableEq, Repr

/-- Why the machine gives no next state although nothing is wrong with the block. -/
inductive Refusal where
  /-- Raised by `exec` for an instruction that has no meaning yet. Safe. -/
  | notModelled (mnemonic : String)
  /-- Raised by a command that reads a word nothing has written since power-on: U6 has a model refuse
  it (R90). Safe. -/
  | unwrittenWord (sp : Space) (i : Nat)
  /-- Raised by a host write to an engine-written space, which R81 says is not a move. Safe. -/
  | notAMove (sp : Space)
  deriving DecidableEq, Repr

/-- Every operand register 0 (R54). -/
def OperandRegs.reset : OperandRegs :=
  { kind := 0, buflen := 0, channels := 0, ntapsA := 0, ntapsB := 0, morphEn := 0, capP := 0,
    capN := 0, block := 0, steps := 0, tlenA := 0, tlenB := 0 }

/-- Every velvet register 0 (R54). -/
def VelvetRegs.reset : VelvetRegs := { len := 0, rc := 0, pc := 0, tl := 0, cap := 0 }

/-- Every status register 0, which for the fields of `STATUS` is UNINIT, no fault, DENSE, MODULO, CH1,
IR and no scratch (R31, R54). -/
def StatusRegs.reset : StatusRegs :=
  { st := .uninit, fcode := .noFault, kind := .dense, policy := .modulo, layout := .ch1,
    tapSrc := .ir, morphEn := false, wh := 0, result := 0, mrem := 0, bufLen := 0, channels := 0,
    na := 0, nb := 0, pos := VelvetRegs.reset, neg := VelvetRegs.reset }

/-- No word of any memory written: every word is unspecified after power-on (R54). -/
def Memory.unwritten : Memory :=
  { acc := [], dtap := [], spos := [], sval := [], vpos := [], vneg := [], dtgt := [], vtp := [],
    vtn := [], dcur := [], ddel := [], vcurp := [], vcurn := [], vinip := [], vinin := [],
    vtsp := [], vtsn := [], inp := [], out := [] }

/-- A machine with parameters `p` right after power-on and hardware reset (R54), with no host move to
come. -/
def State.powerOn (p : Params) : State :=
  { x := OperandRegs.reset, c := StatusRegs.reset, mem := Memory.unwritten, params := p, draws := 0,
    host := [], answers := [] }

/-- The machine right after reset (R54), with the parameters of log 2. -/
def State.reset : State := State.powerOn Config.resetParams

end Sys2Proof.Machine
end

