-- ==== Sys2Proof/Machine/Ops.lean ====
section
/-! DEFINITION. The named operations every command is written with: sequencing, the words of a space
(20_memory.md R70 to R92), the loop of the pseudocode notation (00_scope.md R9), fault entry and its
only exit (60_exceptions.md R252, R265; 70_reset_and_hazards.md R290), the checks that precede every
effect (30_encoding.md R107, R264), and the free choice of a NaN (40_wrap_and_fanout.md R136). -/

namespace Sys2Proof.Machine

/-- What a part of a command answers: a value (often the next state), a fault or a refusal. -/
abbrev Res (α : Type) := Host.Outcome α Fault Refusal

/-- Go on with the value, or stop as the first part stopped. -/
def andThen {α β : Type} (r : Res α) (f : α → Res β) : Res β :=
  match r with
  | .next a => f a
  | .fault e => .fault e
  | .refused e => .refused e

/-- `for i in 0..n-1: body` (R9): ascending, each round complete before the next. -/
def forN : Nat → (Nat → State → Res State) → State → Res State
  | 0, _, s => .next s
  | n + 1, body, s => andThen (forN n body s) (body n)

/-! ### The words of a space -/

/-- The word last written at an index, if any. -/
def Bank.read : Bank → Nat → Option Word
  | [], _ => none
  | (j, w) :: rest, i => if j = i then some w else Bank.read rest i

/-- Write a word, keeping the indices rising. -/
def Bank.write : Bank → Nat → Word → Bank
  | [], i, v => [(i, v)]
  | (j, w) :: rest, i, v =>
    if i < j then (i, v) :: (j, w) :: rest
    else if i = j then (i, v) :: rest
    else (j, w) :: Bank.write rest i v

/-- The canonical form of a bank: indices strictly rising. (An unlisted word reads as "never written",
which no entry can equal.) -/
abbrev Bank.wf (b : Bank) : Prop := (b.map Prod.fst).Pairwise (· < ·)

/-- The bank of a space. -/
def Memory.get (m : Memory) : Space → Bank
  | .acc => m.acc
  | .dtap => m.dtap
  | .spos => m.spos
  | .sval => m.sval
  | .vpos => m.vpos
  | .vneg => m.vneg
  | .dtgt => m.dtgt
  | .vtp => m.vtp
  | .vtn => m.vtn
  | .dcur => m.dcur
  | .ddel => m.ddel
  | .vcurp => m.vcurp
  | .vcurn => m.vcurn
  | .vinip => m.vinip
  | .vinin => m.vinin
  | .vtsp => m.vtsp
  | .vtsn => m.vtsn
  | .inp => m.inp
  | .out => m.out

/-- Replace the bank of one space, and of no other (R91). -/
def Memory.set (m : Memory) (sp : Space) (b : Bank) : Memory :=
  match sp with
  | .acc => { m with acc := b }
  | .dtap => { m with dtap := b }
  | .spos => { m with spos := b }
  | .sval => { m with sval := b }
  | .vpos => { m with vpos := b }
  | .vneg => { m with vneg := b }
  | .dtgt => { m with dtgt := b }
  | .vtp => { m with vtp := b }
  | .vtn => { m with vtn := b }
  | .dcur => { m with dcur := b }
  | .ddel => { m with ddel := b }
  | .vcurp => { m with vcurp := b }
  | .vcurn => { m with vcurn := b }
  | .vinip => { m with vinip := b }
  | .vinin => { m with vinin := b }
  | .vtsp => { m with vtsp := b }
  | .vtsn => { m with vtsn := b }
  | .inp => { m with inp := b }
  | .out => { m with out := b }

/-- Every bank is canonical and lists only words that the space has (R70). -/
def Memory.wf (p : Params) (m : Memory) : Bool :=
  Space.all.all fun sp => decide (m.get sp).wf && (m.get sp).all fun cell => p.hasWord sp cell.1

/-- What has been written at index `i` of a space: the model's read of one word of memory. -/
def State.peek (s : State) (sp : Space) (i : Nat) : Option Word := (s.mem.get sp).read i

/-- Write one word of one space, and nothing else. -/
def State.poke (s : State) (sp : Space) (i : Nat) (v : Word) : State :=
  { s with mem := s.mem.set sp ((s.mem.get sp).write i v) }

/-- `MemRead(SPACE, i)` inside a command (R9). A word that nothing has written since power-on is refused
(R90, U6). -/
def memRead (sp : Space) (i : Nat) (s : State) : Res Word :=
  if s.params.hasWord sp i then
    match s.peek sp i with
    | some w => .next w
    | none => .refused (.unwrittenWord sp i)
  else .fault (.beyondDepth sp i)

/-- `MemWrite(SPACE, i, v)` (R9). -/
def memWrite (sp : Space) (i : Nat) (v : Word) (s : State) : Res State :=
  if s.params.hasWord sp i then .next (s.poke sp i v) else .fault (.beyondDepth sp i)

/-- `for i in 0..n-1: MemWrite(SPACE, i, v)`. -/
def fillWords (sp : Space) (n : Nat) (v : Word) : State → Res State :=
  forN n fun i s => memWrite sp i v s

/-- `for i in 0..n-1: MemWrite(dst, i, MemRead(src, i))`. -/
def copyWords (src dst : Space) (n : Nat) : State → Res State :=
  forN n fun i s => andThen (memRead src i s) fun v => memWrite dst i v s

/-! ### Faults of the block -/

/-- `raise Fault(code)` (R252): `ST` and `FCODE` are written and nothing else; the command ends. -/
def raiseFault (code : FaultCode) (s : State) : State :=
  { s with c := { s.c with st := .fault, fcode := code } }

/-- Hardware reset (R290), the only way out of FAULT (R265): every operand and status register 0, the
memories as they were (R291). -/
def hardReset (s : State) : State :=
  { s with x := OperandRegs.reset, c := StatusRegs.reset }

/-- What every command but `INIT` does with `c.ST` before anything else: nothing at all in FAULT
(R253), fault 1 in UNINIT (R254). -/
def guarded (s : State) (body : State → Res State) : Res State :=
  match s.c.st with
  | .fault => .next s
  | .uninit => .next (raiseFault .notInit s)
  | .ready => body s

/-- A command's own checks: each "this violation holds" with its code, in the order of R264. The first
that holds is raised; the effects come only after all of them (R107). -/
def checked : List (Bool × FaultCode) → State → (State → Res State) → Res State
  | [], s, effects => effects s
  | (bad, code) :: rest, s, effects =>
    if bad then .next (raiseFault code s) else checked rest s effects

/-! ### Floating-point results -/

/-- The word an operation leaves: its result or, where the result is a NaN, the next free NaN word
(R136, U3, log 4). -/
def fpResult (r : Option Word) (s : State) : Word × State :=
  match r with
  | some w => (w, s)
  | none => (nanOf (Config.nanBits s.draws), { s with draws := s.draws + 1 })

/-- `fadd` on the machine. -/
def fpAdd (a b : Word) (s : State) : Word × State := fpResult (binary32.add a b) s

/-- `fsub` on the machine. -/
def fpSub (a b : Word) (s : State) : Word × State := fpResult (binary32.sub a b) s

/-- `fmul` on the machine. -/
def fpMul (a b : Word) (s : State) : Word × State := fpResult (binary32.mul a b) s

/-- `fdiv` on the machine. -/
def fpDiv (a b : Word) (s : State) : Word × State := fpResult (binary32.div a b) s

end Sys2Proof.Machine
end

