-- ==== Sys2Proof/Machine/Operands.lean ====
section
/-! DEFINITION. The operand forms: operand registers by number (10_state.md R21), the latched kind read
from a register (R21, 42_init.md R170), the registers and spaces of a velvet polarity (44_velvet_morph.md
R209, R210), and the live tap source (10_state.md R37, R50). -/

namespace Sys2Proof.Machine

/-- Read `x[i]` (R21). -/
def OperandRegs.get (x : OperandRegs) (i : Fin 12) : Word :=
  match i with
  | 0 => x.kind
  | 1 => x.buflen
  | 2 => x.channels
  | 3 => x.ntapsA
  | 4 => x.ntapsB
  | 5 => x.morphEn
  | 6 => x.capP
  | 7 => x.capN
  | 8 => x.block
  | 9 => x.steps
  | 10 => x.tlenA
  | 11 => x.tlenB

/-- Write `x[i]` (R21, R22): any `u32`, in any register; none is hardwired and none aliases another. -/
def OperandRegs.set (x : OperandRegs) (i : Fin 12) (v : Word) : OperandRegs :=
  match i with
  | 0 => { x with kind := v }
  | 1 => { x with buflen := v }
  | 2 => { x with channels := v }
  | 3 => { x with ntapsA := v }
  | 4 => { x with ntapsB := v }
  | 5 => { x with morphEn := v }
  | 6 => { x with capP := v }
  | 7 => { x with capN := v }
  | 8 => { x with block := v }
  | 9 => { x with steps := v }
  | 10 => { x with tlenA := v }
  | 11 => { x with tlenB := v }

/-- The kind that `x[0]` names: 0 DENSE, 1 SPARSE, 2 VELVET, any other value none (R21, D30). -/
def kindOfWord (w : Word) : Option Kind :=
  if w = 0 then some .dense
  else if w = 1 then some .sparse
  else if w = 2 then some .velvet
  else none

/-- The velvet registers of a polarity. -/
def StatusRegs.pol (c : StatusRegs) : Polarity → VelvetRegs
  | .pos => c.pos
  | .neg => c.neg

/-- Replace the velvet registers of one polarity, and of no other (R228). -/
def StatusRegs.setPol (c : StatusRegs) (σ : Polarity) (r : VelvetRegs) : StatusRegs :=
  match σ with
  | .pos => { c with pos := r }
  | .neg => { c with neg := r }

/-- The IR view's count `n_σ` (R210): `NA` for the positive list, `NB` for the negative. -/
def StatusRegs.viewCount (c : StatusRegs) : Polarity → Word
  | .pos => c.na
  | .neg => c.nb

/-- `VIR_σ`: `VPOS`, `VNEG` (R210). -/
def viewSpace : Polarity → Space
  | .pos => .vpos
  | .neg => .vneg

/-- `VT_σ`: `VTP`, `VTN` (R210). -/
def targetSpace : Polarity → Space
  | .pos => .vtp
  | .neg => .vtn

/-- `VCURσ` (R209). -/
def workSpace : Polarity → Space
  | .pos => .vcurp
  | .neg => .vcurn

/-- `VINIσ` (R209). -/
def initialSpace : Polarity → Space
  | .pos => .vinip
  | .neg => .vinin

/-- `VTSσ` (R209). -/
def snapshotSpace : Polarity → Space
  | .pos => .vtsp
  | .neg => .vtsn

/-- `tl_σ` (R210): the target count operand of a polarity, `x[10]` or `x[11]`. -/
def OperandRegs.targetCount (x : OperandRegs) : Polarity → Word
  | .pos => x.tlenA
  | .neg => x.tlenB

/-- `live_count(σ)` (R50). -/
def StatusRegs.liveCount (c : StatusRegs) (σ : Polarity) : Word :=
  match c.tapSrc with
  | .ir => c.viewCount σ
  | .cur => (c.pol σ).len

/-- Where DENSE taps are read (R143). -/
def StatusRegs.denseTaps (c : StatusRegs) : Space :=
  match c.tapSrc with
  | .ir => .dtap
  | .cur => .dcur

/-- Where the delays of a velvet polarity are read (R145). -/
def StatusRegs.velvetTaps (c : StatusRegs) (σ : Polarity) : Space :=
  match c.tapSrc with
  | .ir => viewSpace σ
  | .cur => workSpace σ

end Sys2Proof.Machine
end

