-- ==== Sys2Proof/Machine/Flags.lean ====
section
/-! DEFINITION. The status registers as the host reads them (10_state.md R30), `STATUS` packed from its
fields (R31), and `morphing()` (R38). The block has no arithmetic flags (R29). -/

namespace Sys2Proof.Machine

/-- Bits 1:0 of `STATUS` (R31). -/
def LifeCycle.bits : LifeCycle → BitVec 2
  | .uninit => 0
  | .ready => 1
  | .fault => 2

/-- Bit 3 of `STATUS` (R31). -/
def WrapPolicy.bits : WrapPolicy → BitVec 1
  | .modulo => 0
  | .mask => 1

/-- Bits 5:4 of `STATUS` (R31). -/
def Layout.bits : Layout → BitVec 2
  | .ch1 => 0
  | .ch2 => 1
  | .ch4 => 2
  | .chN => 3

/-- Bits 7:6 of `STATUS` (R31). -/
def Kind.bits : Kind → BitVec 2
  | .dense => 0
  | .sparse => 1
  | .velvet => 2

/-- Bit 8 of `STATUS` (R31). -/
def TapSource.bits : TapSource → BitVec 1
  | .ir => 0
  | .cur => 1

/-- Bits 23:16 of `STATUS` (R31): the codes of R251. -/
def FaultCode.bits : FaultCode → BitVec 8
  | .noFault => 0
  | .notInit => 1
  | .illegalCmd => 2
  | .badKind => 3
  | .nullBuffer => 4
  | .zeroBuflen => 5
  | .zeroChannels => 6
  | .nullTaps => 7
  | .noScratch => 8
  | .badSteps => 9
  | .tapcountMismatch => 10
  | .overCapacity => 11
  | .noMorphForKind => 12

/-- One polarity still has an element under one of its cursors (R224). -/
def VelvetRegs.busy (r : VelvetRegs) : Bool := decide (0 < r.rc) || decide (r.pc < r.tl)

/-- `morphing()` (R38): a function of other state, stored nowhere. -/
def StatusRegs.morphing (c : StatusRegs) : Bool :=
  match c.st, c.kind with
  | .ready, .dense => decide (0 < c.mrem)
  | .ready, .velvet => c.pos.busy || c.neg.busy
  | .ready, .sparse => false
  | .uninit, _ | .fault, _ => false

/-- `STATUS` (R31), written from bit 31 down to bit 0; the reserved fields are 0. -/
def StatusRegs.statusWord (c : StatusRegs) : Word :=
  0#8 ++ c.fcode.bits ++ 0#6 ++ BitVec.ofBool c.morphEn ++ c.tapSrc.bits ++ c.kind.bits ++
    c.layout.bits ++ c.policy.bits ++ BitVec.ofBool c.morphing ++ c.st.bits

/-- The status registers in the order of their numbers (R30). -/
def StatusRegs.toList (c : StatusRegs) : List Word :=
  [c.statusWord, c.wh, c.result, c.mrem, c.pos.len, c.neg.len, c.pos.rc, c.neg.rc, c.pos.pc,
   c.neg.pc, c.pos.tl, c.neg.tl, c.bufLen, c.channels, c.na, c.nb, c.pos.cap, c.neg.cap]

/-- Read `c[i]` (R30). -/
def StatusRegs.get (c : StatusRegs) (i : Fin 18) : Word := c.toList.get i

/-- Read a field of `STATUS` (R31, R108), zero-extended. -/
def StatusRegs.getField (c : StatusRegs) : StatusField → Word
  | .st => c.st.bits.zeroExtend 32
  | .morphing => (BitVec.ofBool c.morphing).zeroExtend 32
  | .policy => c.policy.bits.zeroExtend 32
  | .layout => c.layout.bits.zeroExtend 32
  | .kind => c.kind.bits.zeroExtend 32
  | .tapSrc => c.tapSrc.bits.zeroExtend 32
  | .morphEn => (BitVec.ofBool c.morphEn).zeroExtend 32
  | .fcode => c.fcode.bits.zeroExtend 32

end Sys2Proof.Machine
end

