-- ==== Sys2Proof/Machine/Wrap.lean ====
section
/-! DEFINITION. The wrap arithmetic unit and the channel fan-out unit (40_wrap_and_fanout.md R120 to
R133): each with its variants and with the selection that `INIT` makes once. -/

namespace Sys2Proof.Machine

/-- `is_pow2` (R123; 1 counts, log 13). -/
def isPow2 (n : Nat) : Bool := decide (n ≠ 0) && decide (n &&& (n - 1) = 0)

/-- Policy selection, inside `INIT` only (R122). -/
def policyOf (bufLen : Word) : WrapPolicy := if isPow2 bufLen.toNat then .mask else .modulo

/-- Layout selection, inside `INIT` only (R131). -/
def layoutOf (channels : Word) : Layout :=
  if channels = 1 then .ch1
  else if channels = 2 then .ch2
  else if channels = 4 then .ch4
  else .chN

/-- `wrap(a)` (R121): the address is exact, a natural number, before it is reduced (R126). -/
def StatusRegs.wrap (c : StatusRegs) (a : Nat) : Nat :=
  match c.policy with
  | .mask => a &&& (c.bufLen.toNat - 1)
  | .modulo => a % c.bufLen.toNat

/-- `fanout(C, op)` (R130) in the variant `c.LAYOUT` selects (R131): unrolled for 1, 2 and 4 channels,
a loop otherwise. Channels ascend and each is complete before the next (R133). -/
def fanout (op : Nat → State → Res State) (s : State) : Res State :=
  match s.c.layout with
  | .ch1 => op 0 s
  | .ch2 => andThen (op 0 s) (op 1)
  | .ch4 => andThen (andThen (andThen (op 0 s) (op 1)) (op 2)) (op 3)
  | .chN => forN s.c.channels.toNat op s

end Sys2Proof.Machine
end

