-- ==== Sys2Proof/Machine/Init.lean ====
section
/-! DEFINITION. The `INIT` command (42_init.md R170 to R181). -/

namespace Sys2Proof.Machine

/-- `nB` (R170, R175): `x[4]` for VELVET, 0 for DENSE and SPARSE, which do not read it. -/
def OperandRegs.secondCount (x : OperandRegs) (k : Kind) : Word :=
  match k with
  | .velvet => x.ntapsB
  | .dense | .sparse => 0

/-- The checks after the kind's (R171, R264). -/
def initChecks (s : State) (k : Kind) : List (Bool × FaultCode) :=
  [ (decide (s.params.accDepth = 0), .nullBuffer),
    (decide (s.x.buflen = 0), .zeroBuflen),
    (decide (s.params.accDepth < s.x.buflen.toNat), .nullBuffer),
    (decide (s.x.channels = 0), .zeroChannels),
    (decide (s.params.irDepth < s.x.ntapsA.toNat)
      || decide (s.params.irDepth < (s.x.secondCount k).toNat), .nullTaps) ]

/-- Scratch is asked for (R176): `x[5]` nonzero, and the kind is not SPARSE. -/
def OperandRegs.wantsMorph (x : OperandRegs) (k : Kind) : Bool :=
  decide (x.morphEn ≠ 0) && decide (k ≠ .sparse)

/-- The words each scratch memory needs (R176): the dense tap count, or the larger velvet capacity. -/
def OperandRegs.scratchNeed (x : OperandRegs) (k : Kind) : Nat :=
  match k with
  | .dense => x.ntapsA.toNat
  | .velvet => max x.capP.toNat x.capN.toNat
  | .sparse => 0

/-- `MORPH_EN` as `INIT` leaves it (R176): scratch that does not fit counts as not supplied. -/
def morphBinding (p : Params) (x : OperandRegs) (k : Kind) : Bool :=
  x.wantsMorph k && decide (x.scratchNeed k ≤ p.scrDepth)

/-- The velvet registers as `INIT` leaves them (R170, R176): no cursor, no length, and the capacity when
the kind is VELVET and the binding holds. -/
def initPol (bound : Bool) (k : Kind) (cap : Word) : VelvetRegs :=
  { VelvetRegs.reset with cap := if bound && decide (k = .velvet) then cap else 0 }

/-- The status registers as a successful `INIT` leaves them (R170, R172): all rewritten but `FCODE`,
which only a fault writes (R33). -/
def initRegs (s : State) (k : Kind) : StatusRegs :=
  { s.c with
    st := .ready
    kind := k
    policy := policyOf s.x.buflen
    layout := layoutOf s.x.channels
    tapSrc := .ir
    morphEn := morphBinding s.params s.x k
    wh := 0
    result := 0
    mrem := 0
    bufLen := s.x.buflen
    channels := s.x.channels
    na := s.x.ntapsA
    nb := s.x.secondCount k
    pos := initPol (morphBinding s.params s.x k) k s.x.capP
    neg := initPol (morphBinding s.params s.x k) k s.x.capN }

/-- The effects (R172): the accumulator's words in use are cleared (R174) and the status registers are
rewritten. -/
def initEffects (k : Kind) (s : State) : Res State :=
  andThen (fillWords .acc s.x.buflen.toNat zeroWord s) fun s' =>
  .next { s' with c := initRegs s' k }

/-- `INIT` (R170): nothing in FAULT (R178), else the checks and then the effects, in UNINIT and in READY
alike (R177). -/
def execInit (s : State) : Res State :=
  match s.c.st with
  | .fault => .next s
  | .uninit | .ready =>
    match kindOfWord s.x.kind with
    | none => .next (raiseFault .badKind s)
    | some k => checked (initChecks s k) s (initEffects k)

end Sys2Proof.Machine
end

