-- ==== Sys2Proof/Machine/DenseMorph.lean ====
section
/-! DEFINITION. The dense morph interpolation machine (43_dense_morph.md R189 to R205). -/

namespace Sys2Proof.Machine

/-- The checks of a dense `START_MORPH` (R191, R264). -/
def denseStartChecks (s : State) : List (Bool × FaultCode) :=
  [ (!s.c.morphEn, .noScratch),
    (decide (s.x.steps = 0), .badSteps),
    (decide (s.x.tlenA ≠ s.c.na), .tapcountMismatch) ]

/-- The working array receives the IR view, only when the tap source still is the IR view (R192). -/
def denseFill (s : State) : Res State :=
  match s.c.tapSrc with
  | .ir => copyWords .dtap .dcur s.c.na.toNat s
  | .cur => .next s

/-- One delta (R193): a rounded subtraction, then a rounded division by the converted step count. -/
def denseDelta (i : Nat) (s : State) : Res State :=
  andThen (memRead .dtgt i s) fun target =>
  andThen (memRead .dcur i s) fun current =>
  let diff := fpSub target current s
  let delta := fpDiv diff.1 (binary32.ofNat diff.2.x.steps.toNat) diff.2
  memWrite .ddel i delta.1 delta.2

/-- The effects of a dense `START_MORPH` (R190, R192). -/
def denseStartEffects (s : State) : Res State :=
  andThen (denseFill s) fun s1 =>
  andThen (forN s1.c.na.toNat denseDelta s1) fun s2 =>
  .next { s2 with c := { s2.c with mrem := s2.x.steps, tapSrc := .cur } }

/-- `START_MORPH` with `c.KIND = DENSE` (R190), in READY. A start while a morph is active retargets it
and needs no case of its own (R194). -/
def denseStart (s : State) : Res State := checked (denseStartChecks s) s denseStartEffects

/-- One tap of one interpolation step (R195). -/
def denseAdd (i : Nat) (s : State) : Res State :=
  andThen (memRead .dcur i s) fun current =>
  andThen (memRead .ddel i s) fun delta =>
  let sum := fpAdd current delta s
  memWrite .dcur i sum.1 sum.2

/-- The snap (R196): every tap takes the target's word as it stands now. -/
def denseSnap (s : State) : Res State :=
  if s.c.mrem = 0 then copyWords .dtgt .dcur s.c.na.toNat s else .next s

/-- One interpolation step (R195); nothing when no morph is active. -/
def denseUpdateEffects (s : State) : Res State :=
  if s.c.mrem = 0 then .next s
  else
    andThen (forN s.c.na.toNat denseAdd s) fun s' =>
    denseSnap { s' with c := { s'.c with mrem := s'.c.mrem - 1 } }

/-- `UPDATE_MORPH` with `c.KIND = DENSE` (R195), in READY; without scratch it faults (R197). -/
def denseUpdate (s : State) : Res State :=
  checked [(!s.c.morphEn, .noScratch)] s denseUpdateEffects

end Sys2Proof.Machine
end

