-- ==== Sys2Proof/Machine/VelvetMorph.lean ====
section
/-! DEFINITION. The velvet morph tap-migration machine (44_velvet_morph.md R208 to R234). -/

namespace Sys2Proof.Machine

/-- The checks of a velvet `START_MORPH` (R211, R264). -/
def velvetStartChecks (s : State) : List (Bool × FaultCode) :=
  [ (!s.c.morphEn, .noScratch),
    (decide (s.params.irDepth < s.x.tlenA.toNat) || decide (s.params.irDepth < s.x.tlenB.toNat),
      .nullTaps),
    (decide (s.c.pos.cap < s.x.tlenA) || decide (s.c.neg.cap < s.x.tlenB), .overCapacity),
    (decide (s.c.pos.cap < s.c.liveCount .pos) || decide (s.c.neg.cap < s.c.liveCount .neg),
      .overCapacity) ]

/-- The working array of a polarity receives the IR view, only when the tap source still is the IR view
(R213). -/
def velvetFill (σ : Polarity) (s : State) : Res State :=
  match s.c.tapSrc with
  | .ir =>
    andThen (copyWords (viewSpace σ) (workSpace σ) (s.c.viewCount σ).toNat s) fun s' =>
    .next { s' with c := s'.c.setPol σ { s'.c.pol σ with len := s'.c.viewCount σ } }
  | .cur => .next s

/-- Snapshot the working array as the initial sequence; the regression cursor goes to its last index
(R212). -/
def velvetSnapInitial (σ : Polarity) (s : State) : Res State :=
  andThen (copyWords (workSpace σ) (initialSpace σ) (s.c.pol σ).len.toNat s) fun s' =>
  .next { s' with c := s'.c.setPol σ { s'.c.pol σ with rc := (s'.c.pol σ).len } }

/-- Snapshot the target (R215); the progression cursor goes to index 0 (R212). -/
def velvetSnapTarget (σ : Polarity) (s : State) : Res State :=
  andThen (copyWords (targetSpace σ) (snapshotSpace σ) (s.x.targetCount σ).toNat s) fun s' =>
  .next { s' with c := s'.c.setPol σ { s'.c.pol σ with tl := s'.x.targetCount σ, pc := 0 } }

/-- What `START_MORPH` does for one polarity (R210). -/
def velvetStartPol (σ : Polarity) (s : State) : Res State :=
  andThen (velvetFill σ s) fun s1 =>
  andThen (velvetSnapInitial σ s1) fun s2 =>
  velvetSnapTarget σ s2

/-- The effects of a velvet `START_MORPH`: the positive polarity, the negative, the tap source (R210). -/
def velvetStartEffects (s : State) : Res State :=
  andThen (velvetStartPol .pos s) fun s1 =>
  andThen (velvetStartPol .neg s1) fun s2 =>
  .next { s2 with c := { s2.c with tapSrc := .cur } }

/-- `START_MORPH` with `c.KIND = VELVET` (R210), in READY. -/
def velvetStart (s : State) : Res State := checked (velvetStartChecks s) s velvetStartEffects

/-- The slot a substitution overwrites (R221): the regression cursor's index, or under the losing reading
of C2 the progression cursor (log 3). -/
def substitutionSlot (p : SubstSlot) (r : VelvetRegs) : Nat :=
  match p with
  | .regression => (r.rc - 1).toNat
  | .progression => r.pc.toNat

/-- One polarity's step (R220): substitute, else remove, else append, else complete. -/
def velvetStep (σ : Polarity) (s : State) : Res State :=
  let r := s.c.pol σ
  if 0 < r.rc ∧ r.pc < r.tl then
    andThen (memRead (snapshotSpace σ) r.pc.toNat s) fun v =>
    andThen (memWrite (workSpace σ) (substitutionSlot s.params.substSlot r) v s) fun s' =>
    .next { s' with c := s'.c.setPol σ { r with rc := r.rc - 1, pc := r.pc + 1 } }
  else if 0 < r.rc then
    .next { s with c := s.c.setPol σ { r with len := r.len - 1, rc := r.rc - 1 } }
  else if r.pc < r.tl then
    andThen (memRead (snapshotSpace σ) r.pc.toNat s) fun v =>
    andThen (memWrite (workSpace σ) r.len.toNat v s) fun s' =>
    .next { s' with c := s'.c.setPol σ { r with len := r.len + 1, pc := r.pc + 1 } }
  else .next s

/-- One migration step of each polarity (R219). -/
def velvetUpdateEffects (s : State) : Res State :=
  andThen (velvetStep .pos s) (velvetStep .neg)

/-- `UPDATE_MORPH` with `c.KIND = VELVET` (R219), in READY; without scratch it faults (R197). -/
def velvetUpdate (s : State) : Res State :=
  checked [(!s.c.morphEn, .noScratch)] s velvetUpdateEffects

end Sys2Proof.Machine
end

