-- ==== Sys2Proof/Machine/Morph.lean ====
section
/-! DEFINITION. The morph commands, dispatched on the latched kind (30_encoding.md R106), and the query
(45_is_morphing.md R240). -/

namespace Sys2Proof.Machine

/-- `START_MORPH` (R190 DENSE, R210 VELVET, R260 SPARSE). -/
def execStartMorph (s : State) : Res State :=
  guarded s fun s =>
    match s.c.kind with
    | .dense => denseStart s
    | .sparse => .next (raiseFault .noMorphForKind s)
    | .velvet => velvetStart s

/-- `UPDATE_MORPH` (R195 DENSE, R219 VELVET, R260 SPARSE). -/
def execUpdateMorph (s : State) : Res State :=
  guarded s fun s =>
    match s.c.kind with
    | .dense => denseUpdate s
    | .sparse => .next (raiseFault .noMorphForKind s)
    | .velvet => velvetUpdate s

/-- `IS_MORPHING` (R240): `RESULT` takes the answer, 0 or 1, and nothing else changes. -/
def execIsMorphing (s : State) : Res State :=
  guarded s fun s =>
    .next { s with c := { s.c with result := (BitVec.ofBool s.c.morphing).zeroExtend 32 } }

end Sys2Proof.Machine
end

