-- ==== Sys2Proof/Machine/Kernel.lean ====
section
/-! DEFINITION. The scatter-write kernel: one sample step and its three phases (41_kernel_process.md
R141 to R148). -/

namespace Sys2Proof.Machine

/-- What a tap contributes (R142): the sample times the tap's value (DENSE, SPARSE), the sample (velvet
positive), or the sample with its sign flipped (velvet negative). -/
inductive Contribution where
  | scaled (tap : Word)
  | added
  | subtracted
  deriving DecidableEq, Repr

/-- The contribution rule applied to an input sample. -/
def contribute (k : Contribution) (sample : Word) (s : State) : Word × State :=
  match k with
  | .scaled tap => fpMul sample tap s
  | .added => (sample, s)
  | .subtracted => (binary32.neg sample, s)

/-- The effective address of delay `d` on channel `ch` (R142): exact in Nat, then wrapped. -/
def StatusRegs.slot (c : StatusRegs) (ch d : Nat) : Nat :=
  c.wrap (c.wh.toNat + ch + d * c.channels.toNat)

/-- The word channel `ch` emits in this frame (R146). -/
def StatusRegs.emitSlot (c : StatusRegs) (ch : Nat) : Nat := c.wrap (c.wh.toNat + ch)

/-- The word of `IN` and `OUT` for channel `ch` of frame `f`: channel-interleaved (R76, C4). -/
def StatusRegs.sampleIndex (c : StatusRegs) (f ch : Nat) : Nat := f * c.channels.toNat + ch

/-- The per-tap, per-channel accumulate operation `acc_op(s, d, contrib)(ch)` (R142): a rounded
contribution, then a rounded addition (`FUSED_MAC` is false, R6, R135). -/
def accOp (f d : Nat) (k : Contribution) (ch : Nat) (s : State) : Res State :=
  andThen (memRead .acc (s.c.slot ch d) s) fun a =>
  andThen (memRead .inp (s.c.sampleIndex f ch) s) fun sample =>
  let contrib := contribute k sample s
  let sum := fpAdd a contrib.1 contrib.2
  memWrite .acc (s.c.slot ch d) sum.1 sum.2

/-- One dense tap: tap `t` has delay `t` (R143). -/
def denseTap (f t : Nat) (s : State) : Res State :=
  andThen (memRead s.c.denseTaps t s) fun v => fanout (accOp f t (.scaled v)) s

/-- One sparse pair (R144). -/
def sparseTap (f t : Nat) (s : State) : Res State :=
  andThen (memRead .spos t s) fun d =>
  andThen (memRead .sval t s) fun v => fanout (accOp f d.toNat (.scaled v)) s

/-- What a tap of each polarity contributes (R145). -/
def Polarity.contribution : Polarity → Contribution
  | .pos => .added
  | .neg => .subtracted

/-- One velvet tap of a polarity (R145). -/
def velvetTap (σ : Polarity) (f t : Nat) (s : State) : Res State :=
  andThen (memRead (s.c.velvetTaps σ) t s) fun d => fanout (accOp f d.toNat σ.contribution) s

/-- The accumulate phase of frame `f`: taps in ascending index of their array, the whole positive list
before the negative one (R143, R144, R145, R148). -/
def accumulate (f : Nat) (s : State) : Res State :=
  match s.c.kind with
  | .dense => forN s.c.na.toNat (denseTap f) s
  | .sparse => forN s.c.na.toNat (sparseTap f) s
  | .velvet =>
    andThen (forN (s.c.liveCount .pos).toNat (velvetTap .pos f) s) fun s' =>
    forN (s'.c.liveCount .neg).toNat (velvetTap .neg f) s'

/-- Emit one channel's slot, bit for bit, and clear it to `+0.0` (R146). -/
def emitOp (f ch : Nat) (s : State) : Res State :=
  andThen (memRead .acc (s.c.emitSlot ch) s) fun w =>
  andThen (memWrite .out (s.c.sampleIndex f ch) w s) fun s' =>
  memWrite .acc (s.c.emitSlot ch) zeroWord s'

/-- The emit-and-clear phase of frame `f` (R146). -/
def emitAndClear (f : Nat) (s : State) : Res State := fanout (emitOp f) s

/-- The advance phase (R147). -/
def advance (s : State) : State :=
  { s with c := { s.c with wh := BitVec.ofNat 32 (s.c.wrap (s.c.wh.toNat + s.c.channels.toNat)) } }

/-- One sample step (R141). -/
def sampleStep (f : Nat) (s : State) : Res State :=
  andThen (accumulate f s) fun s' =>
  andThen (emitAndClear f s') fun s'' => .next (advance s'')

end Sys2Proof.Machine
end

