-- ==== Sys2Proof/Machine/Process.lean ====
section
/-! DEFINITION. The `PROCESS` command (41_kernel_process.md R140). -/

namespace Sys2Proof.Machine

/-- `S` sample steps, frame 0 first (R140). -/
def processFrames (frames : Nat) : State → Res State := forN frames sampleStep

/-- `PROCESS` (R140): `x[8]` frames; it never raises a fault of its own once initialized (R255). -/
def execProcess (s : State) : Res State :=
  guarded s fun s => processFrames s.x.block.toNat s

end Sys2Proof.Machine
end

