-- ==== Sys2Proof/Machine/Dispatch.lean ====
section
/-! DEFINITION. One arm per command (30_encoding.md R101, R106). -/

namespace Sys2Proof.Machine

def exec (i : Instr) (s : State) : Host.Outcome State Fault Refusal :=
  match i with
  | .init => Sys2Proof.Machine.execInit s
  | .process => Sys2Proof.Machine.execProcess s
  | .startMorph => Sys2Proof.Machine.execStartMorph s
  | .updateMorph => Sys2Proof.Machine.execUpdateMorph s
  | .isMorphing => Sys2Proof.Machine.execIsMorphing s

end Sys2Proof.Machine
end

