-- ==== Sys2Proof/Machine/HostMoves.lean ====
section
/-! DEFINITION. The host's moves between commands (20_memory.md R80 to R82, R88; 30_encoding.md R107,
R111; 60_exceptions.md R273) and the pseudo-instructions (30_encoding.md R110). -/

namespace Sys2Proof.Machine

/-- The issue of a command word (R107, R273): nothing at all in FAULT, whatever the word (R253); fault 2
for a word that is no command (R104); else the command. -/
def issue (w : Word) (s : State) : Res State :=
  match s.c.st with
  | .fault => .next s
  | .uninit | .ready =>
    match decode w with
    | .error _ => .next (raiseFault .illegalCmd s)
    | .ok i => exec i s

/-- A host read answers a word and changes nothing of the block (R83). -/
def answer (v : Word) (s : State) : State := { s with answers := v :: s.answers }

/-- What a host read of a memory word answers: the word last written or, where nothing has written one,
the unknown word it holds since power-on (U6, log 6). -/
def State.hostView (s : State) (sp : Space) (i : Nat) : Word :=
  (s.peek sp i).getD (Config.powerOnWord sp i)

/-- A host write of a memory word: only to a host-owned space (R81). -/
def hostWrite (sp : Space) (i : Nat) (v : Word) (s : State) : Res State :=
  if sp.hostOwned then memWrite sp i v s else .refused (.notAMove sp)

/-- A host read of a memory word, of any space (R81). -/
def hostRead (sp : Space) (i : Nat) (s : State) : Res State :=
  if s.params.hasWord sp i then .next (answer (s.hostView sp i) s) else .fault (.beyondDepth sp i)

/-- One host move (R81). -/
def hostMove (m : HostMove) (s : State) : Res State :=
  match m with
  | .writeX i v => .next { s with x := s.x.set i v }
  | .readX i => .next (answer (s.x.get i) s)
  | .readC i => .next (answer (s.c.get i) s)
  | .readField f => .next (answer (s.c.getField f) s)
  | .writeM sp i v => hostWrite sp i v s
  | .readM sp i => hostRead sp i s
  | .command w => issue w s
  | .reset => .next (hardReset s)

/-- `WRM SPACE, i.., v0 v1 ...` (R108). -/
def scriptWriteWords (sp : Space) (i : Nat) : List Word → List HostMove
  | [] => []
  | v :: rest => .writeM sp i v :: scriptWriteWords sp (i + 1) rest

/-- `RDM SPACE, i .. i+n-1` (R110). -/
def scriptReadWords (sp : Space) (i : Nat) : Nat → List HostMove
  | 0 => []
  | n + 1 => .readM sp i :: scriptReadWords sp (i + 1) n

/-- `Init(kind, L, C, nA, nB, morph, capP, capN)` (R110). -/
def scriptInit (kind bufLen channels nA nB morph capP capN : Word) : List HostMove :=
  [.writeX 0 kind, .writeX 1 bufLen, .writeX 2 channels, .writeX 3 nA, .writeX 4 nB,
   .writeX 5 morph, .writeX 6 capP, .writeX 7 capN, .command (encode .init)]

/-- `Process(block, S)` for `C` channels (R110). -/
def scriptProcess (block : List Word) (frames : Word) (channels : Nat) : List HostMove :=
  scriptWriteWords .inp 0 block ++ [.writeX 8 frames, .command (encode .process)] ++
    scriptReadWords .out 0 (frames.toNat * channels)

/-- `StartMorph(target, steps)`, DENSE (R110). -/
def scriptStartDense (target : List Word) (steps : Word) : List HostMove :=
  scriptWriteWords .dtgt 0 target ++
    [.writeX 9 steps, .writeX 10 (BitVec.ofNat 32 target.length), .command (encode .startMorph)]

/-- `StartMorph(targetP, targetN)`, VELVET (R110). -/
def scriptStartVelvet (targetP targetN : List Word) : List HostMove :=
  scriptWriteWords .vtp 0 targetP ++ scriptWriteWords .vtn 0 targetN ++
    [.writeX 10 (BitVec.ofNat 32 targetP.length), .writeX 11 (BitVec.ofNat 32 targetN.length),
     .command (encode .startMorph)]

/-- `UpdateMorph()` (R110). -/
def scriptUpdateMorph : List HostMove := [.command (encode .updateMorph)]

/-- `IsMorphing()` (R110): issue the query, then read `RESULT`. -/
def scriptIsMorphing : List HostMove := [.command (encode .isMorphing), .readC 2]

end Sys2Proof.Machine
end

