-- ==== Sys2Proof/Machine/Step.lean ====
section
/-! DEFINITION. One step of the machine: the host's next move (20_memory.md R86; log 1). The block has
no program counter and fetches nothing (10_state.md R28): the order of commands is the order in which the
host issues them. -/

namespace Sys2Proof.Machine

/-- The host's next move is made; when the host has none, the block is idle and holds its state (R272,
log 19). -/
def step (s : State) : Host.Outcome State Fault Refusal :=
  match s.host with
  | [] => .next s
  | m :: rest => hostMove m { s with host := rest }

/-- `s` with this command word as the host's next move (log 1): the very next step issues it. -/
def State.withFetchWord (s : State) (nbits w : Nat) : State :=
  { s with host := .command (BitVec.ofNat 32 (w % 2 ^ nbits)) :: s.host }

end Sys2Proof.Machine
end

