-- ==== Sys2Proof/Safety.lean ====
section
/-! DEFINITION. The terms the claims use: the invariant of the machine (10_state.md R51, with what R90,
R227, R232 and R262 add to it), what the host must have loaded before a command (42_init.md R181), the
fault table (60_exceptions.md R264), and what a command leaves unchanged. -/

namespace Sys2Proof.Machine

/-- The first `n` words of a space have been written since power-on. -/
def Written (s : State) (sp : Space) (n : Nat) : Prop :=
  ∀ i, i < n → (s.peek sp i).isSome = true

/-! ### The invariant -/

/-- One velvet polarity (R51e, R227, R232; R90 for the words). -/
structure PolarityInv (s : State) (σ : Polarity) : Prop where
  len_eq : (s.c.pol σ).len.toNat = (s.c.pol σ).rc.toNat + (s.c.pol σ).pc.toNat
  pc_le_tl : (s.c.pol σ).pc ≤ (s.c.pol σ).tl
  len_le_cap : (s.c.pol σ).len ≤ (s.c.pol σ).cap
  tl_le_cap : (s.c.pol σ).tl ≤ (s.c.pol σ).cap
  cap_fits : (s.c.pol σ).cap.toNat ≤ s.params.scrDepth
  work_written : Written s (workSpace σ) (s.c.pol σ).len.toNat
  snapshot_written : Written s (snapshotSpace σ) (s.c.pol σ).tl.toNat
  ir_idle : s.c.tapSrc = .ir →
    (s.c.pol σ).len = 0 ∧ (s.c.pol σ).rc = 0 ∧ (s.c.pol σ).pc = 0 ∧ (s.c.pol σ).tl = 0
  velvet_only : s.c.kind ≠ .velvet ∨ s.c.morphEn = false → s.c.pol σ = VelvetRegs.reset

/-- What holds while `c.ST = READY` (R51; R262 for the depths, R90 for the words). -/
structure ReadyInv (s : State) : Prop where
  bufLen_pos : 0 < s.c.bufLen.toNat
  channels_pos : 0 < s.c.channels.toNat
  bufLen_fits : s.c.bufLen.toNat ≤ s.params.accDepth
  wh_lt : s.c.wh < s.c.bufLen
  policy_eq : s.c.policy = policyOf s.c.bufLen
  layout_eq : s.c.layout = layoutOf s.c.channels
  cur_morph : s.c.tapSrc = .cur → s.c.morphEn = true
  morph_kind : s.c.morphEn = true → s.c.kind ≠ .sparse
  dense_busy : 0 < s.c.mrem → s.c.kind = .dense ∧ s.c.tapSrc = .cur
  na_fits : s.c.na.toNat ≤ s.params.irDepth
  nb_fits : s.c.nb.toNat ≤ s.params.irDepth
  nb_zero : s.c.kind ≠ .velvet → s.c.nb = 0
  dense_scratch : s.c.kind = .dense → s.c.morphEn = true → s.c.na.toNat ≤ s.params.scrDepth
  acc_written : Written s .acc s.c.bufLen.toNat
  dcur_written : s.c.kind = .dense → s.c.tapSrc = .cur → Written s .dcur s.c.na.toNat
  ddel_written : s.c.kind = .dense → s.c.tapSrc = .cur → Written s .ddel s.c.na.toNat
  polarity : ∀ σ, PolarityInv s σ

/-- The invariant of the machine: canonical memory that lists no word a space does not have, status
registers all 0 before the first `INIT` (R54), a fault code exactly in FAULT (R33), `RESULT` a truth value
(R41), and `ReadyInv` in READY (R274). -/
structure MachineInv (s : State) : Prop where
  mem_wf : s.mem.wf s.params = true
  uninit : s.c.st = .uninit → s.c = StatusRegs.reset
  fault_code : s.c.st = .fault ↔ s.c.fcode ≠ .noFault
  result_bit : s.c.result = 0 ∨ s.c.result = 1
  ready : s.c.st = .ready → ReadyInv s

/-! ### What the host must have loaded (R181) -/

/-- Every word of the live part of the tap source has been written (R74, R181). -/
def TapsLoaded (s : State) : Prop :=
  match s.c.kind with
  | .dense => Written s s.c.denseTaps s.c.na.toNat
  | .sparse => Written s .spos s.c.na.toNat ∧ Written s .sval s.c.na.toNat
  | .velvet => ∀ σ, Written s (s.c.velvetTaps σ) (s.c.liveCount σ).toNat

/-- Every word of the input block of the next `PROCESS` has been written (R76, R181). -/
def BlockLoaded (s : State) : Prop := Written s .inp (s.x.block.toNat * s.c.channels.toNat)

/-! ### The fault table -/

/-- `INIT`'s row of R264. -/
def initFault (s : State) : Option FaultCode :=
  if 2 < s.x.kind.toNat then some .badKind
  else if s.params.accDepth = 0 then some .nullBuffer
  else if s.x.buflen.toNat = 0 then some .zeroBuflen
  else if s.params.accDepth < s.x.buflen.toNat then some .nullBuffer
  else if s.x.channels.toNat = 0 then some .zeroChannels
  else if s.params.irDepth < s.x.ntapsA.toNat then some .nullTaps
  else if s.x.kind.toNat = 2 ∧ s.params.irDepth < s.x.ntapsB.toNat then some .nullTaps
  else none

/-- `START_MORPH`'s row of R264, in READY. -/
def startFault (s : State) : Option FaultCode :=
  match s.c.kind with
  | .sparse => some .noMorphForKind
  | .dense =>
    if s.c.morphEn = false then some .noScratch
    else if s.x.steps.toNat = 0 then some .badSteps
    else if s.x.tlenA ≠ s.c.na then some .tapcountMismatch
    else none
  | .velvet =>
    if s.c.morphEn = false then some .noScratch
    else if s.params.irDepth < s.x.tlenA.toNat ∨ s.params.irDepth < s.x.tlenB.toNat then
      some .nullTaps
    else if s.c.pos.cap.toNat < s.x.tlenA.toNat ∨ s.c.neg.cap.toNat < s.x.tlenB.toNat then
      some .overCapacity
    else if s.c.pos.cap.toNat < (s.c.liveCount .pos).toNat ∨
        s.c.neg.cap.toNat < (s.c.liveCount .neg).toNat then
      some .overCapacity
    else none

/-- `UPDATE_MORPH`'s row of R264, in READY. -/
def updateFault (s : State) : Option FaultCode :=
  match s.c.kind with
  | .sparse => some .noMorphForKind
  | .dense | .velvet => if s.c.morphEn = false then some .noScratch else none

/-- The fault a command raises in a state that is not FAULT (R264), if any. -/
def faultTable (i : Instr) (s : State) : Option FaultCode :=
  match i with
  | .init => initFault s
  | .process => if s.c.st = .uninit then some .notInit else none
  | .startMorph => if s.c.st = .uninit then some .notInit else startFault s
  | .updateMorph => if s.c.st = .uninit then some .notInit else updateFault s
  | .isMorphing => if s.c.st = .uninit then some .notInit else none

/-! ### Frames -/

/-- What no command touches: operand registers, parameters, the host's moves and answers. -/
def Outside (s t : State) : Prop :=
  t.x = s.x ∧ t.params = s.params ∧ t.host = s.host ∧ t.answers = s.answers

/-- No word changes but those `W` names. -/
def OnlyWords (W : Space → Nat → Prop) (s t : State) : Prop :=
  ∀ sp i, ¬ W sp i → t.peek sp i = s.peek sp i

end Sys2Proof.Machine
end

