-- ==== Sys2Proof/Certificates/Slice0/Obligations.lean ====
section
/-! DEFINITION. The statements for the provers, from the numbered rules of spec/. The functions of the
namespace Claims are the spec's own terms (a command issued several times, the FIR sum of R153, the final
contents of R226), written without the machine's operations. -/

open Sys2Proof Sys2Proof.Machine

namespace Sys2Proof.Claims

/-- The command `i` issued `n` times. -/
def repeated (i : Instr) : Nat → State → Res State
  | 0, s => .next s
  | n + 1, s => andThen (repeated i n s) (exec i)

/-- `w` is what an operation leaves whose result is `r`: the result or, where the result is a NaN, any NaN
(R136). -/
def ResultIs (r : Option Word) (w : Word) : Prop :=
  match r with
  | some v => w = v
  | none => F32.isNaN w = true

/-- A tap: its delay and its contribution rule (R12, R142). -/
structure Tap where
  delay : Nat
  rule : Contribution

/-- The live taps in the order of R148, read from the live tap source (R143, R144, R145). -/
def liveTaps (s : State) : List Tap :=
  match s.c.kind with
  | .dense => (List.range s.c.na.toNat).map fun t =>
      { delay := t, rule := .scaled ((s.peek s.c.denseTaps t).getD 0) }
  | .sparse => (List.range s.c.na.toNat).map fun t =>
      { delay := ((s.peek .spos t).getD 0).toNat, rule := .scaled ((s.peek .sval t).getD 0) }
  | .velvet =>
    ((List.range (s.c.liveCount .pos).toNat).map fun t =>
      { delay := ((s.peek (s.c.velvetTaps .pos) t).getD 0).toNat, rule := .added }) ++
    ((List.range (s.c.liveCount .neg).toNat).map fun t =>
      { delay := ((s.peek (s.c.velvetTaps .neg) t).getD 0).toNat, rule := .subtracted })

/-- The contribution of a sample (R142); `none` is a NaN product. -/
def contributionOf (k : Contribution) (x : Word) : Option Word :=
  match k with
  | .scaled v => F32.mul x v
  | .added => some x
  | .subtracted => some (F32.neg x)

/-- One addition of the fold of R153; once a NaN has arisen the sum stays a NaN. -/
def firAdd (x : Word) (acc : Option Word) (tap : Tap) : Option Word :=
  acc.bind fun a => (contributionOf tap.rule x).bind fun v => F32.add a v

/-- The taps of delay `m - n` applied to the sample of frame `n` (R153, inner fold). -/
def firFrame (taps : List Tap) (x : Nat → Word) (m : Nat) (acc : Option Word) (n : Nat) :
    Option Word :=
  (taps.filter fun tap => n + tap.delay = m).foldl (firAdd (x n)) acc

/-- The first `f` frames' part of the output of frame `m` by the FIR law (R153): the fold over the frames
below `f`, ascending, from what was pending. Frames before `m - D` hold no tap of the right delay and add
nothing. -/
def firPart (start : Word) (taps : List Tap) (x : Nat → Word) (m f : Nat) : Option Word :=
  (List.range f).foldl (firFrame taps x m) (some start)

/-- What was pending for channel `ch` of frame `m`, frames counted from the write head (R151): the word of
its slot, or `+0.0` for a key that no word holds yet. -/
def pendingAt (s : State) (m ch : Nat) : Word :=
  if m * s.c.channels.toNat + ch < s.c.bufLen.toNat then
    (s.peek .acc ((s.c.wh.toNat + (m * s.c.channels.toNat + ch)) % s.c.bufLen.toNat)).getD 0
  else 0x00000000#32

/-- The samples of channel `ch` in `IN` (R76). -/
def samplesOf (s : State) (ch n : Nat) : Word := (s.peek .inp (n * s.c.channels.toNat + ch)).getD 0

/-- Slot `i` of a working array whose migration from `m` elements `old` to `n` elements `target` is
complete (R226), under either reading of the substitution slot. -/
def finalSlot (p : SubstSlot) (m n : Nat) (old target : Nat → Option Word) (i : Nat) : Option Word :=
  match p with
  | .progression => target i
  | .regression =>
    if m ≤ n then (if i < m then target (m - 1 - i) else target i)
    else if i < m - n then old i else target (m - 1 - i)

/-- What one step of R220 makes of a polarity's registers. -/
def stepRegs (r : VelvetRegs) : VelvetRegs :=
  if 0 < r.rc.toNat ∧ r.pc.toNat < r.tl.toNat then { r with rc := r.rc - 1, pc := r.pc + 1 }
  else if 0 < r.rc.toNat then { r with len := r.len - 1, rc := r.rc - 1 }
  else if r.pc.toNat < r.tl.toNat then { r with len := r.len + 1, pc := r.pc + 1 }
  else r

/-- The slot of the working array that one step of R220 writes, if it writes one (R221, R222). -/
def stepSlot (p : SubstSlot) (r : VelvetRegs) : Option Nat :=
  if 0 < r.rc.toNat ∧ r.pc.toNat < r.tl.toNat then
    (match p with
      | .regression => some (r.rc.toNat - 1)
      | .progression => some r.pc.toNat)
  else if 0 < r.rc.toNat then none
  else if r.pc.toNat < r.tl.toNat then some r.len.toNat
  else none

/-- The operand registers a command reads (R21, R23), by number. `INIT` reads `x[4]`, `x[6]`, `x[7]` only
for VELVET (R175, R176); `START_MORPH` reads by the latched kind (R101). -/
def readsOperand (i : Instr) (s : State) (j : Fin 12) : Prop :=
  match i with
  | .init => j.val ∈ [0, 1, 2, 3, 5] ∨ (s.x.kind.toNat = 2 ∧ j.val ∈ [4, 6, 7])
  | .process => j.val = 8
  | .startMorph =>
    (s.c.kind = .dense ∧ j.val ∈ [9, 10]) ∨ (s.c.kind = .velvet ∧ j.val ∈ [10, 11])
  | .updateMorph | .isMorphing => False

/-- The write head after the frames of the next `PROCESS` (R150). -/
def headAfter (s : State) : Nat :=
  (s.c.wh.toNat + s.x.block.toNat * s.c.channels.toNat) % s.c.bufLen.toNat

/-- The number of a fault code (R251). -/
def faultNumber : FaultCode → BitVec 8
  | .noFault => 0#8
  | .notInit => 1#8
  | .illegalCmd => 2#8
  | .badKind => 3#8
  | .nullBuffer => 4#8
  | .zeroBuflen => 5#8
  | .zeroChannels => 6#8
  | .nullTaps => 7#8
  | .noScratch => 8#8
  | .badSteps => 9#8
  | .tapcountMismatch => 10#8
  | .overCapacity => 11#8
  | .noMorphForKind => 12#8

/-- The commands that write status register `c[j]` (R30, column "written by"). -/
def statusWriters (j : Fin 18) : List Instr :=
  match j.val with
  | 0 => [.init, .process, .startMorph, .updateMorph, .isMorphing]
  | 1 => [.init, .process]
  | 2 => [.init, .isMorphing]
  | 3 | 4 | 5 | 6 | 7 | 8 | 9 => [.init, .startMorph, .updateMorph]
  | 10 | 11 => [.init, .startMorph]
  | _ => [.init]

/-- The fault that the issue of a word raises (R264, the row "any word" and then the command's own). -/
def wordFault (w : Word) (s : State) : Option FaultCode :=
  if s.c.st = .fault then none
  else match decode w with
    | .error _ => some .illegalCmd
    | .ok i => faultTable i s

/-- The host's next `n` moves, one after the other. -/
def steps : Nat → State → Res State
  | 0, s => .next s
  | n + 1, s => andThen (steps n s) step

/-- The IR view memories (R74). -/
def IsView (sp : Space) : Prop := sp ∈ [Space.dtap, .spos, .sval, .vpos, .vneg]

/-- The words that a dense morph writes (R190, R195). -/
def DenseScratch (n : Nat) (sp : Space) (i : Nat) : Prop := (sp = .dcur ∨ sp = .ddel) ∧ i < n

/-- The velvet registers that `START_MORPH` leaves (R210): the live count as length and regression count,
the target count, the progression cursor at 0. -/
def startedRegs (s : State) (σ : Polarity) : VelvetRegs :=
  { len := s.c.liveCount σ, rc := s.c.liveCount σ, pc := 0, tl := s.x.targetCount σ,
    cap := (s.c.pol σ).cap }

end Sys2Proof.Claims

open Sys2Proof.Claims

/-! ### Reset -/

/-- R54, R290: after reset every operand register and every status register reads 0, and every word of
every memory is unspecified: nothing has written it, and a host read of it answers a free value (log 6). -/
def Obligations.ResetRegistersZeroMemoryUnspecified : Prop :=
  (∀ i, State.reset.x.get i = 0) ∧ (∀ i, State.reset.c.get i = 0) ∧
    ∀ sp i, State.reset.peek sp i = none ∧ State.reset.hostView sp i = Config.powerOnWord sp i

/-- The invariant holds of a machine after power-on and reset, whatever its parameters. -/
def Obligations.PowerOnMeetsInvariant : Prop :=
  MachineInv State.reset ∧ ∀ p, MachineInv (State.powerOn p)

/-- R290: hardware reset makes every operand and status register 0 and changes no memory word; it is the
host's next move and works in every state. -/
def Obligations.HardwareResetClearsRegistersKeepsMemory : Prop :=
  ∀ s rest, s.host = .reset :: rest → ∃ t, step s = .next t ∧
    (∀ i, t.x.get i = 0) ∧ (∀ i, t.c.get i = 0) ∧ t.c = StatusRegs.reset ∧ t.mem = s.mem ∧
    t.params = s.params ∧ t.host = rest ∧ t.answers = s.answers

/-! ### Whole-machine properties -/

/-- R51, R227, R232, R274: every step, host move or command, keeps the invariant. -/
def Obligations.EveryStepKeepsInvariant : Prop :=
  ∀ s t, MachineInv s → step s = .next t → MachineInv t

/-- R262: in a state that meets the invariant no command accesses a word that does not exist. -/
def Obligations.CommandsNeverFaultOnMemory : Prop :=
  ∀ s w rest e, MachineInv s → s.host = .command w :: rest → step s ≠ .fault e

/-- R90: the block never reads an engine-written word before writing it; the only words a command can be
refused for are host-owned words that the host has not written. -/
def Obligations.CommandsReadOnlyWrittenEngineWords : Prop :=
  ∀ s w rest e, MachineInv s → s.host = .command w :: rest → step s = .refused e →
    ∃ sp i, e = .unwrittenWord sp i ∧ sp.hostOwned = true ∧ s.peek sp i = none

/-- R252: a fault is precise. A word whose issue enters FAULT leaves the state as it was before, plus `ST`
and `FCODE`; `STATUS.MORPHING` then reads 0 and no further word does anything. -/
def Obligations.FaultsArePrecise : Prop :=
  ∀ w s t, s.c.st ≠ .fault → issue w s = .next t → t.c.st = .fault →
    (∃ code, code ≠ .noFault ∧ t = { s with c := { s.c with st := .fault, fcode := code } }) ∧
    t.c.morphing = false ∧ ∀ w', issue w' t = .next t

/-- R264: the issue of a word raises exactly the fault of the table's first failing check; in FAULT it does
nothing; where no check fails the block is READY afterwards (or the command is refused). -/
def Obligations.FirstFailingCheckDecidesFault : Prop :=
  ∀ w s,
    (∀ code, wordFault w s = some code →
      issue w s = .next { s with c := { s.c with st := .fault, fcode := code } }) ∧
    (s.c.st = .fault → issue w s = .next s) ∧
    (s.c.st ≠ .fault → wordFault w s = none → ∀ t, issue w s = .next t → t.c.st = .ready)

/-- R253: FAULT is sticky. No command word has any effect; the host's other moves still work; none but
hardware reset changes a status register. -/
def Obligations.FaultIsStickyUntilReset : Prop :=
  ∀ s m rest, s.c.st = .fault → s.host = m :: rest →
    ((∀ w, m = .command w → step s = .next { s with host := rest }) ∧
      (m.wellFormed s.params = true → ∃ t, step s = .next t) ∧
      (m ≠ .reset → ∀ t, step s = .next t → t.c = s.c) ∧
      (m = .reset → ∀ t, step s = .next t → t.c = StatusRegs.reset)) ∧
    ∀ i, exec i s = .next s

/-- R104: every word but the five commands faults with code 2 in UNINIT and READY, and does nothing in
FAULT. -/
def Obligations.IllegalWordFaults : Prop :=
  ∀ s (w : Word) rest, s.host = .command w :: rest → w ∉ [1#32, 2#32, 3#32, 4#32, 5#32] →
    step s = if s.c.st = .fault then .next { s with host := rest }
      else .next { s with host := rest, c := { s.c with st := .fault, fcode := .illegalCmd } }

/-- R254: before `INIT` every other command faults with code 1, whatever its operands; an ILLEGAL word
still faults with code 2. -/
def Obligations.CommandBeforeInitFaults : Prop :=
  (∀ i s, i ≠ .init → s.c.st = .uninit →
    exec i s = .next { s with c := { s.c with st := .fault, fcode := .notInit } }) ∧
  ∀ w s, w ∉ [1#32, 2#32, 3#32, 4#32, 5#32] → s.c.st = .uninit →
    issue w s = .next { s with c := { s.c with st := .fault, fcode := .illegalCmd } }

/-- R255: `PROCESS` on an initialized engine never faults, whatever the block size, the samples, the taps
and the delays; the block stays READY. -/
def Obligations.ProcessNeverFaults : Prop :=
  ∀ s, MachineInv s → s.c.st = .ready →
    (∀ e, exec .process s ≠ .fault e) ∧
    ∀ t, exec .process s = .next t → t.c.st = .ready ∧ t.c.fcode = .noFault

/-- R32: the life cycle. Hardware reset enters UNINIT; `INIT` that passes its checks enters READY; a fault
enters FAULT; and no other transition exists: but by hardware reset READY never returns to UNINIT, FAULT is
never left, and READY is entered from UNINIT only by the `INIT` word. -/
def Obligations.LifeCycleTransitions : Prop :=
  (∀ s t rest, s.host = .reset :: rest → step s = .next t → t.c.st = .uninit) ∧
  (∀ s, s.c.st ≠ .fault → initFault s = none → ∃ t, exec .init s = .next t ∧ t.c.st = .ready) ∧
  (∀ w s code, wordFault w s = some code → ∃ t, issue w s = .next t ∧ t.c.st = .fault) ∧
  ∀ s t m rest, s.host = m :: rest → m ≠ .reset → step s = .next t →
    (s.c.st = .ready → t.c.st ≠ .uninit) ∧ (s.c.st = .fault → t.c.st = .fault) ∧
      (s.c.st = .uninit → t.c.st = .ready → m = .command 0x00000001#32)

/-- R30: a status register is written only by the commands of its row; none but a command or hardware reset
changes one. -/
def Obligations.StatusRegistersHaveTheirWriters : Prop :=
  (∀ i s t, exec i s = .next t → ∀ j, i ∉ statusWriters j → t.c.get j = s.c.get j) ∧
  ∀ s t m rest, s.host = m :: rest → m ≠ .reset → (∀ w, m ≠ .command w) → step s = .next t →
    t.c = s.c

/-- R21, R74, R179: no command writes an operand register or a word of a host-owned memory. -/
def Obligations.CommandsLeaveHostStateAlone : Prop :=
  ∀ i s t, exec i s = .next t → Outside s t ∧
    ∀ sp, sp.hostOwned = true → ∀ j, t.peek sp j = s.peek sp j

/-- R34, R35, R36, R37, R47, R48, R49, R312: between two `INIT`s the latched configuration is constant, and
nothing but `INIT` sets the tap source back to the IR view. -/
def Obligations.OnlyInitChangesConfiguration : Prop :=
  ∀ i s t, i ≠ .init → exec i s = .next t →
    t.c.kind = s.c.kind ∧ t.c.policy = s.c.policy ∧ t.c.layout = s.c.layout ∧
    t.c.morphEn = s.c.morphEn ∧ t.c.bufLen = s.c.bufLen ∧ t.c.channels = s.c.channels ∧
    t.c.na = s.c.na ∧ t.c.nb = s.c.nb ∧ (∀ σ, (t.c.pol σ).cap = (s.c.pol σ).cap) ∧
    (s.c.tapSrc = .cur → t.c.tapSrc = .cur)

/-- R202, R204, R233: the morph commands touch neither the accumulator nor the write head nor the tap
counts. The query writes `RESULT` and nothing else (R240), and `ACC`, `IN` and `OUT` are not among the
spaces that R70 lets any of the three write. -/
def Obligations.MorphCommandsLeaveAccumulator : Prop :=
  ∀ i s t, i ∈ [Instr.startMorph, .updateMorph, .isMorphing] → exec i s = .next t →
    t.c.wh = s.c.wh ∧ t.c.na = s.c.na ∧ t.c.nb = s.c.nb ∧
      ∀ sp ∈ [Space.acc, .inp, .out], ∀ j, t.peek sp j = s.peek sp j

/-- R21, R23: a command's answer does not depend on an operand register it does not read. -/
def Obligations.CommandsReadOnlyTheirOperands : Prop :=
  ∀ i s x', (∀ j, readsOperand i s j → x'.get j = s.x.get j) →
    (∀ t, exec i s = .next t → exec i { s with x := x' } = .next { t with x := x' }) ∧
    (∀ e, exec i s = .fault e → exec i { s with x := x' } = .fault e) ∧
    (∀ e, exec i s = .refused e → exec i { s with x := x' } = .refused e)

/-- R302: once the tap source is the working array, no command reads an IR view: two machines that differ
only in the views' words go on differing only there. -/
def Obligations.ViewsUnreadOnceMorphed : Prop :=
  ∀ i s u t, s.c.tapSrc = .cur → s.c.kind ≠ .sparse → u.x = s.x → u.c = s.c →
    u.params = s.params → u.draws = s.draws →
    (∀ sp, ¬ IsView sp → ∀ j, u.peek sp j = s.peek sp j) → exec i s = .next t →
    ∃ v, exec i u = .next v ∧ v.c = t.c ∧ v.draws = t.draws ∧
      ∀ sp, ¬ IsView sp → ∀ j, v.peek sp j = t.peek sp j

/-! ### Encoding and the step -/

/-- R101, R103: the five command words, written out from the table, decode to their commands, and the
words next to them are illegal. -/
def Obligations.SpecWordsDecode : Prop :=
  decode 0x00000001#32 = .ok .init ∧ decode 0x00000002#32 = .ok .process ∧
  decode 0x00000003#32 = .ok .startMorph ∧ decode 0x00000004#32 = .ok .updateMorph ∧
  decode 0x00000005#32 = .ok .isMorphing ∧ decode 0x00000000#32 = .error .unknownOpcode ∧
  decode 0x00000006#32 = .error .unknownOpcode ∧ decode 0x00000102#32 = .error .reservedBits

/-- R103: decoding, for all 2^32 words: the five words of the table are the five commands and every other
word, the zero word among them, is illegal. -/
def Obligations.DecodeFollowsTheTable : Prop :=
  ∀ w, (decode w = .ok .init ↔ w = 0x00000001#32) ∧ (decode w = .ok .process ↔ w = 0x00000002#32) ∧
    (decode w = .ok .startMorph ↔ w = 0x00000003#32) ∧
    (decode w = .ok .updateMorph ↔ w = 0x00000004#32) ∧
    (decode w = .ok .isMorphing ↔ w = 0x00000005#32) ∧
    ((∃ e, decode w = .error e) ↔ w ∉ [1#32, 2#32, 3#32, 4#32, 5#32])

/-- R103: of all 2^32 words exactly the encodings decode, each to the command it encodes. -/
def Obligations.DecodeExactlyInvertsEncode : Prop :=
  (∀ w i, decode w = .ok i ↔ w = encode i) ∧
    ∀ w, (∃ i, decode w = .ok i) ↔ commandWordOk w = true

/-- R107, R273: a step that the host's next move makes the issue of a command word runs the command the
word decodes to; `withFetchWord` makes it so. -/
def Obligations.StepRunsDecodedCommand : Prop :=
  (∀ s w i rest, s.host = .command w :: rest → decode w = .ok i → i.wellFormed = true →
    step s = exec i { s with host := rest }) ∧
  ∀ s i, step (s.withFetchWord 32 (encode i).toNat) = exec i s

/-! ### Host moves -/

/-- R22: the host can write any word to any operand register, which then reads as that word (in `x` and by
the host's read of it), and no other operand register changes: none is hardwired and none aliases
another. -/
def Obligations.OperandRegistersReadWrite : Prop :=
  ∀ s i v rest, s.host = .writeX i v :: .readX i :: rest → ∃ t, step s = .next t ∧ t.x.get i = v ∧
    (∀ j, j ≠ i → t.x.get j = s.x.get j) ∧ t = { s with x := t.x, host := .readX i :: rest } ∧
    step t = .next { t with host := rest, answers := v :: t.answers }

/-- R81, R91: a host write of a word that a host-owned space has changes that word and no other word of
any space; a host write to an engine-written space is not a move. -/
def Obligations.HostWriteChangesOneWord : Prop :=
  ∀ s sp i v rest, s.host = .writeM sp i v :: rest →
    (sp.hostOwned = true → s.params.hasWord sp i = true →
      ∃ t, step s = .next t ∧ t.peek sp i = some v ∧
        (∀ sp' j, sp' ≠ sp ∨ j ≠ i → t.peek sp' j = s.peek sp' j) ∧
        t = { s with mem := t.mem, host := rest }) ∧
    (sp.hostOwned = false → step s = .refused (.notAMove sp))

/-- R81, R83: a host read answers the word and changes nothing of the block. -/
def Obligations.HostReadsChangeNothing : Prop :=
  (∀ s i rest, s.host = .readX i :: rest →
    step s = .next { s with host := rest, answers := s.x.get i :: s.answers }) ∧
  (∀ s i rest, s.host = .readC i :: rest →
    step s = .next { s with host := rest, answers := s.c.get i :: s.answers }) ∧
  (∀ s f rest, s.host = .readField f :: rest →
    step s = .next { s with host := rest, answers := s.c.getField f :: s.answers }) ∧
  (∀ s sp i rest, s.host = .readM sp i :: rest → s.params.hasWord sp i = true →
    ∃ v, step s = .next { s with host := rest, answers := v :: s.answers } ∧
      (∀ w, s.peek sp i = some w → v = w) ∧
      (s.peek sp i = none → v = Config.powerOnWord sp i))

/-- R31: the fields of `STATUS` stand at their bits with the values of the table, the reserved bits are 0,
after reset the whole register is 0, and no host move but a command or hardware reset changes it. -/
def Obligations.StatusFieldsAtTheirBits : Prop :=
  StatusRegs.reset.get 0 = 0 ∧
  (∀ s t m rest, s.host = m :: rest → m ≠ .reset → (∀ w, m ≠ .command w) → step s = .next t →
    t.c.get 0 = s.c.get 0) ∧
  ∀ c : StatusRegs,
    (c.get 0).extractLsb' 0 2 =
      (match c.st with | .uninit => 0#2 | .ready => 1#2 | .fault => 2#2) ∧
    (c.get 0).extractLsb' 2 1 = (if c.morphing = true then 1#1 else 0#1) ∧
    (c.get 0).extractLsb' 3 1 = (match c.policy with | .modulo => 0#1 | .mask => 1#1) ∧
    (c.get 0).extractLsb' 4 2 =
      (match c.layout with | .ch1 => 0#2 | .ch2 => 1#2 | .ch4 => 2#2 | .chN => 3#2) ∧
    (c.get 0).extractLsb' 6 2 =
      (match c.kind with | .dense => 0#2 | .sparse => 1#2 | .velvet => 2#2) ∧
    (c.get 0).extractLsb' 8 1 = (match c.tapSrc with | .ir => 0#1 | .cur => 1#1) ∧
    (c.get 0).extractLsb' 9 1 = (if c.morphEn = true then 1#1 else 0#1) ∧
    (c.get 0).extractLsb' 10 6 = 0#6 ∧
    (c.get 0).extractLsb' 16 8 = faultNumber c.fcode ∧
    (c.get 0).extractLsb' 24 8 = 0#8

/-- R24, R110: the pseudo-instructions `Init` and `IsMorphing()` are their moves. `Init(...)` leaves the
machine as the command `INIT` does with the eight operand registers set; `IsMorphing()` answers the word
that the query leaves in `RESULT`. -/
def Obligations.PseudoInstructionsRunTheirMoves : Prop :=
  (∀ s kind bufLen channels nA nB morph capP capN rest,
    s.host = scriptInit kind bufLen channels nA nB morph capP capN ++ rest →
    steps 9 s = exec .init { s with
      host := rest
      x := { s.x with kind := kind, buflen := bufLen, channels := channels, ntapsA := nA, ntapsB := nB,
                      morphEn := morph, capP := capP, capN := capN } }) ∧
  ∀ s t rest, s.host = scriptIsMorphing ++ rest → exec .isMorphing { s with host := rest } = .next t →
    steps 2 s = .next { t with answers := t.c.result :: t.answers }

/-! ### INIT -/

/-- R170 to R175, R179: an `INIT` whose checks pass completes; it latches the configuration, clears
exactly the accumulator's first `L` words, returns every morph register to "no morph", and changes nothing
else. -/
def Obligations.InitBindsAndClears : Prop :=
  ∀ s, s.c.st ≠ .fault → initFault s = none → ∃ t, exec .init s = .next t ∧
    (∀ i, i < s.x.buflen.toNat → t.peek .acc i = some 0x00000000#32) ∧
    OnlyWords (fun sp i => sp = .acc ∧ i < s.x.buflen.toNat) s t ∧
    Outside s t ∧ t.draws = s.draws ∧
    t.c.st = .ready ∧ t.c.fcode = s.c.fcode ∧ t.c.kind.bits.toNat = s.x.kind.toNat ∧
    t.c.bufLen = s.x.buflen ∧ t.c.channels = s.x.channels ∧ t.c.na = s.x.ntapsA ∧
    t.c.nb = (if t.c.kind = .velvet then s.x.ntapsB else 0) ∧
    t.c.layout = (if s.x.channels.toNat = 1 then .ch1 else if s.x.channels.toNat = 2 then .ch2
      else if s.x.channels.toNat = 4 then .ch4 else .chN) ∧
    t.c.tapSrc = .ir ∧ t.c.wh = 0 ∧ t.c.mrem = 0 ∧ t.c.result = 0 ∧ t.c.morphing = false ∧
    ∀ σ, (t.c.pol σ).len = 0 ∧ (t.c.pol σ).rc = 0 ∧ (t.c.pol σ).pc = 0 ∧ (t.c.pol σ).tl = 0

/-- R176: the morph binding. Scratch is bound when it is asked for, the kind can morph and it fits; the
capacities are latched only for a VELVET engine with scratch bound. -/
def Obligations.InitMorphBinding : Prop :=
  ∀ s, s.c.st ≠ .fault → initFault s = none → ∃ t, exec .init s = .next t ∧ t.c.st = .ready ∧
    (t.c.morphEn = true ↔ s.x.morphEn ≠ 0 ∧
      ((t.c.kind = .dense ∧ s.x.ntapsA.toNat ≤ s.params.scrDepth) ∨
        (t.c.kind = .velvet ∧ s.x.capP.toNat ≤ s.params.scrDepth ∧
          s.x.capN.toNat ≤ s.params.scrDepth))) ∧
    t.c.pos.cap = (if t.c.kind = .velvet ∧ t.c.morphEn = true then s.x.capP else 0) ∧
    t.c.neg.cap = (if t.c.kind = .velvet ∧ t.c.morphEn = true then s.x.capN else 0)

/-! ### PROCESS -/

/-- R140, R147, R150, R160, R255: a `PROCESS` on an initialized engine whose taps and block are loaded
completes; it advances the write head by `S * C` modulo the buffer length, writes exactly the first `S * C`
words of `OUT`, and otherwise writes only accumulator words in use. -/
def Obligations.ProcessCompletesWithFrame : Prop :=
  ∀ s, MachineInv s → s.c.st = .ready → TapsLoaded s → BlockLoaded s → ∃ t, exec .process s = .next t ∧
    t.c = { s.c with wh := BitVec.ofNat 32 (headAfter s) } ∧
    Written t .out (s.x.block.toNat * s.c.channels.toNat) ∧
    OnlyWords (fun sp i => (sp = .acc ∧ i < s.c.bufLen.toNat) ∨
      (sp = .out ∧ i < s.x.block.toNat * s.c.channels.toNat)) s t ∧
    Outside s t

/-- R149 (b): a `PROCESS` with block size 0 performs no work. -/
def Obligations.ZeroBlockIsNoOp : Prop :=
  ∀ s, s.c.st = .ready → s.x.block = 0 → exec .process s = .next s

/-- R149 (a), R158: with no live tap and a cleared accumulator a `PROCESS` completes without reading
`IN`, every word it emits is `+0.0`, and the accumulator stays cleared. -/
def Obligations.EmptyIRIsSilent : Prop :=
  ∀ s, MachineInv s → s.c.st = .ready →
    (s.c.kind = .velvet → s.c.liveCount .pos = 0 ∧ s.c.liveCount .neg = 0) →
    (s.c.kind ≠ .velvet → s.c.na = 0) →
    (∀ i, i < s.c.bufLen.toNat → s.peek .acc i = some 0x00000000#32) →
    ∃ t, exec .process s = .next t ∧
      (∀ i, i < s.x.block.toNat * s.c.channels.toNat → t.peek .out i = some 0x00000000#32) ∧
      (∀ i, i < s.c.bufLen.toNat → t.peek .acc i = some 0x00000000#32) ∧
      t.draws = s.draws

/-- The FIR law of R153 for the frames of one `PROCESS`, from whatever is pending: under the no-alias
condition on the live taps each output word is the fold of R153 in binary32 arithmetic over the frames of
this block, from the word that was pending for it (`+0.0` on a cleared accumulator), for DENSE, SPARSE and
VELVET alike; where the fold meets a NaN the word is some NaN. -/
def Obligations.ProcessIsFirFilter : Prop :=
  ∀ s, MachineInv s → s.c.st = .ready → TapsLoaded s → BlockLoaded s →
    (∀ tap ∈ liveTaps s, (tap.delay + 1) * s.c.channels.toNat ≤ s.c.bufLen.toNat) →
    s.c.channels.toNat ≤ s.c.bufLen.toNat →
    ∃ t, exec .process s = .next t ∧ ∀ m ch, m < s.x.block.toNat → ch < s.c.channels.toNat →
      ∃ w, t.peek .out (m * s.c.channels.toNat + ch) = some w ∧
        ResultIs (firPart (pendingAt s m ch) (liveTaps s) (samplesOf s ch) m (m + 1)) w

/-- R151, R155 with R153: what one `PROCESS` leaves pending. For every key of the window after its frames
the slot holds the contributions of this block's frames to it, added in the order of R153 to what was
pending before. -/
def Obligations.ProcessLeavesPendingContributions : Prop :=
  ∀ s t, MachineInv s → s.c.st = .ready →
    (∀ tap ∈ liveTaps s, (tap.delay + 1) * s.c.channels.toNat ≤ s.c.bufLen.toNat) →
    s.c.channels.toNat ≤ s.c.bufLen.toNat → exec .process s = .next t →
    ∀ m ch, ch < s.c.channels.toNat → s.x.block.toNat ≤ m →
      m * s.c.channels.toNat + ch < s.x.block.toNat * s.c.channels.toNat + s.c.bufLen.toNat →
      ∃ w, t.peek .acc ((s.c.wh.toNat + (m * s.c.channels.toNat + ch)) % s.c.bufLen.toNat) = some w ∧
        ResultIs (firPart (pendingAt s m ch) (liveTaps s) (samplesOf s ch) m s.x.block.toNat) w

/-- R156: block-size invariance, exact. A block of `a + b` frames, or its first `a` frames and then the
rest with the rest moved to the front of `IN`: the same registers, free draws and memory words, and the
second command's output after the first's. -/
def Obligations.BlockSizeInvariance : Prop :=
  ∀ s t (a b : Word), MachineInv s → s.c.st = .ready → s.x.block.toNat = a.toNat + b.toNat →
    exec .process s = .next t →
    ∃ t1, exec .process { s with x := { s.x with block := a } } = .next t1 ∧
      (∀ k, k < a.toNat * s.c.channels.toNat → t1.peek .out k = t.peek .out k) ∧
      ∀ u, u.c = t1.c → u.params = t1.params → u.draws = t1.draws → u.x.block = b →
        (∀ sp, sp ≠ .inp → ∀ j, u.peek sp j = t1.peek sp j) →
        (∀ k, k < b.toNat * s.c.channels.toNat →
          u.peek .inp k = s.peek .inp (a.toNat * s.c.channels.toNat + k)) →
        ∃ t2, exec .process u = .next t2 ∧ t2.c = t.c ∧ t2.draws = t.draws ∧
          (∀ sp, sp ≠ .inp → sp ≠ .out → ∀ j, t2.peek sp j = t.peek sp j) ∧
          ∀ k, k < b.toNat * s.c.channels.toNat →
            t2.peek .out k = t.peek .out (a.toNat * s.c.channels.toNat + k)

/-! ### Wrap arithmetic and fan-out -/

/-- R121, R124: under the policy `INIT` selects, `wrap` is the remainder modulo the buffer length, for
every address, since masking with `2^k - 1` is the remainder modulo `2^k`. -/
def Obligations.WrapIsRemainder : Prop :=
  (∀ (c : StatusRegs) (a : Nat), c.policy = policyOf c.bufLen → 0 < c.bufLen.toNat →
    c.wrap a = a % c.bufLen.toNat) ∧
  ∀ a k : Nat, a &&& (2 ^ k - 1) = a % 2 ^ k

/-- R127: the four laws of `wrap`. -/
def Obligations.WrapLaws : Prop :=
  ∀ (c : StatusRegs) (a b : Nat), c.policy = policyOf c.bufLen → 0 < c.bufLen.toNat →
    c.wrap a < c.bufLen.toNat ∧ (a < c.bufLen.toNat → c.wrap a = a) ∧
    c.wrap (c.wrap a + b) = c.wrap (a + b) ∧ c.wrap (a + c.bufLen.toNat) = c.wrap a

/-- R122, with R123 as log 13 reads it (from general knowledge): the predicate of the policy selection is "a
power of two", 1 among them, and an `INIT` that passes its checks selects MASK exactly for such a buffer
length. -/
def Obligations.MaskPolicyForPowersOfTwo : Prop :=
  (∀ n, isPow2 n = true ↔ ∃ k, n = 2 ^ k) ∧
  ∀ s, s.c.st ≠ .fault → initFault s = none → ∃ t, exec .init s = .next t ∧
    (t.c.policy = .mask ↔ ∃ k, s.x.buflen.toNat = 2 ^ k)

/-- R130, R132: all four layouts are the loop over the channels in ascending order. -/
def Obligations.FanoutLayoutsAgree : Prop :=
  ∀ (op : Nat → State → Res State) (s : State), s.c.layout = layoutOf s.c.channels →
    fanout op s = forN s.c.channels.toNat op s

/-! ### The dense morph -/

/-- R190 to R194: a dense `START_MORPH` whose checks pass and whose words are loaded completes. The working
array holds the IR view (first start) or what it held (later starts, retargeting among them), each delta is
the rounded difference divided by the converted step count, the counter takes the step count, the tap
source is the working array; nothing else changes. -/
def Obligations.DenseStartSetsDeltas : Prop :=
  ∀ s, MachineInv s → s.c.st = .ready → s.c.kind = .dense → startFault s = none →
    Written s .dtgt s.c.na.toNat → (s.c.tapSrc = .ir → Written s .dtap s.c.na.toNat) →
    ∃ t, exec .startMorph s = .next t ∧
      t.c = { s.c with mrem := s.x.steps, tapSrc := .cur } ∧ Outside s t ∧
      OnlyWords (DenseScratch s.c.na.toNat) s t ∧
      ∀ i, i < s.c.na.toNat →
        t.peek .dcur i = s.peek (if s.c.tapSrc = .ir then .dtap else .dcur) i ∧
        ∀ target current, s.peek .dtgt i = some target → t.peek .dcur i = some current →
          ∃ delta, t.peek .ddel i = some delta ∧
            ResultIs ((F32.sub target current).bind fun d => F32.div d (F32.ofNat s.x.steps.toNat))
              delta

/-- R195, R196: a dense `UPDATE_MORPH` with scratch completes: a no-op with no morph active; before the
last step each tap takes the rounded sum with its delta; the last step leaves the target words as they
stand. Nothing but the working array and the counter changes. -/
def Obligations.DenseUpdateStepsAndSnaps : Prop :=
  ∀ s, MachineInv s → s.c.st = .ready → s.c.kind = .dense → s.c.morphEn = true →
    (s.c.mrem.toNat = 1 → Written s .dtgt s.c.na.toNat) →
    (s.c.mrem = 0 → exec .updateMorph s = .next s) ∧
    (s.c.mrem ≠ 0 → ∃ t, exec .updateMorph s = .next t ∧
      t.c = { s.c with mrem := s.c.mrem - 1 } ∧ Outside s t ∧
      OnlyWords (fun sp i => sp = .dcur ∧ i < s.c.na.toNat) s t ∧
      ∀ i, i < s.c.na.toNat →
        (s.c.mrem.toNat = 1 → t.peek .dcur i = s.peek .dtgt i) ∧
        (s.c.mrem.toNat ≠ 1 → ∀ a d, s.peek .dcur i = some a → s.peek .ddel i = some d →
          ∃ w, t.peek .dcur i = some w ∧ ResultIs (F32.add a d) w))

/-- R196, R198, R201: a dense morph takes exactly as many updates as it has steps: the counter goes down by
one at each, the morph is active until the last, which leaves the target words exactly, and further updates
change nothing. -/
def Obligations.DenseMorphTakesItsSteps : Prop :=
  ∀ s, MachineInv s → s.c.st = .ready → s.c.kind = .dense → s.c.morphEn = true →
    Written s .dtgt s.c.na.toNat → ∀ k, ∃ t, repeated .updateMorph k s = .next t ∧
      t.c = { s.c with mrem := BitVec.ofNat 32 (s.c.mrem.toNat - k) } ∧
      (t.c.morphing = true ↔ k < s.c.mrem.toNat) ∧
      (0 < s.c.mrem.toNat → s.c.mrem.toNat ≤ k →
        ∀ i, i < s.c.na.toNat → t.peek .dcur i = s.peek .dtgt i)

/-! ### The velvet morph -/

/-- R210 to R215: a velvet `START_MORPH` whose checks pass and whose words are loaded completes. For each
polarity the working array holds the live taps, the initial snapshot is a copy of it, the target snapshot
is a copy of the target, and the registers are those of R210; nothing else changes. -/
def Obligations.VelvetStartSnapshots : Prop :=
  ∀ s, MachineInv s → s.c.st = .ready → s.c.kind = .velvet → startFault s = none →
    (∀ σ, Written s (targetSpace σ) (s.x.targetCount σ).toNat) →
    (s.c.tapSrc = .ir → ∀ σ, Written s (viewSpace σ) (s.c.viewCount σ).toNat) →
    ∃ t, exec .startMorph s = .next t ∧
      t.c = { s.c with tapSrc := .cur, pos := startedRegs s .pos, neg := startedRegs s .neg } ∧
      Outside s t ∧ t.draws = s.draws ∧
      (∀ σ i, i < (s.c.liveCount σ).toNat →
        t.peek (workSpace σ) i = s.peek (s.c.velvetTaps σ) i ∧
        t.peek (initialSpace σ) i = s.peek (s.c.velvetTaps σ) i) ∧
      (∀ σ i, i < (s.x.targetCount σ).toNat →
        t.peek (snapshotSpace σ) i = s.peek (targetSpace σ) i) ∧
      OnlyWords (fun sp i => ∃ σ,
        (sp = workSpace σ ∧ s.c.tapSrc = .ir ∧ i < (s.c.viewCount σ).toNat) ∨
        (sp = initialSpace σ ∧ i < (s.c.liveCount σ).toNat) ∨
        (sp = snapshotSpace σ ∧ i < (s.x.targetCount σ).toNat)) s t

/-- R219, R220, R222: a velvet `UPDATE_MORPH` with scratch completes; each polarity takes one step of R220
(substitute, remove, append or nothing), writing at most the one slot the step names with the target
element at the progression cursor. Nothing else changes. -/
def Obligations.VelvetUpdateStepsEachPolarity : Prop :=
  ∀ s, MachineInv s → s.c.st = .ready → s.c.kind = .velvet → s.c.morphEn = true →
    ∃ t, exec .updateMorph s = .next t ∧
      t.c = { s.c with pos := stepRegs s.c.pos, neg := stepRegs s.c.neg } ∧
      Outside s t ∧ t.draws = s.draws ∧
      (∀ σ i, stepSlot s.params.substSlot (s.c.pol σ) = some i →
        t.peek (workSpace σ) i = s.peek (snapshotSpace σ) (s.c.pol σ).pc.toNat) ∧
      OnlyWords (fun sp i => ∃ σ, sp = workSpace σ ∧
        stepSlot s.params.substSlot (s.c.pol σ) = some i) s t

/-- R228: the polarities are independent: the order of their steps cannot be observed. -/
def Obligations.PolarityOrderUnobservable : Prop :=
  ∀ s t, andThen (velvetStep .pos s) (velvetStep .neg) = .next t ↔
    andThen (velvetStep .neg s) (velvetStep .pos) = .next t

/-- R224: after `k` updates each cursor has moved `k` elements or to its end, and a polarity is complete
exactly when `k` is at least the larger of the elements its two cursors had left; the query's predicate
follows. -/
def Obligations.VelvetMorphStepCount : Prop :=
  ∀ s, MachineInv s → s.c.st = .ready → s.c.kind = .velvet → s.c.morphEn = true → ∀ k,
    ∃ t, repeated .updateMorph k s = .next t ∧
      (∀ σ, (t.c.pol σ).rc.toNat = (s.c.pol σ).rc.toNat - k ∧
        (t.c.pol σ).pc.toNat = min ((s.c.pol σ).pc.toNat + k) (s.c.pol σ).tl.toNat ∧
        ((t.c.pol σ).busy = true ↔
          k < max (s.c.pol σ).rc.toNat ((s.c.pol σ).tl.toNat - (s.c.pol σ).pc.toNat))) ∧
      (t.c.morphing = true ↔ ∃ σ,
        k < max (s.c.pol σ).rc.toNat ((s.c.pol σ).tl.toNat - (s.c.pol σ).pc.toNat))

/-- R225: the schedule from a fresh start with `m` current and `n` target elements: `min m n` substitutions,
then `m - n` removals or `n - m` appends, complete after exactly `max m n` updates; the whole morph takes
the larger of the two polarities' counts. -/
def Obligations.VelvetScheduleFromFreshStart : Prop :=
  ∀ s, MachineInv s → s.c.st = .ready → s.c.kind = .velvet → s.c.morphEn = true →
    (∀ σ, (s.c.pol σ).pc = 0) → ∀ k, ∃ u t, repeated .updateMorph k s = .next u ∧
      exec .updateMorph u = .next t ∧
      (∀ σ, let m := (s.c.pol σ).len.toNat
        let n := (s.c.pol σ).tl.toNat
        let r := u.c.pol σ
        (k < min m n → t.c.pol σ = { r with rc := r.rc - 1, pc := r.pc + 1 }) ∧
        (min m n ≤ k → k < m → t.c.pol σ = { r with len := r.len - 1, rc := r.rc - 1 }) ∧
        (min m n ≤ k → k < n → t.c.pol σ = { r with len := r.len + 1, pc := r.pc + 1 }) ∧
        (max m n ≤ k → t.c.pol σ = r) ∧ (r.busy = true ↔ k < max m n)) ∧
      (u.c.morphing = true ↔ ∃ σ, k < max (s.c.pol σ).len.toNat (s.c.pol σ).tl.toNat)

/-- R226: the final contents. After the updates that complete a freshly started polarity of `m` elements
toward `n` target elements, its length is `n` and its slots are those of R226, under either reading of the
substitution slot. -/
def Obligations.VelvetFinalContents : Prop :=
  ∀ s σ, MachineInv s → s.c.st = .ready → s.c.kind = .velvet → s.c.morphEn = true →
    (s.c.pol σ).pc = 0 → ∀ k,
    max (s.c.pol σ).len.toNat (s.c.pol σ).tl.toNat ≤ k →
    ∃ t, repeated .updateMorph k s = .next t ∧ (t.c.pol σ).len = (s.c.pol σ).tl ∧
      ∀ i, i < (s.c.pol σ).tl.toNat → t.peek (workSpace σ) i =
        finalSlot s.params.substSlot (s.c.pol σ).len.toNat (s.c.pol σ).tl.toNat
          (s.peek (workSpace σ)) (s.peek (snapshotSpace σ)) i

/-! ### The query -/

/-- R240, R241: `IS_MORPHING` in READY completes: `RESULT` becomes 1 exactly while a dense morph has steps
left or a velvet cursor has elements left, and 0 otherwise, SPARSE always; nothing else changes. -/
def Obligations.QueryAnswersMorphing : Prop :=
  ∀ s, s.c.st = .ready → ∃ r : Word, (r = 0 ∨ r = 1) ∧
    exec .isMorphing s = .next { s with c := { s.c with result := r } } ∧
    (r = 1 ↔ (s.c.kind = .dense ∧ 0 < s.c.mrem.toNat) ∨
      (s.c.kind = .velvet ∧ ∃ σ, 0 < (s.c.pol σ).rc.toNat ∨
        (s.c.pol σ).pc.toNat < (s.c.pol σ).tl.toNat))

/-! ### binary32 -/

/-- R135: one rounding, to nearest, ties to even. A result below infinity is at least as near to the exact
`num / den` as every finite binary32 magnitude, and even where another is equally near; the result is
infinity exactly from half a quantum above the largest finite magnitude on. -/
def Obligations.RoundingIsToNearestEven : Prop :=
  ∀ num den, 0 < den →
    (F32.roundMag num den < F32.infMag → ∀ m, m < F32.infMag →
      ((F32.unitsOfMag (F32.roundMag num den) * den : Int) - num).natAbs ≤
        ((F32.unitsOfMag m * den : Int) - num).natAbs ∧
      (m ≠ F32.roundMag num den →
        ((F32.unitsOfMag m * den : Int) - num).natAbs =
          ((F32.unitsOfMag (F32.roundMag num den) * den : Int) - num).natAbs →
        F32.roundMag num den % 2 = 0)) ∧
    (F32.roundMag num den = F32.infMag ↔ (2 ^ 25 - 1) * 2 ^ 252 * den ≤ num)

/-- R135: `cvt_u32_f32` is exact up to 2^24. -/
def Obligations.ConversionExactUpTo24Bits : Prop :=
  ∀ n, n ≤ 2 ^ 24 → F32.isNaN (F32.ofNat n) = false ∧ F32.isInf (F32.ofNat n) = false ∧
    F32.value (F32.ofNat n) = n * 2 ^ 149

/-- R137: (a) a sum with the sign flipped is the difference; (b) `+0.0` plus either zero is `+0.0`, and
`+0.0` plus any `v` but `-0.0` is `v`; (c) a product with 1.0 is the number itself, and `+0.0` times a
finite number is the zero of its sign; (d) `fadd` and `fmul` are commutative and `fadd` is not
associative. -/
def Obligations.Binary32Facts : Prop :=
  (∀ a b, F32.isNaN a = false → F32.isNaN b = false → F32.add a (F32.neg b) = F32.sub a b) ∧
  F32.add 0x00000000#32 0x00000000#32 = some 0x00000000#32 ∧
  F32.add 0x00000000#32 0x80000000#32 = some 0x00000000#32 ∧
  (∀ v, F32.isNaN v = false → v ≠ 0x80000000#32 → F32.add 0x00000000#32 v = some v) ∧
  (∀ v, F32.isNaN v = false → F32.mul v 0x3F800000#32 = some v) ∧
  (∀ v, F32.isNaN v = false → F32.isInf v = false →
    F32.mul 0x00000000#32 v = some (if F32.sign v then 0x80000000#32 else 0x00000000#32)) ∧
  (∀ a b, F32.add a b = F32.add b a) ∧ (∀ a b, F32.mul a b = F32.mul b a) ∧
  ∃ a b c, (F32.add a b).bind (fun ab => F32.add ab c) ≠ (F32.add b c).bind (fun bc => F32.add a bc)

/-- R136, U3: a NaN result is some NaN word, and no NaN word is left out of the draw. -/
def Obligations.NaNDrawIsAnyNaN : Prop :=
  (∀ bits, F32.isNaN (nanOf bits) = true) ∧ ∀ w, F32.isNaN w = true → ∃ bits, nanOf bits = w
end

