-- ==== Sys2Proof/Laws/State.lean ====
section
/-! SUPPORT. One lemma per field per update, each true by `rfl`, so that no later proof unfolds a record
update. -/

namespace Sys2Proof.Machine

section Poke
variable (s : State) (sp : Space) (i : Nat) (v : Word)
@[simp] theorem poke_x : (s.poke sp i v).x = s.x := rfl
@[simp] theorem poke_c : (s.poke sp i v).c = s.c := rfl
@[simp] theorem poke_params : (s.poke sp i v).params = s.params := rfl
@[simp] theorem poke_draws : (s.poke sp i v).draws = s.draws := rfl
@[simp] theorem poke_host : (s.poke sp i v).host = s.host := rfl
@[simp] theorem poke_answers : (s.poke sp i v).answers = s.answers := rfl
theorem poke_mem : (s.poke sp i v).mem = s.mem.set sp ((s.mem.get sp).write i v) := rfl
end Poke

section RaiseFault
variable (code : FaultCode) (s : State)
@[simp] theorem raiseFault_x : (raiseFault code s).x = s.x := rfl
@[simp] theorem raiseFault_mem : (raiseFault code s).mem = s.mem := rfl
@[simp] theorem raiseFault_params : (raiseFault code s).params = s.params := rfl
@[simp] theorem raiseFault_draws : (raiseFault code s).draws = s.draws := rfl
@[simp] theorem raiseFault_host : (raiseFault code s).host = s.host := rfl
@[simp] theorem raiseFault_answers : (raiseFault code s).answers = s.answers := rfl
@[simp] theorem raiseFault_st : (raiseFault code s).c.st = .fault := rfl
@[simp] theorem raiseFault_fcode : (raiseFault code s).c.fcode = code := rfl
@[simp] theorem raiseFault_kind : (raiseFault code s).c.kind = s.c.kind := rfl
@[simp] theorem raiseFault_policy : (raiseFault code s).c.policy = s.c.policy := rfl
@[simp] theorem raiseFault_layout : (raiseFault code s).c.layout = s.c.layout := rfl
@[simp] theorem raiseFault_tapSrc : (raiseFault code s).c.tapSrc = s.c.tapSrc := rfl
@[simp] theorem raiseFault_morphEn : (raiseFault code s).c.morphEn = s.c.morphEn := rfl
@[simp] theorem raiseFault_wh : (raiseFault code s).c.wh = s.c.wh := rfl
@[simp] theorem raiseFault_result : (raiseFault code s).c.result = s.c.result := rfl
@[simp] theorem raiseFault_mrem : (raiseFault code s).c.mrem = s.c.mrem := rfl
@[simp] theorem raiseFault_bufLen : (raiseFault code s).c.bufLen = s.c.bufLen := rfl
@[simp] theorem raiseFault_channels : (raiseFault code s).c.channels = s.c.channels := rfl
@[simp] theorem raiseFault_na : (raiseFault code s).c.na = s.c.na := rfl
@[simp] theorem raiseFault_nb : (raiseFault code s).c.nb = s.c.nb := rfl
@[simp] theorem raiseFault_pos : (raiseFault code s).c.pos = s.c.pos := rfl
@[simp] theorem raiseFault_neg : (raiseFault code s).c.neg = s.c.neg := rfl
end RaiseFault

section HardReset
variable (s : State)
@[simp] theorem hardReset_x : (hardReset s).x = OperandRegs.reset := rfl
@[simp] theorem hardReset_c : (hardReset s).c = StatusRegs.reset := rfl
@[simp] theorem hardReset_mem : (hardReset s).mem = s.mem := rfl
@[simp] theorem hardReset_params : (hardReset s).params = s.params := rfl
@[simp] theorem hardReset_draws : (hardReset s).draws = s.draws := rfl
@[simp] theorem hardReset_host : (hardReset s).host = s.host := rfl
@[simp] theorem hardReset_answers : (hardReset s).answers = s.answers := rfl
end HardReset

section Answer
variable (v : Word) (s : State)
@[simp] theorem answer_x : (answer v s).x = s.x := rfl
@[simp] theorem answer_c : (answer v s).c = s.c := rfl
@[simp] theorem answer_mem : (answer v s).mem = s.mem := rfl
@[simp] theorem answer_params : (answer v s).params = s.params := rfl
@[simp] theorem answer_draws : (answer v s).draws = s.draws := rfl
@[simp] theorem answer_host : (answer v s).host = s.host := rfl
@[simp] theorem answer_answers : (answer v s).answers = v :: s.answers := rfl
end Answer

section Advance
variable (s : State)
@[simp] theorem advance_x : (advance s).x = s.x := rfl
@[simp] theorem advance_mem : (advance s).mem = s.mem := rfl
@[simp] theorem advance_params : (advance s).params = s.params := rfl
@[simp] theorem advance_draws : (advance s).draws = s.draws := rfl
@[simp] theorem advance_host : (advance s).host = s.host := rfl
@[simp] theorem advance_answers : (advance s).answers = s.answers := rfl
theorem advance_c : (advance s).c =
    { s.c with wh := BitVec.ofNat 32 (s.c.wrap (s.c.wh.toNat + s.c.channels.toNat)) } := rfl
end Advance

section SetPol
variable (c : StatusRegs) (σ τ : Polarity) (r : VelvetRegs)
@[simp] theorem setPol_st : (c.setPol σ r).st = c.st := by cases σ <;> rfl
@[simp] theorem setPol_fcode : (c.setPol σ r).fcode = c.fcode := by cases σ <;> rfl
@[simp] theorem setPol_kind : (c.setPol σ r).kind = c.kind := by cases σ <;> rfl
@[simp] theorem setPol_policy : (c.setPol σ r).policy = c.policy := by cases σ <;> rfl
@[simp] theorem setPol_layout : (c.setPol σ r).layout = c.layout := by cases σ <;> rfl
@[simp] theorem setPol_tapSrc : (c.setPol σ r).tapSrc = c.tapSrc := by cases σ <;> rfl
@[simp] theorem setPol_morphEn : (c.setPol σ r).morphEn = c.morphEn := by cases σ <;> rfl
@[simp] theorem setPol_wh : (c.setPol σ r).wh = c.wh := by cases σ <;> rfl
@[simp] theorem setPol_result : (c.setPol σ r).result = c.result := by cases σ <;> rfl
@[simp] theorem setPol_mrem : (c.setPol σ r).mrem = c.mrem := by cases σ <;> rfl
@[simp] theorem setPol_bufLen : (c.setPol σ r).bufLen = c.bufLen := by cases σ <;> rfl
@[simp] theorem setPol_channels : (c.setPol σ r).channels = c.channels := by cases σ <;> rfl
@[simp] theorem setPol_na : (c.setPol σ r).na = c.na := by cases σ <;> rfl
@[simp] theorem setPol_nb : (c.setPol σ r).nb = c.nb := by cases σ <;> rfl
@[simp] theorem setPol_viewCount : (c.setPol σ r).viewCount τ = c.viewCount τ := by
  cases σ <;> cases τ <;> rfl
@[simp] theorem pol_setPol_same : (c.setPol σ r).pol σ = r := by cases σ <;> rfl
theorem pol_setPol_ne (h : τ ≠ σ) : (c.setPol σ r).pol τ = c.pol τ := by
  cases σ <;> cases τ <;> first | rfl | exact absurd rfl h
end SetPol

end Sys2Proof.Machine
end

