-- ==== Sys2Proof/Laws/Memory.lean ====
section
/-! SUPPORT. What the memory operations do: a read after a write (20_memory.md R86), no other word of any
space changed (R91), and the canonical form kept. -/

namespace Sys2Proof.Machine

/-! ### One bank -/

theorem Bank.read_write_same (b : Bank) (i : Nat) (v : Word) : (b.write i v).read i = some v := by
  induction b with
  | nil => simp [Bank.write, Bank.read]
  | cons cell rest ih =>
    obtain ⟨j, w⟩ := cell
    simp only [Bank.write]
    split
    · simp [Bank.read]
    · split
      · simp [Bank.read]
      · rename_i h
        simp [Bank.read, Ne.symm h, ih]

theorem Bank.read_write_ne (b : Bank) {i j : Nat} (v : Word) (h : j ≠ i) :
    (b.write i v).read j = b.read j := by
  induction b with
  | nil => simp [Bank.write, Bank.read, Ne.symm h]
  | cons cell rest ih =>
    obtain ⟨k, w⟩ := cell
    simp only [Bank.write]
    split
    · simp [Bank.read, Ne.symm h]
    · split
      · rename_i h1 h2
        subst h2
        simp [Bank.read, Ne.symm h]
      · simp only [Bank.read, ih]

/-- The indices listed after a write: those listed before and the one written. -/
theorem Bank.mem_write {b : Bank} {i : Nat} {v : Word} {cell : Cell} (h : cell ∈ b.write i v) :
    cell.1 = i ∨ cell ∈ b := by
  induction b with
  | nil => simp only [Bank.write, List.mem_singleton] at h; simp [h]
  | cons head rest ih =>
    obtain ⟨k, w⟩ := head
    simp only [Bank.write] at h
    split at h
    · rcases List.mem_cons.1 h with h | h
      · simp [h]
      · exact .inr h
    · split at h
      · rcases List.mem_cons.1 h with h | h
        · simp [h]
        · exact .inr (List.mem_cons_of_mem _ h)
      · rcases List.mem_cons.1 h with h | h
        · simp [h]
        · rcases ih h with h | h
          · exact .inl h
          · exact .inr (List.mem_cons_of_mem _ h)

theorem Bank.write_wf {b : Bank} (hb : b.wf) (i : Nat) (v : Word) : (b.write i v).wf := by
  induction b with
  | nil => simp [Bank.write, Bank.wf]
  | cons head rest ih =>
    obtain ⟨k, w⟩ := head
    have hb' := hb
    simp only [Bank.wf, List.map_cons, List.pairwise_cons] at hb
    obtain ⟨hk, hr⟩ := hb
    simp only [Bank.write]
    split
    · rename_i hik
      simp only [Bank.wf, List.map_cons, List.pairwise_cons]
      refine ⟨?_, ?_, hr⟩
      · intro a ha
        rcases List.mem_cons.1 ha with rfl | ha
        · exact hik
        · exact Nat.lt_trans hik (hk a ha)
      · exact hk
    · split
      · rename_i _ hik
        subst hik
        simpa only [Bank.wf, List.map_cons, List.pairwise_cons] using ⟨hk, hr⟩
      · rename_i h1 h2
        simp only [Bank.wf, List.map_cons, List.pairwise_cons]
        refine ⟨?_, ih hr⟩
        intro a ha
        obtain ⟨cell, hc, rfl⟩ := List.mem_map.1 ha
        rcases Bank.mem_write hc with h | h
        · rw [h]; omega
        · exact hk _ (List.mem_map_of_mem h)

/-! ### All spaces -/

@[simp] theorem Memory.get_set_same (m : Memory) (sp : Space) (b : Bank) :
    (m.set sp b).get sp = b := by
  cases sp <;> rfl

theorem Memory.get_set_ne (m : Memory) {sp sp' : Space} (b : Bank) (h : sp' ≠ sp) :
    (m.set sp b).get sp' = m.get sp' := by
  cases sp <;> cases sp' <;> first | rfl | exact absurd rfl h

theorem Space.mem_all (sp : Space) : sp ∈ Space.all := by
  cases sp <;> simp [Space.all]

/-- `Memory.wf` space by space. -/
theorem Memory.wf_iff {p : Params} {m : Memory} :
    m.wf p = true ↔ ∀ sp, (m.get sp).wf ∧ ∀ cell ∈ m.get sp, p.hasWord sp cell.1 = true := by
  simp only [Memory.wf, List.all_eq_true, Bool.and_eq_true, decide_eq_true_eq]
  exact ⟨fun h sp => h sp (Space.mem_all sp), fun h sp _ => h sp⟩

/-- Writing a word that the space has keeps the canonical form. -/
theorem Memory.set_write_wf {p : Params} {m : Memory} (hm : m.wf p = true) {sp : Space} {i : Nat}
    (hi : p.hasWord sp i = true) (v : Word) :
    (m.set sp ((m.get sp).write i v)).wf p = true := by
  rw [Memory.wf_iff] at hm ⊢
  intro sp'
  by_cases h : sp' = sp
  · subst h
    rw [Memory.get_set_same]
    refine ⟨Bank.write_wf (hm sp').1 i v, fun cell hc => ?_⟩
    rcases Bank.mem_write hc with h | h
    · rw [h]; exact hi
    · exact (hm sp').2 cell h
  · rw [Memory.get_set_ne _ _ h]
    exact hm sp'

/-! ### The model's read of one word -/

@[simp] theorem peek_poke_same (s : State) (sp : Space) (i : Nat) (v : Word) :
    (s.poke sp i v).peek sp i = some v := by
  simp [State.peek, State.poke, Bank.read_write_same]

theorem peek_poke_ne (s : State) {sp sp' : Space} {i j : Nat} (v : Word)
    (h : sp' ≠ sp ∨ j ≠ i) : (s.poke sp i v).peek sp' j = s.peek sp' j := by
  simp only [State.peek, State.poke]
  by_cases hs : sp' = sp
  · subst hs
    rw [Memory.get_set_same, Bank.read_write_ne _ _ (h.resolve_left (fun h => h rfl))]
  · rw [Memory.get_set_ne _ _ hs]

/-- Writing a word changes that word and no other. -/
theorem peek_poke (s : State) (sp sp' : Space) (i j : Nat) (v : Word) :
    (s.poke sp i v).peek sp' j = if sp' = sp ∧ j = i then some v else s.peek sp' j := by
  split
  · rename_i h; obtain ⟨rfl, rfl⟩ := h; simp
  · rename_i h; exact peek_poke_ne s v (by rw [← not_and_or]; exact h)

/-- What a word holds depends on the memories alone. -/
theorem peek_of_mem {s t : State} (h : t.mem = s.mem) (sp : Space) (i : Nat) :
    t.peek sp i = s.peek sp i := by
  simp [State.peek, h]

/-- A write never makes a written word unwritten. -/
theorem isSome_peek_poke {s : State} {sp sp' : Space} {i j : Nat} {v : Word}
    (h : (s.peek sp' j).isSome = true) : ((s.poke sp i v).peek sp' j).isSome = true := by
  rw [peek_poke]; split <;> simp_all

end Sys2Proof.Machine
end

