-- ==== Sys2Proof/Laws/Ops.lean ====
section
/-! SUPPORT. For each shared operation of Machine/Ops.lean, what it can do, said once: sequencing, loops,
word accesses, the free NaN, checks and fault entry. Later proofs cite these lemmas and do not unfold the
operations. -/

namespace Sys2Proof.Machine

/-! ### Sequencing -/

section AndThen
variable {α β γ : Type}

@[simp] theorem andThen_next (a : α) (f : α → Res β) : andThen (.next a) f = f a := rfl
@[simp] theorem andThen_fault (e : Fault) (f : α → Res β) : andThen (.fault e) f = .fault e := rfl
@[simp] theorem andThen_refused (e : Refusal) (f : α → Res β) :
    andThen (.refused e) f = .refused e := rfl

theorem andThen_eq_next {r : Res α} {f : α → Res β} {b : β} :
    andThen r f = .next b ↔ ∃ a, r = .next a ∧ f a = .next b := by
  cases r <;> simp

theorem andThen_assoc (r : Res α) (f : α → Res β) (g : β → Res γ) :
    andThen (andThen r f) g = andThen r fun a => andThen (f a) g := by
  cases r <;> rfl

/-- No fault, every value as `Q` says, every refusal as `R` says. -/
def Answers (r : Res α) (Q : α → Prop) (R : Refusal → Prop) : Prop :=
  match r with
  | .next a => Q a
  | .fault _ => False
  | .refused e => R e

@[simp] theorem answers_next {a : α} {Q : α → Prop} {R : Refusal → Prop} :
    Answers (.next a) Q R ↔ Q a := Iff.rfl

theorem Answers.mono {r : Res α} {Q Q' : α → Prop} {R : Refusal → Prop} (h : Answers r Q R)
    (hq : ∀ a, r = .next a → Q a → Q' a) : Answers r Q' R := by
  cases r with
  | next a => exact hq a rfl h
  | fault e => exact h
  | refused e => exact h

theorem Answers.andThen {r : Res α} {f : α → Res β} {Q : α → Prop} {Q' : β → Prop}
    {R : Refusal → Prop} (h : Answers r Q R) (hf : ∀ a, r = .next a → Q a → Answers (f a) Q' R) :
    Answers (Machine.andThen r f) Q' R := by
  cases r with
  | next a => exact hf a rfl h
  | fault e => exact h.elim
  | refused e => exact h

/-- A computation that can neither fault nor refuse answers a next value. -/
theorem Answers.completes {r : Res α} {Q : α → Prop} (h : Answers r Q fun _ => False) :
    ∃ a, r = .next a ∧ Q a := by
  cases r with
  | next a => exact ⟨a, rfl, h⟩
  | fault e => exact h.elim
  | refused e => exact h.elim

theorem answers_of_next {r : Res α} {Q : α → Prop} {R : Refusal → Prop} {a : α} (h : r = .next a)
    (hq : Q a) : Answers r Q R := by
  subst h; exact hq

end AndThen

/-! ### The loop -/

@[simp] theorem forN_zero (body : Nat → State → Res State) (s : State) :
    forN 0 body s = .next s := rfl

theorem forN_succ (n : Nat) (body : Nat → State → Res State) (s : State) :
    forN (n + 1) body s = andThen (forN n body s) (body n) := rfl

/-- The first `a` rounds and then the rest. -/
theorem forN_add (a b : Nat) (body : Nat → State → Res State) (s : State) :
    forN (a + b) body s = andThen (forN a body s) (forN b fun i => body (a + i)) := by
  induction b with
  | zero => cases forN a body s <;> simp
  | succ b ih =>
    rw [← Nat.add_assoc, forN_succ, ih, andThen_assoc]
    rfl

/-- What every round keeps, the loop keeps. -/
theorem forN_induct {P : Nat → State → Prop} {n : Nat} {body : Nat → State → Res State}
    {s t : State} (h0 : P 0 s)
    (hstep : ∀ i u v, i < n → P i u → body i u = .next v → P (i + 1) v)
    (h : forN n body s = .next t) : P n t := by
  induction n generalizing t with
  | zero => cases h; exact h0
  | succ n ih =>
    obtain ⟨u, hu, hb⟩ := andThen_eq_next.1 h
    exact hstep n u t (Nat.lt_succ_self n)
      (ih (fun i u v hi => hstep i u v (Nat.lt_succ_of_lt hi)) hu) hb

/-- A loop whose rounds can neither fault nor refuse but as `R` says. -/
theorem forN_answers {P : Nat → State → Prop} {R : Refusal → Prop} {n : Nat}
    {body : Nat → State → Res State} {s : State} (h0 : P 0 s)
    (hstep : ∀ i u, i < n → P i u → Answers (body i u) (P (i + 1)) R) :
    Answers (forN n body s) (P n) R := by
  induction n with
  | zero => exact h0
  | succ n ih =>
    exact (ih fun i u hi => hstep i u (Nat.lt_succ_of_lt hi)).andThen
      fun u _ hu => hstep n u (Nat.lt_succ_self n) hu

theorem forN_congr {n : Nat} {f g : Nat → State → Res State} (s : State)
    (h : ∀ i, i < n → f i = g i) : forN n f s = forN n g s := by
  induction n with
  | zero => rfl
  | succ n ih =>
    rw [forN_succ, forN_succ, ih fun i hi => h i (Nat.lt_succ_of_lt hi), h n (Nat.lt_succ_self n)]

/-! ### Word accesses -/

theorem memRead_eq_next {sp : Space} {i : Nat} {s : State} {w : Word} :
    memRead sp i s = .next w ↔ s.params.hasWord sp i = true ∧ s.peek sp i = some w := by
  unfold memRead
  split
  · split <;> simp_all
  · simp_all

theorem memWrite_eq_next {sp : Space} {i : Nat} {v : Word} {s t : State} :
    memWrite sp i v s = .next t ↔ s.params.hasWord sp i = true ∧ t = s.poke sp i v := by
  unfold memWrite
  split
  · rename_i h
    exact ⟨fun e => ⟨h, by cases e; rfl⟩, fun e => by rw [e.2]⟩
  · rename_i h
    exact ⟨fun e => (by cases e), fun e => absurd e.1 h⟩

/-- A read of a word that the space has: the word, or the refusal of a word never written. -/
theorem memRead_answers {sp : Space} {i : Nat} {s : State} {R : Refusal → Prop}
    (hd : s.params.hasWord sp i = true) (hr : s.peek sp i = none → R (.unwrittenWord sp i)) :
    Answers (memRead sp i s) (fun w => s.peek sp i = some w) R := by
  unfold memRead
  rw [if_pos hd]
  split
  · assumption
  · exact hr ‹_›

/-- A write of a word that the space has always completes. -/
theorem memWrite_answers {sp : Space} {i : Nat} {v : Word} {s : State} {R : Refusal → Prop}
    (hd : s.params.hasWord sp i = true) :
    Answers (memWrite sp i v s) (fun t => t = s.poke sp i v) R := by
  unfold memWrite
  rw [if_pos hd]
  rfl

/-! ### What a part of a command leaves unchanged -/

/-- From `s` to `t` only words that `W` names may change (and free NaNs may be drawn); what was written
stays written, and the memory keeps its canonical form. -/
structure Leaves (W : Space → Nat → Prop) (s t : State) : Prop where
  x_eq : t.x = s.x
  c_eq : t.c = s.c
  params_eq : t.params = s.params
  host_eq : t.host = s.host
  answers_eq : t.answers = s.answers
  peek_eq : ∀ sp i, ¬ W sp i → t.peek sp i = s.peek sp i
  written : ∀ sp i, (s.peek sp i).isSome = true → (t.peek sp i).isSome = true
  wf : s.mem.wf s.params = true → t.mem.wf t.params = true

theorem Leaves.refl (W : Space → Nat → Prop) (s : State) : Leaves W s s :=
  ⟨rfl, rfl, rfl, rfl, rfl, fun _ _ _ => rfl, fun _ _ h => h, fun h => h⟩

theorem Leaves.trans {W : Space → Nat → Prop} {s t u : State} (h1 : Leaves W s t)
    (h2 : Leaves W t u) : Leaves W s u :=
  ⟨h2.x_eq.trans h1.x_eq, h2.c_eq.trans h1.c_eq, h2.params_eq.trans h1.params_eq,
    h2.host_eq.trans h1.host_eq, h2.answers_eq.trans h1.answers_eq,
    fun sp i h => (h2.peek_eq sp i h).trans (h1.peek_eq sp i h),
    fun sp i h => h2.written sp i (h1.written sp i h), fun h => h2.wf (h1.wf h)⟩

theorem Leaves.mono {W W' : Space → Nat → Prop} {s t : State} (h : Leaves W s t)
    (hw : ∀ sp i, W sp i → W' sp i) : Leaves W' s t :=
  { h with peek_eq := fun sp i hn => h.peek_eq sp i fun hW => hn (hw sp i hW) }

theorem leaves_memWrite {W : Space → Nat → Prop} {sp : Space} {i : Nat} {v : Word} {s t : State}
    (h : memWrite sp i v s = .next t) (hw : W sp i) : Leaves W s t := by
  obtain ⟨hd, rfl⟩ := memWrite_eq_next.1 h
  refine ⟨rfl, rfl, rfl, rfl, rfl, fun sp' j hn => peek_poke_ne s v ?_,
    fun _ _ => isSome_peek_poke, fun hm => Memory.set_write_wf hm hd v⟩
  by_contra hc
  push Not at hc
  obtain ⟨rfl, rfl⟩ := hc
  exact hn hw

theorem leaves_forN {W : Space → Nat → Prop} {n : Nat} {body : Nat → State → Res State}
    {s t : State} (hb : ∀ i u v, i < n → body i u = .next v → Leaves W u v)
    (h : forN n body s = .next t) : Leaves W s t :=
  forN_induct (P := fun _ u => Leaves W s u) (Leaves.refl W s)
    (fun i u v hi hu hv => hu.trans (hb i u v hi hv)) h

/-! ### The free NaN -/

/-- The words an operation may leave: its result, or some NaN. -/
def IsResult (r : Option Word) (w : Word) : Prop :=
  match r with
  | some v => w = v
  | none => F32.isNaN w = true

theorem nanOf_isNaN (bits : BitVec 32) : F32.isNaN (nanOf bits) = true := by
  have key : ∀ k : Nat, k % 2 ^ 31 / 2 ^ 23 = 255 → k % 2 ^ 23 ≠ 0 →
      F32.infMag < k % 2 ^ 31 := by
    intro k h1 h2
    unfold F32.infMag
    omega
  have hmax : ∀ m : Fin 256, m.val ||| 255 = 255 := by decide +kernel
  have hexp : ∀ k : Nat, (k ||| 0x7F800000) % 2 ^ 31 / 2 ^ 23 = 255 := by
    intro k
    rw [Nat.or_mod_two_pow, ← Nat.shiftRight_eq_div_pow, Nat.shiftRight_or_distrib]
    have hlt : (k % 2 ^ 31) >>> 23 < 256 := by
      rw [Nat.shiftRight_eq_div_pow]; omega
    exact hmax ⟨_, hlt⟩
  have hone : ∀ k : Nat, (k ||| 1) % 2 ^ 23 ≠ 0 := by
    intro k h
    have h1 : (k ||| 1) % 2 ^ 1 = 0 := by omega
    rw [Nat.or_mod_two_pow] at h1
    have h2 : k % 2 ^ 1 = 0 ∨ k % 2 ^ 1 = 1 := by omega
    rcases h2 with h | h <;> rw [h] at h1 <;> revert h1 <;> decide
  unfold nanOf F32.isNaN F32.mag F32.frac
  simp only [decide_eq_true_eq]
  split
  · refine key _ ?_ ?_
    · rw [BitVec.toNat_or, BitVec.toNat_or, Nat.or_assoc,
        Nat.or_comm (BitVec.toNat 0x7F800000#32), ← Nat.or_assoc]
      exact hexp _
    · rw [BitVec.toNat_or]
      exact hone _
  · rename_i h
    refine key _ ?_ h
    rw [BitVec.toNat_or]
    exact hexp _

theorem fpResult_isResult (r : Option Word) (s : State) : IsResult r (fpResult r s).1 := by
  cases r
  · exact nanOf_isNaN _
  · rfl

theorem fpResult_some (w : Word) (s : State) : fpResult (some w) s = (w, s) := rfl

/-- A result changes nothing but the count of draws. -/
theorem fpResult_state (r : Option Word) (s : State) :
    (fpResult r s).2 = { s with draws := (fpResult r s).2.draws } := by
  cases r <;> rfl

theorem leaves_fpResult (W : Space → Nat → Prop) (r : Option Word) (s : State) :
    Leaves W s (fpResult r s).2 := by
  cases r <;> exact ⟨rfl, rfl, rfl, rfl, rfl, fun _ _ _ => rfl, fun _ _ h => h, fun h => h⟩

@[simp] theorem fpResult_peek (r : Option Word) (s : State) (sp : Space) (i : Nat) :
    (fpResult r s).2.peek sp i = s.peek sp i := by
  cases r <;> rfl

@[simp] theorem fpResult_c (r : Option Word) (s : State) : (fpResult r s).2.c = s.c := by
  cases r <;> rfl

@[simp] theorem fpResult_x (r : Option Word) (s : State) : (fpResult r s).2.x = s.x := by
  cases r <;> rfl

@[simp] theorem fpResult_params (r : Option Word) (s : State) :
    (fpResult r s).2.params = s.params := by
  cases r <;> rfl

/-! ### Filling and copying words -/

/-- A fill writes the first `n` words of its space and nothing else. -/
theorem fillWords_next {sp : Space} {n : Nat} {v : Word} {s t : State}
    (h : fillWords sp n v s = .next t) :
    Leaves (fun sp' i => sp' = sp ∧ i < n) s t ∧ ∀ i, i < n → t.peek sp i = some v := by
  refine ⟨leaves_forN (fun i u w hi hb => leaves_memWrite hb ⟨rfl, hi⟩) h, ?_⟩
  exact forN_induct (P := fun k u => ∀ i, i < k → u.peek sp i = some v) (by simp)
    (fun k u w _ hu hb i hi => by
      obtain ⟨_, rfl⟩ := memWrite_eq_next.1 hb
      rw [peek_poke]
      split
      · rfl
      · rename_i hne
        exact hu i (by simp at hne; omega)) h

theorem fillWords_completes {sp : Space} {n : Nat} {v : Word} {s : State}
    (hd : ∀ i, i < n → s.params.hasWord sp i = true) : ∃ t, fillWords sp n v s = .next t := by
  have := forN_answers (P := fun _ u => u.params = s.params) (R := fun _ => False)
    (body := fun i s => memWrite sp i v s) (n := n) (s := s) rfl
    (fun i u hi hu => (memWrite_answers (by rw [hu]; exact hd i hi)).mono
      fun t _ ht => by rw [ht]; exact hu)
  obtain ⟨t, ht, _⟩ := this.completes
  exact ⟨t, ht⟩

/-- A copy between two spaces copies the first `n` words and changes nothing else. -/
theorem copyWords_next {src dst : Space} (hne : src ≠ dst) {n : Nat} {s t : State}
    (h : copyWords src dst n s = .next t) :
    Leaves (fun sp i => sp = dst ∧ i < n) s t ∧ t.draws = s.draws ∧
      ∀ i, i < n → t.peek dst i = s.peek src i ∧ (s.peek src i).isSome = true := by
  have key := forN_induct
    (P := fun k u => Leaves (fun sp i => sp = dst ∧ i < n) s u ∧ u.draws = s.draws ∧
      ∀ i, i < k → u.peek dst i = s.peek src i ∧ (s.peek src i).isSome = true)
    ⟨Leaves.refl _ s, rfl, by simp⟩ (fun k u w hk hu hb => by
      obtain ⟨hl, hd, hp⟩ := hu
      obtain ⟨v, hr, hw⟩ := andThen_eq_next.1 hb
      have hsrc : s.peek src k = some v := by
        rw [← hl.peek_eq src k fun hc => hne hc.1]
        exact (memRead_eq_next.1 hr).2
      refine ⟨hl.trans (leaves_memWrite hw ⟨rfl, hk⟩), ?_, ?_⟩
      · obtain ⟨_, rfl⟩ := memWrite_eq_next.1 hw
        exact hd
      · obtain ⟨_, rfl⟩ := memWrite_eq_next.1 hw
        intro i hi
        rw [peek_poke]
        split
        · rename_i h2
          rw [h2.2, hsrc]; simp
        · rename_i h2
          exact hp i (by simp at h2; omega)) h
  exact key

/-- A copy whose words the spaces have: it completes, or it refuses a source word never written. -/
theorem copyWords_answers {src dst : Space} (hne : src ≠ dst) {n : Nat} {s : State}
    {R : Refusal → Prop} (hs : ∀ i, i < n → s.params.hasWord src i = true)
    (hd : ∀ i, i < n → s.params.hasWord dst i = true)
    (hr : ∀ i, i < n → s.peek src i = none → R (.unwrittenWord src i)) :
    Answers (copyWords src dst n s) (fun t => copyWords src dst n s = .next t) R := by
  have := forN_answers (P := fun _ u => Leaves (fun sp i => sp = dst ∧ i < n) s u) (R := R)
    (body := fun i s => andThen (memRead src i s) fun v => memWrite dst i v s) (n := n) (s := s)
    (Leaves.refl _ s)
    (fun i u hi hu => (memRead_answers (by rw [hu.params_eq]; exact hs i hi)
      (fun h => hr i hi (by rwa [hu.peek_eq src i fun hc => hne hc.1] at h))).andThen
      fun v _ _ => (memWrite_answers (by rw [hu.params_eq]; exact hd i hi)).mono
        fun t ht _ => hu.trans (leaves_memWrite ht ⟨rfl, hi⟩))
  exact this.mono fun t ht _ => ht

/-! ### Checks and fault entry -/

@[simp] theorem checked_nil (s : State) (k : State → Res State) : checked [] s k = k s := rfl

theorem checked_cons (bad : Bool) (code : FaultCode) (rest : List (Bool × FaultCode)) (s : State)
    (k : State → Res State) : checked ((bad, code) :: rest) s k =
      if bad then .next (raiseFault code s) else checked rest s k := rfl

/-- The first violated check's code, if any. -/
def firstViolation : List (Bool × FaultCode) → Option FaultCode
  | [] => none
  | (bad, code) :: rest => if bad then some code else firstViolation rest

/-- The checks either raise the first violated one or let the effects happen. -/
theorem checked_eq (l : List (Bool × FaultCode)) (s : State) (k : State → Res State) :
    checked l s k = match firstViolation l with
      | some code => .next (raiseFault code s)
      | none => k s := by
  induction l with
  | nil => rfl
  | cons head rest ih =>
    obtain ⟨bad, code⟩ := head
    cases bad <;> simp [checked_cons, firstViolation, ih]

theorem guarded_ready {s : State} (h : s.c.st = .ready) (body : State → Res State) :
    guarded s body = body s := by
  simp [guarded, h]

theorem guarded_fault {s : State} (h : s.c.st = .fault) (body : State → Res State) :
    guarded s body = .next s := by
  simp [guarded, h]

theorem guarded_uninit {s : State} (h : s.c.st = .uninit) (body : State → Res State) :
    guarded s body = .next (raiseFault .notInit s) := by
  simp [guarded, h]

end Sys2Proof.Machine
end

