-- ==== Sys2Proof/Laws/Wrap.lean ====
section
/-! SUPPORT. The wrap arithmetic unit and the channel fan-out unit. -/

namespace Sys2Proof.Machine

/-- `wrap` stays below the buffer length, under either policy (R127a). -/
theorem wrap_lt {c : StatusRegs} (h : 0 < c.bufLen.toNat) (a : Nat) : c.wrap a < c.bufLen.toNat := by
  unfold StatusRegs.wrap
  split
  · exact Nat.lt_of_le_of_lt Nat.and_le_right (by omega)
  · exact Nat.mod_lt _ h

theorem layoutOf_cases (w : Word) :
    (layoutOf w = .ch1 ∧ w = 1) ∨ (layoutOf w = .ch2 ∧ w = 2) ∨ (layoutOf w = .ch4 ∧ w = 4) ∨
      layoutOf w = .chN := by
  unfold layoutOf
  split
  · simp [*]
  · split
    · simp [*]
    · split <;> simp [*]

/-- What every channel's operation keeps, the fan-out keeps. The channels are below `C` where the layout
is the one `INIT` selects. -/
theorem fanout_induct_lt {P : State → Prop} {op : Nat → State → Res State} {s t : State}
    (hlay : s.c.layout = layoutOf s.c.channels) (h0 : P s)
    (hop : ∀ ch u v, ch < s.c.channels.toNat → P u → op ch u = .next v → P v)
    (h : fanout op s = .next t) : P t := by
  unfold fanout at h
  rw [hlay] at h
  rcases layoutOf_cases s.c.channels with ⟨hl, hc⟩ | ⟨hl, hc⟩ | ⟨hl, hc⟩ | hl <;> rw [hl] at h
  · exact hop 0 s t (by rw [hc]; decide) h0 h
  · obtain ⟨a, ha, hb⟩ := andThen_eq_next.1 h
    exact hop 1 a t (by rw [hc]; decide) (hop 0 s a (by rw [hc]; decide) h0 ha) hb
  · obtain ⟨c, hc', hd⟩ := andThen_eq_next.1 h
    obtain ⟨b, hb, hc'⟩ := andThen_eq_next.1 hc'
    obtain ⟨a, ha, hb⟩ := andThen_eq_next.1 hb
    exact hop 3 c t (by rw [hc]; decide) (hop 2 b c (by rw [hc]; decide)
      (hop 1 a b (by rw [hc]; decide) (hop 0 s a (by rw [hc]; decide) h0 ha) hb) hc') hd
  · exact forN_induct (P := fun _ u => P u) h0 (fun i u v hi => hop i u v hi) h

/-- What every channel's operation keeps, the fan-out keeps, whatever the layout. -/
theorem fanout_induct {P : State → Prop} {op : Nat → State → Res State} {s t : State} (h0 : P s)
    (hop : ∀ ch u v, P u → op ch u = .next v → P v) (h : fanout op s = .next t) : P t := by
  unfold fanout at h
  split at h
  · exact hop 0 s t h0 h
  · obtain ⟨a, ha, hb⟩ := andThen_eq_next.1 h
    exact hop 1 a t (hop 0 s a h0 ha) hb
  · obtain ⟨c, hc, hd⟩ := andThen_eq_next.1 h
    obtain ⟨b, hb, hc⟩ := andThen_eq_next.1 hc
    obtain ⟨a, ha, hb⟩ := andThen_eq_next.1 hb
    exact hop 3 c t (hop 2 b c (hop 1 a b (hop 0 s a h0 ha) hb) hc) hd
  · exact forN_induct (P := fun _ u => P u) h0 (fun i u v _ => hop i u v) h

/-- A fan-out whose operations can neither fault nor refuse but as `R` says. -/
theorem fanout_answers {P : State → Prop} {R : Refusal → Prop} {op : Nat → State → Res State}
    {s : State} (hlay : s.c.layout = layoutOf s.c.channels) (h0 : P s)
    (hop : ∀ ch u, ch < s.c.channels.toNat → P u → Answers (op ch u) P R) :
    Answers (fanout op s) P R := by
  unfold fanout
  rw [hlay]
  rcases layoutOf_cases s.c.channels with ⟨hl, hc⟩ | ⟨hl, hc⟩ | ⟨hl, hc⟩ | hl <;> rw [hl]
  · exact hop 0 s (by rw [hc]; decide) h0
  · exact (hop 0 s (by rw [hc]; decide) h0).andThen fun a _ ha => hop 1 a (by rw [hc]; decide) ha
  · exact (((hop 0 s (by rw [hc]; decide) h0).andThen
      fun a _ ha => hop 1 a (by rw [hc]; decide) ha).andThen
      fun a _ ha => hop 2 a (by rw [hc]; decide) ha).andThen
      fun a _ ha => hop 3 a (by rw [hc]; decide) ha
  · exact forN_answers (P := fun _ u => P u) h0 fun i u hi hu => hop i u hi hu

end Sys2Proof.Machine
end

