-- ==== Sys2Proof/Laws/Init.lean ====
section
/-! SUPPORT. What `INIT` can do. -/

namespace Sys2Proof.Machine

/-- The effects of `INIT`: the words in use are cleared, the status registers are rewritten, and nothing
else changes (R172, R174, R179). -/
theorem initEffects_next {k : Kind} {s t : State} (h : initEffects k s = .next t) :
    t.c = initRegs s k ∧ Leaves (fun sp i => sp = .acc ∧ i < s.x.buflen.toNat) s { t with c := s.c } ∧
      ∀ i, i < s.x.buflen.toNat → t.peek .acc i = some zeroWord := by
  obtain ⟨u, hu, h⟩ := andThen_eq_next.1 h
  cases h
  obtain ⟨hl, hp⟩ := fillWords_next hu
  refine ⟨?_, ⟨hl.x_eq, rfl, hl.params_eq, hl.host_eq, hl.answers_eq, hl.peek_eq, hl.written, hl.wf⟩, hp⟩
  simp only [initRegs, hl.c_eq, hl.x_eq, hl.params_eq]

/-- The effects complete when the accumulator has the words in use (R171). -/
theorem initEffects_completes {k : Kind} {s : State} (h : s.x.buflen.toNat ≤ s.params.accDepth) :
    ∃ t, initEffects k s = .next t := by
  obtain ⟨u, hu⟩ := fillWords_completes (sp := .acc) (n := s.x.buflen.toNat) (v := zeroWord) (s := s)
    (fun i hi => by simp only [Params.hasWord, Params.depth, decide_eq_true_eq]; omega)
  exact ⟨_, by rw [initEffects, hu]; rfl⟩

/-- The draws of free NaNs are not `INIT`'s business. -/
theorem initEffects_draws {k : Kind} {s t : State} (h : initEffects k s = .next t) :
    t.draws = s.draws := by
  obtain ⟨u, hu, h⟩ := andThen_eq_next.1 h
  cases h
  change u.draws = s.draws
  exact forN_induct (P := fun _ a => a.draws = s.draws) rfl
    (fun i a b _ ha hb => by obtain ⟨_, rfl⟩ := memWrite_eq_next.1 hb; exact ha) hu

/-- `INIT` outside FAULT: the kind, the other checks, the effects (R170). -/
theorem execInit_eq {s : State} (h : s.c.st ≠ .fault) :
    execInit s = match kindOfWord s.x.kind with
      | none => .next (raiseFault .badKind s)
      | some k => checked (initChecks s k) s (initEffects k) := by
  unfold execInit
  cases hs : s.c.st
  · rfl
  · rfl
  · exact absurd hs h

end Sys2Proof.Machine
end

