-- ==== Sys2Proof/Laws/Kernel.lean ====
section
/-! SUPPORT. What each part of a sample step can do. -/

namespace Sys2Proof.Machine

theorem contribute_leaves (W : Space → Nat → Prop) (k : Contribution) (v : Word) (s : State) :
    Leaves W s (contribute k v s).2 := by
  cases k
  · exact leaves_fpResult W _ s
  · exact Leaves.refl W s
  · exact Leaves.refl W s

/-- What one accumulate operation does (R142): it reads its slot and its sample and writes the slot, and
nothing else changes. -/
theorem accOp_next {f d ch : Nat} {k : Contribution} {s t : State}
    (h : accOp f d k ch s = .next t) :
    ∃ a v, s.peek .acc (s.c.slot ch d) = some a ∧ s.peek .inp (s.c.sampleIndex f ch) = some v ∧
      s.params.hasWord .acc (s.c.slot ch d) = true ∧
      t = (fpAdd a (contribute k v s).1 (contribute k v s).2).2.poke .acc (s.c.slot ch d)
        (fpAdd a (contribute k v s).1 (contribute k v s).2).1 := by
  obtain ⟨a, ha, h⟩ := andThen_eq_next.1 h
  obtain ⟨v, hv, h⟩ := andThen_eq_next.1 h
  obtain ⟨hd, h⟩ := memWrite_eq_next.1 h
  exact ⟨a, v, (memRead_eq_next.1 ha).2, (memRead_eq_next.1 hv).2, (memRead_eq_next.1 ha).1, h⟩

theorem leaves_accOp {W : Space → Nat → Prop} {f d ch : Nat} {k : Contribution} {s t : State}
    (hw : W .acc (s.c.slot ch d)) (h : accOp f d k ch s = .next t) : Leaves W s t := by
  obtain ⟨a, ha, h⟩ := andThen_eq_next.1 h
  obtain ⟨v, hv, h⟩ := andThen_eq_next.1 h
  exact ((contribute_leaves W k v s).trans (leaves_fpResult W _ _)).trans (leaves_memWrite h hw)

/-- A tap of any kind writes accumulator slots and nothing else. -/
theorem leaves_tap {W : Space → Nat → Prop} {f d : Nat} {k : Contribution} {s t : State}
    (hw : ∀ ch d, W .acc (s.c.slot ch d)) (h : fanout (accOp f d k) s = .next t) :
    Leaves W s t :=
  fanout_induct (P := fun u => Leaves W s u) (Leaves.refl _ s)
    (fun ch u v hu hv => hu.trans (leaves_accOp (by rw [hu.c_eq]; exact hw ch d) hv)) h

theorem leaves_denseTap {W : Space → Nat → Prop} {f t : Nat} {s u : State}
    (hw : ∀ ch d, W .acc (s.c.slot ch d)) (h : denseTap f t s = .next u) : Leaves W s u := by
  obtain ⟨v, _, h⟩ := andThen_eq_next.1 h
  exact leaves_tap hw h

theorem leaves_sparseTap {W : Space → Nat → Prop} {f t : Nat} {s u : State}
    (hw : ∀ ch d, W .acc (s.c.slot ch d)) (h : sparseTap f t s = .next u) : Leaves W s u := by
  obtain ⟨d, _, h⟩ := andThen_eq_next.1 h
  obtain ⟨v, _, h⟩ := andThen_eq_next.1 h
  exact leaves_tap hw h

theorem leaves_velvetTap {W : Space → Nat → Prop} {f t : Nat} {σ : Polarity} {s u : State}
    (hw : ∀ ch d, W .acc (s.c.slot ch d)) (h : velvetTap σ f t s = .next u) : Leaves W s u := by
  obtain ⟨d, _, h⟩ := andThen_eq_next.1 h
  exact leaves_tap hw h

/-- A loop over taps writes accumulator slots and nothing else. -/
theorem leaves_taps {W : Space → Nat → Prop} {n : Nat} {tap : Nat → State → Res State}
    {s u : State} (htap : ∀ t a b, a.c = s.c → tap t a = .next b → Leaves W a b)
    (h : forN n tap s = .next u) : Leaves W s u :=
  forN_induct (P := fun _ a => Leaves W s a) (Leaves.refl _ s)
    (fun t a b _ ha hb => ha.trans (htap t a b ha.c_eq hb)) h

/-- The accumulate phase writes accumulator slots and nothing else (R142). -/
theorem accumulate_leaves {W : Space → Nat → Prop} {f : Nat} {s t : State}
    (hw : ∀ ch d, W .acc (s.c.slot ch d)) (h : accumulate f s = .next t) : Leaves W s t := by
  unfold accumulate at h
  split at h
  · exact leaves_taps (fun _ a _ hc => leaves_denseTap (by rw [hc]; exact hw)) h
  · exact leaves_taps (fun _ a _ hc => leaves_sparseTap (by rw [hc]; exact hw)) h
  · obtain ⟨u, hu, h⟩ := andThen_eq_next.1 h
    have h1 := leaves_taps (fun _ a _ hc => leaves_velvetTap (by rw [hc]; exact hw)) hu
    exact h1.trans (leaves_taps (fun _ a _ hc => leaves_velvetTap
      (by rw [hc, h1.c_eq]; exact hw)) h)

theorem emitSlot_eq_slot (c : StatusRegs) (ch : Nat) : c.emitSlot ch = c.slot ch 0 := by
  simp [StatusRegs.emitSlot, StatusRegs.slot]

/-- What the emit of one channel does (R146): the slot's word goes to `OUT`, bit for bit, and the slot
becomes `+0.0`. -/
theorem emitOp_next {f ch : Nat} {s t : State} (h : emitOp f ch s = .next t) :
    ∃ w, s.peek .acc (s.c.emitSlot ch) = some w ∧
      s.params.hasWord .acc (s.c.emitSlot ch) = true ∧
      t = (s.poke .out (s.c.sampleIndex f ch) w).poke .acc (s.c.emitSlot ch) zeroWord := by
  obtain ⟨w, hw, h⟩ := andThen_eq_next.1 h
  obtain ⟨u, hu, h⟩ := andThen_eq_next.1 h
  obtain ⟨_, rfl⟩ := memWrite_eq_next.1 hu
  obtain ⟨hd, rfl⟩ := memWrite_eq_next.1 h
  exact ⟨w, (memRead_eq_next.1 hw).2, (memRead_eq_next.1 hw).1, rfl⟩

/-- The emit phase writes accumulator slots and `OUT` words of the frame and nothing else (R146). -/
theorem emitAndClear_leaves {W : Space → Nat → Prop} {f : Nat} {s t : State}
    (hw : ∀ ch d, W .acc (s.c.slot ch d)) (ho : ∀ ch, W .out (s.c.sampleIndex f ch))
    (h : emitAndClear f s = .next t) : Leaves W s t :=
  fanout_induct (P := fun u => Leaves W s u) (Leaves.refl _ s) (fun ch u v hu hv => by
    obtain ⟨w, hw', hv⟩ := andThen_eq_next.1 hv
    obtain ⟨a, ha, hv⟩ := andThen_eq_next.1 hv
    exact hu.trans ((leaves_memWrite ha (by rw [hu.c_eq]; exact ho ch)).trans
      (leaves_memWrite hv (by rw [hu.c_eq, emitSlot_eq_slot]; exact hw ch 0)))) h

/-- A sample step: two phases that leave the status registers alone, then the advance (R141). -/
theorem sampleStep_next {f : Nat} {s t : State} (h : sampleStep f s = .next t) :
    ∃ u v, accumulate f s = .next u ∧ emitAndClear f u = .next v ∧ t = advance v := by
  obtain ⟨u, hu, h⟩ := andThen_eq_next.1 h
  obtain ⟨v, hv, h⟩ := andThen_eq_next.1 h
  exact ⟨u, v, hu, hv, by cases h; rfl⟩

/-- A sample step advances the write head and otherwise writes accumulator slots and `OUT` words of the
frame. -/
theorem sampleStep_leaves {W : Space → Nat → Prop} {f : Nat} {s t : State}
    (hw : ∀ ch d, W .acc (s.c.slot ch d)) (ho : ∀ ch, W .out (s.c.sampleIndex f ch))
    (h : sampleStep f s = .next t) :
    Leaves W s { t with c := s.c } ∧ t.c = (advance s).c := by
  obtain ⟨u, v, hu, hv, rfl⟩ := sampleStep_next h
  have h1 := accumulate_leaves hw hu
  have h2 := emitAndClear_leaves (by rw [h1.c_eq]; exact hw) (by rw [h1.c_eq]; exact ho) hv
  have h3 := h1.trans h2
  refine ⟨⟨h3.x_eq, rfl, h3.params_eq, h3.host_eq, h3.answers_eq, h3.peek_eq, h3.written, h3.wf⟩, ?_⟩
  rw [advance_c, advance_c, h3.c_eq]

end Sys2Proof.Machine
end

