-- ==== Sys2Proof/Laws/Morph.lean ====
section
/-! SUPPORT. What each part of the two morph machines can do. -/

namespace Sys2Proof.Machine

theorem denseTaps_ir {c : StatusRegs} (h : c.tapSrc = .ir) : c.denseTaps = .dtap := by
  simp [StatusRegs.denseTaps, h]

theorem denseTaps_cur {c : StatusRegs} (h : c.tapSrc = .cur) : c.denseTaps = .dcur := by
  simp [StatusRegs.denseTaps, h]

/-! ### Dense -/

/-- The fill leaves the live taps in the working array and changes nothing else (R192). -/
theorem denseFill_next {s t : State} (h : denseFill s = .next t) :
    Leaves (fun sp i => sp = .dcur ∧ i < s.c.na.toNat) s t ∧
      ∀ i, i < s.c.na.toNat → t.peek .dcur i = s.peek s.c.denseTaps i := by
  unfold denseFill at h
  split at h
  · rename_i hs
    obtain ⟨hl, _, hp⟩ := copyWords_next (by decide) h
    exact ⟨hl, fun i hi => by rw [denseTaps_ir hs]; exact (hp i hi).1⟩
  · rename_i hs
    cases h
    exact ⟨Leaves.refl _ s, fun i _ => by rw [denseTaps_cur hs]⟩

/-- One delta (R193). -/
theorem denseDelta_next {i : Nat} {s t : State} (h : denseDelta i s = .next t) :
    ∃ target current, s.peek .dtgt i = some target ∧ s.peek .dcur i = some current ∧
      Leaves (fun sp j => sp = .ddel ∧ j = i) s t ∧ ∃ delta, t.peek .ddel i = some delta ∧
        IsResult (binary32.div (fpSub target current s).1 (binary32.ofNat s.x.steps.toNat)) delta := by
  obtain ⟨target, ht, h⟩ := andThen_eq_next.1 h
  obtain ⟨current, hc, h⟩ := andThen_eq_next.1 h
  refine ⟨target, current, (memRead_eq_next.1 ht).2, (memRead_eq_next.1 hc).2, ?_, ?_⟩
  · exact ((leaves_fpResult _ _ _).trans (leaves_fpResult _ _ _)).trans
      (leaves_memWrite h ⟨rfl, rfl⟩)
  · obtain ⟨_, rfl⟩ := memWrite_eq_next.1 h
    refine ⟨_, peek_poke_same _ _ _ _, ?_⟩
    have hx : (fpSub target current s).2.x = s.x := fpResult_x _ _
    rw [← hx]
    exact fpResult_isResult _ _

/-- One tap of one step (R195). -/
theorem denseAdd_next {i : Nat} {s t : State} (h : denseAdd i s = .next t) :
    ∃ current delta, s.peek .dcur i = some current ∧ s.peek .ddel i = some delta ∧
      Leaves (fun sp j => sp = .dcur ∧ j = i) s t ∧ ∃ sum, t.peek .dcur i = some sum ∧
        IsResult (binary32.add current delta) sum := by
  obtain ⟨current, hc, h⟩ := andThen_eq_next.1 h
  obtain ⟨delta, hd, h⟩ := andThen_eq_next.1 h
  refine ⟨current, delta, (memRead_eq_next.1 hc).2, (memRead_eq_next.1 hd).2, ?_, ?_⟩
  · exact (leaves_fpResult _ _ _).trans (leaves_memWrite h ⟨rfl, rfl⟩)
  · obtain ⟨_, rfl⟩ := memWrite_eq_next.1 h
    exact ⟨_, peek_poke_same _ _ _ _, fpResult_isResult _ _⟩

/-- The words a dense morph writes: the first `n` of its two scratch memories. -/
def DenseWords (n : Nat) : Space → Nat → Prop := fun sp i => (sp = .dcur ∨ sp = .ddel) ∧ i < n

/-- A dense `START_MORPH` writes the step count, the tap source and the dense scratch (R190). -/
theorem denseStartEffects_next {s t : State} (h : denseStartEffects s = .next t) :
    t.c = { s.c with mrem := s.x.steps, tapSrc := .cur } ∧
      Leaves (DenseWords s.c.na.toNat) s { t with c := s.c } := by
  obtain ⟨u, hu, h⟩ := andThen_eq_next.1 h
  obtain ⟨v, hv, h⟩ := andThen_eq_next.1 h
  have h1 := (denseFill_next hu).1.mono (W' := DenseWords s.c.na.toNat)
    fun sp i hw => ⟨.inl hw.1, hw.2⟩
  have h2 : Leaves (DenseWords s.c.na.toNat) u v := leaves_forN (fun i a b hi hb => by
    obtain ⟨_, _, _, _, hl, _⟩ := denseDelta_next hb
    exact hl.mono fun sp j hw => ⟨.inr hw.1, by rw [hw.2, ← h1.c_eq]; exact hi⟩) hv
  have h3 := h1.trans h2
  cases h
  refine ⟨by simp only [h3.c_eq, h3.x_eq], ⟨h3.x_eq, rfl, h3.params_eq, h3.host_eq, h3.answers_eq,
    h3.peek_eq, h3.written, h3.wf⟩⟩

/-- A dense `UPDATE_MORPH` does nothing when no morph is active, else it counts down and writes the working
array (R195). -/
theorem denseUpdateEffects_next {s t : State} (h : denseUpdateEffects s = .next t) :
    (s.c.mrem = 0 ∧ t = s) ∨ (s.c.mrem ≠ 0 ∧ t.c = { s.c with mrem := s.c.mrem - 1 } ∧
      Leaves (fun sp i => sp = .dcur ∧ i < s.c.na.toNat) s { t with c := s.c }) := by
  unfold denseUpdateEffects at h
  split at h
  · cases h; exact .inl ⟨‹_›, rfl⟩
  · rename_i hm
    obtain ⟨u, hu, h⟩ := andThen_eq_next.1 h
    have h1 : Leaves (fun sp i => sp = .dcur ∧ i < s.c.na.toNat) s u :=
      leaves_forN (fun i a b hi hb => by
        obtain ⟨_, _, _, _, hl, _⟩ := denseAdd_next hb
        exact hl.mono fun sp j hw => ⟨hw.1, by rw [hw.2]; exact hi⟩) hu
    refine .inr ⟨hm, ?_⟩
    unfold denseSnap at h
    split at h
    · have h2 := (copyWords_next (by decide) h).1
      simp only [h1.c_eq] at h2
      refine ⟨by rw [h2.c_eq], ⟨h2.x_eq.trans h1.x_eq, rfl, h2.params_eq.trans h1.params_eq,
        h2.host_eq.trans h1.host_eq, h2.answers_eq.trans h1.answers_eq, fun sp i hn =>
        (h2.peek_eq sp i hn).trans (h1.peek_eq sp i hn), fun sp i hw =>
        h2.written sp i (h1.written sp i hw), fun hw => h2.wf (h1.wf hw)⟩⟩
    · cases h
      exact ⟨by simp only [h1.c_eq], ⟨h1.x_eq, rfl, h1.params_eq, h1.host_eq, h1.answers_eq,
        h1.peek_eq, h1.written, h1.wf⟩⟩

/-! ### Velvet -/

theorem viewSpace_ne_workSpace (σ τ : Polarity) : viewSpace σ ≠ workSpace τ := by
  cases σ <;> cases τ <;> decide

theorem workSpace_ne_initialSpace (σ τ : Polarity) : workSpace σ ≠ initialSpace τ := by
  cases σ <;> cases τ <;> decide

theorem targetSpace_ne_snapshotSpace (σ τ : Polarity) : targetSpace σ ≠ snapshotSpace τ := by
  cases σ <;> cases τ <;> decide

/-- One polarity's step can do one of four things (R220): substitute, remove, append, or nothing. -/
theorem velvetStep_next {σ : Polarity} {s t : State} (h : velvetStep σ s = .next t) :
    (0 < (s.c.pol σ).rc ∧ (s.c.pol σ).pc < (s.c.pol σ).tl ∧ ∃ v,
      s.peek (snapshotSpace σ) (s.c.pol σ).pc.toNat = some v ∧
      t = { s.poke (workSpace σ) (substitutionSlot s.params.substSlot (s.c.pol σ)) v with
        c := s.c.setPol σ
          { s.c.pol σ with rc := (s.c.pol σ).rc - 1, pc := (s.c.pol σ).pc + 1 } }) ∨
    (0 < (s.c.pol σ).rc ∧ ¬ (s.c.pol σ).pc < (s.c.pol σ).tl ∧
      t = { s with
        c := s.c.setPol σ
          { s.c.pol σ with len := (s.c.pol σ).len - 1, rc := (s.c.pol σ).rc - 1 } }) ∨
    (¬ 0 < (s.c.pol σ).rc ∧ (s.c.pol σ).pc < (s.c.pol σ).tl ∧ ∃ v,
      s.peek (snapshotSpace σ) (s.c.pol σ).pc.toNat = some v ∧
      t = { s.poke (workSpace σ) (s.c.pol σ).len.toNat v with
        c := s.c.setPol σ
          { s.c.pol σ with len := (s.c.pol σ).len + 1, pc := (s.c.pol σ).pc + 1 } }) ∨
    (¬ 0 < (s.c.pol σ).rc ∧ ¬ (s.c.pol σ).pc < (s.c.pol σ).tl ∧ t = s) := by
  unfold velvetStep at h
  simp only at h
  split_ifs at h with h1 h2 h3
  · obtain ⟨v, hv, h⟩ := andThen_eq_next.1 h
    obtain ⟨u, hu, h⟩ := andThen_eq_next.1 h
    obtain ⟨_, rfl⟩ := memWrite_eq_next.1 hu
    cases h
    exact .inl ⟨h1.1, h1.2, v, (memRead_eq_next.1 hv).2, rfl⟩
  · cases h
    exact .inr (.inl ⟨h2, fun hc => h1 ⟨h2, hc⟩, rfl⟩)
  · obtain ⟨v, hv, h⟩ := andThen_eq_next.1 h
    obtain ⟨u, hu, h⟩ := andThen_eq_next.1 h
    obtain ⟨_, rfl⟩ := memWrite_eq_next.1 hu
    cases h
    exact .inr (.inr (.inl ⟨h2, h3, v, (memRead_eq_next.1 hv).2, rfl⟩))
  · cases h
    exact .inr (.inr (.inr ⟨h2, h3, rfl⟩))

/-- The words a velvet `START_MORPH` writes: the scratch of both polarities. -/
def VelvetWords : Space → Nat → Prop := fun sp _ =>
  ∃ σ, sp = workSpace σ ∨ sp = initialSpace σ ∨ sp = snapshotSpace σ

/-- What `START_MORPH` does for one polarity (R210): its registers are those of a fresh start, its words
are the live taps, a snapshot of them and a snapshot of the target; the other polarity keeps its own. -/
theorem velvetStartPol_next {σ : Polarity} {s t : State} (h : velvetStartPol σ s = .next t) :
    t.c = s.c.setPol σ
        { len := s.c.liveCount σ, rc := s.c.liveCount σ, pc := 0, tl := s.x.targetCount σ,
          cap := (s.c.pol σ).cap } ∧
      t.draws = s.draws ∧
      Leaves (fun sp i => (sp = workSpace σ ∧ s.c.tapSrc = .ir ∧ i < (s.c.viewCount σ).toNat) ∨
        (sp = initialSpace σ ∧ i < (s.c.liveCount σ).toNat) ∨
        (sp = snapshotSpace σ ∧ i < (s.x.targetCount σ).toNat)) s { t with c := s.c } ∧
      (∀ i, i < (s.c.liveCount σ).toNat → t.peek (workSpace σ) i = s.peek (s.c.velvetTaps σ) i ∧
        t.peek (initialSpace σ) i = s.peek (s.c.velvetTaps σ) i ∧
        (s.peek (s.c.velvetTaps σ) i).isSome = true) ∧
      ∀ i, i < (s.x.targetCount σ).toNat →
        t.peek (snapshotSpace σ) i = s.peek (targetSpace σ) i ∧
        (s.peek (targetSpace σ) i).isSome = true := by
  obtain ⟨s1, h1, h⟩ := andThen_eq_next.1 h
  obtain ⟨s2, h2, h⟩ := andThen_eq_next.1 h
  -- the fill
  have k1 : s1.c = s.c.setPol σ { s.c.pol σ with len := s.c.liveCount σ } ∧ s1.draws = s.draws ∧
      Leaves (fun sp i => sp = workSpace σ ∧ s.c.tapSrc = .ir ∧ i < (s.c.viewCount σ).toNat) s
        { s1 with c := s.c } ∧
      ∀ i, i < (s.c.liveCount σ).toNat →
        s1.peek (workSpace σ) i = s.peek (s.c.velvetTaps σ) i := by
    unfold velvetFill at h1
    split at h1
    · rename_i hs
      obtain ⟨u, hu, h1⟩ := andThen_eq_next.1 h1
      cases h1
      obtain ⟨hl, hd, hp⟩ := copyWords_next (viewSpace_ne_workSpace σ σ) hu
      have hlive : s.c.liveCount σ = s.c.viewCount σ := by simp [StatusRegs.liveCount, hs]
      refine ⟨by simp only [hl.c_eq, hlive], hd, ⟨hl.x_eq, rfl, hl.params_eq, hl.host_eq,
        hl.answers_eq, fun sp i hn => hl.peek_eq sp i fun hc => hn ⟨hc.1, hs, hc.2⟩, hl.written,
        hl.wf⟩, fun i hi => ?_⟩
      rw [hlive] at hi
      simp only [StatusRegs.velvetTaps, hs]
      exact (hp i hi).1
    · rename_i hs
      cases h1
      refine ⟨?_, rfl, Leaves.refl _ s, fun i _ => ?_⟩
      · simp only [StatusRegs.liveCount, hs]
        cases σ <;> rfl
      · simp only [StatusRegs.velvetTaps, hs]
  obtain ⟨c1, d1, l1, p1⟩ := k1
  -- the initial snapshot
  obtain ⟨u, hu, h2⟩ := andThen_eq_next.1 h2
  cases h2
  obtain ⟨l2, d2, p2⟩ := copyWords_next (workSpace_ne_initialSpace σ σ) hu
  -- the target snapshot
  obtain ⟨v, hv, h⟩ := andThen_eq_next.1 h
  cases h
  obtain ⟨l3, d3, p3⟩ := copyWords_next (targetSpace_ne_snapshotSpace σ σ) hv
  have hlen : (s1.c.pol σ).len = s.c.liveCount σ := by rw [c1, pol_setPol_same]
  rw [hlen] at l2 p2
  have e2x : u.x = s.x := l2.x_eq.trans l1.x_eq
  simp only [e2x] at l3 p3
  have nwi : ∀ a b : Polarity, workSpace a ≠ snapshotSpace b := by intro a b; cases a <;> cases b <;> decide
  have nin : ∀ a b : Polarity, initialSpace a ≠ snapshotSpace b := by intro a b; cases a <;> cases b <;> decide
  have ntw : ∀ a b : Polarity, targetSpace a ≠ workSpace b := by intro a b; cases a <;> cases b <;> decide
  have nti : ∀ a b : Polarity, targetSpace a ≠ initialSpace b := by intro a b; cases a <;> cases b <;> decide
  have pv : ∀ sp i, sp ≠ snapshotSpace σ → v.peek sp i = u.peek sp i :=
    fun sp i hn => l3.peek_eq sp i fun hc => hn hc.1
  have pu : ∀ sp i, sp ≠ initialSpace σ → u.peek sp i = s1.peek sp i :=
    fun sp i hn => l2.peek_eq sp i fun hc => hn hc.1
  refine ⟨?_, ?_, ?_, ?_, ?_⟩
  · simp only [l3.c_eq, l2.c_eq, c1, l3.x_eq]
    cases σ <;> rfl
  · exact d3.trans (d2.trans d1)
  · refine ⟨l3.x_eq, rfl, l3.params_eq.trans (l2.params_eq.trans l1.params_eq),
      l3.host_eq.trans (l2.host_eq.trans l1.host_eq),
      l3.answers_eq.trans (l2.answers_eq.trans l1.answers_eq), fun sp i hn => ?_,
      fun sp i hw => l3.written sp i (l2.written sp i (l1.written sp i hw)),
      fun hw => l3.wf (l2.wf (l1.wf hw))⟩
    exact (l3.peek_eq sp i fun hc => hn (.inr (.inr hc))).trans
      ((l2.peek_eq sp i fun hc => hn (.inr (.inl hc))).trans
        (l1.peek_eq sp i fun hc => hn (.inl hc)))
  · intro i hi
    have hw : v.peek (workSpace σ) i = s.peek (s.c.velvetTaps σ) i :=
      (pv _ i (nwi σ σ)).trans ((pu _ i (workSpace_ne_initialSpace σ σ)).trans (p1 i hi))
    refine ⟨hw, ?_, ?_⟩
    · exact (pv _ i (nin σ σ)).trans ((p2 i hi).1.trans (p1 i hi))
    · rw [← p1 i hi]; exact (p2 i hi).2
  · intro i hi
    have ht : u.peek (targetSpace σ) i = s.peek (targetSpace σ) i :=
      (pu _ i (nti σ σ)).trans (l1.peek_eq _ i fun hc => ntw σ σ hc.1)
    have p3a : v.peek (snapshotSpace σ) i = u.peek (targetSpace σ) i := (p3 i hi).1
    have p3b : (u.peek (targetSpace σ) i).isSome = true := (p3 i hi).2
    exact ⟨p3a.trans ht, by rw [← ht]; exact p3b⟩

/-- A velvet `START_MORPH` (R210): both polarities freshly started, the tap source the working arrays. -/
theorem velvetStartEffects_next {s t : State} (h : velvetStartEffects s = .next t) :
    ∃ u v, velvetStartPol .pos s = .next u ∧ velvetStartPol .neg u = .next v ∧
      t = { v with c := { v.c with tapSrc := .cur } } := by
  obtain ⟨u, hu, h⟩ := andThen_eq_next.1 h
  obtain ⟨v, hv, h⟩ := andThen_eq_next.1 h
  exact ⟨u, v, hu, hv, by cases h; rfl⟩

end Sys2Proof.Machine
end

