-- ==== Sys2Proof/Laws/Exec.lean ====
section
/-! SUPPORT. `exec`, `issue` and `step` by the life-cycle state (30_encoding.md R107; 60_exceptions.md R253,
R254, R273). -/

namespace Sys2Proof.Machine

/-- In FAULT no command does anything (R253). -/
theorem exec_fault {s : State} (h : s.c.st = .fault) (i : Instr) : exec i s = .next s := by
  cases i <;> simp [exec, execInit, execProcess, execStartMorph, execUpdateMorph, execIsMorphing,
    guarded_fault h, h]

theorem exec_process_ready {s : State} (h : s.c.st = .ready) :
    exec .process s = processFrames s.x.block.toNat s := guarded_ready h _

theorem exec_startMorph_ready {s : State} (h : s.c.st = .ready) :
    exec .startMorph s = match s.c.kind with
      | .dense => denseStart s
      | .sparse => .next (raiseFault .noMorphForKind s)
      | .velvet => velvetStart s := by
  cases hk : s.c.kind <;> simp [exec, execStartMorph, guarded_ready h, hk]

theorem exec_updateMorph_ready {s : State} (h : s.c.st = .ready) :
    exec .updateMorph s = match s.c.kind with
      | .dense => denseUpdate s
      | .sparse => .next (raiseFault .noMorphForKind s)
      | .velvet => velvetUpdate s := by
  cases hk : s.c.kind <;> simp [exec, execUpdateMorph, guarded_ready h, hk]

theorem exec_isMorphing_ready {s : State} (h : s.c.st = .ready) :
    exec .isMorphing s =
      .next { s with c := { s.c with result := (BitVec.ofBool s.c.morphing).zeroExtend 32 } } := by
  rw [exec, execIsMorphing, guarded_ready h]

theorem issue_fault {s : State} (h : s.c.st = .fault) (w : Word) : issue w s = .next s := by
  simp [issue, h]

theorem issue_ok {w : Word} {i : Instr} (h : decode w = .ok i) (s : State) :
    issue w s = exec i s := by
  unfold issue
  cases hs : s.c.st
  · simp [h]
  · simp [h]
  · simp [exec_fault hs]

theorem issue_error {w : Word} {e : Illegal} (h : decode w = .error e) {s : State}
    (hs : s.c.st ≠ .fault) : issue w s = .next (raiseFault .illegalCmd s) := by
  unfold issue
  cases hc : s.c.st
  · simp [h]
  · simp [h]
  · exact absurd hc hs

theorem step_nil {s : State} (h : s.host = []) : step s = .next s := by
  simp [step, h]

theorem step_cons {s : State} {m : HostMove} {rest : List HostMove} (h : s.host = m :: rest) :
    step s = hostMove m { s with host := rest } := by
  simp [step, h]

end Sys2Proof.Machine
end

