-- ==== Sys2Proof/Laws/PerInstr.lean ====
section
/-! SUPPORT. Statements made command by command (30_encoding.md R100 to R103): the encoding of each command
keeps the `zero` field 0 and is a well-formed command word that decodes to the command. -/

namespace Sys2Proof.Laws

/-- The encoding of a command has 24 zero bits above its opcode and decodes to the command (R100, R103). -/
def CommandEncoding.Statement (i : Instr) : Prop :=
  zeroField (encode i) = 0#24 ∧ commandWordOk (encode i) = true ∧ decode (encode i) = .ok i

theorem CommandEncoding.init : CommandEncoding.Statement .init := by
  unfold CommandEncoding.Statement; decide

theorem CommandEncoding.process : CommandEncoding.Statement .process := by
  unfold CommandEncoding.Statement; decide

theorem CommandEncoding.startMorph : CommandEncoding.Statement .startMorph := by
  unfold CommandEncoding.Statement; decide

theorem CommandEncoding.updateMorph : CommandEncoding.Statement .updateMorph := by
  unfold CommandEncoding.Statement; decide

theorem CommandEncoding.isMorphing : CommandEncoding.Statement .isMorphing := by
  unfold CommandEncoding.Statement; decide

end Sys2Proof.Laws
end

