-- ==== Sys2Proof/Tests/Slice0.lean ====
section
/-! SUPPORT. Tests. Expected values are the spec's: the encodings of 30_encoding.md R101 and the vectors of
95_test_vectors.md (named by their ids). The witness theorems show, for each statement with hypotheses, a
state that meets them all. -/

open Sys2Proof Sys2Proof.Machine Sys2Proof.Claims

namespace Sys2Proof.Tests

-- One kernel evaluation at a time: each would otherwise open a thread of its own.
set_option Elab.async false

/-! ### Helpers -/

/-- Memories small enough to write down. -/
def small : Params := { accDepth := 16, irDepth := 5, scrDepth := 5, substSlot := .regression }

/-- The next state, where there is one. -/
def after (r : Res State) (s : State) : State :=
  match r with
  | .next t => t
  | .fault _ | .refused _ => s

def completes (r : Res State) : Bool :=
  match r with
  | .next _ => true
  | .fault _ | .refused _ => false

theorem next_after {r : Res State} (h : completes r = true) (s : State) : r = .next (after r s) := by
  cases r <;> simp_all [completes, after]

theorem exists_next {r : Res State} (h : completes r = true) : ∃ t, r = .next t :=
  ⟨_, next_after h State.reset⟩

def faultOf (r : Res State) : Option Fault :=
  match r with
  | .fault e => some e
  | .next _ | .refused _ => none

theorem eq_fault {r : Res State} {e : Fault} (h : faultOf r = some e) : r = .fault e := by
  cases r <;> simp_all [faultOf]

def refusalOf (r : Res State) : Option Refusal :=
  match r with
  | .refused e => some e
  | .next _ | .fault _ => none

theorem eq_refused {r : Res State} {e : Refusal} (h : refusalOf r = some e) : r = .refused e := by
  cases r <;> simp_all [refusalOf]

def writtenOk (s : State) (sp : Space) (n : Nat) : Bool :=
  (List.range n).all fun i => (s.peek sp i).isSome

theorem written_of {s : State} {sp : Space} {n : Nat} (h : writtenOk s sp n = true) : Written s sp n := by
  intro i hi
  exact List.all_eq_true.1 h i (List.mem_range.2 hi)

/-- `s` with the host's moves to come. -/
def hosting (s : State) (moves : List HostMove) : State := { s with host := moves }

/-- A checker for `PolarityInv`. -/
abbrev PolarityOk (s : State) (σ : Polarity) : Prop :=
  (s.c.pol σ).len.toNat = (s.c.pol σ).rc.toNat + (s.c.pol σ).pc.toNat ∧
  (s.c.pol σ).pc ≤ (s.c.pol σ).tl ∧ (s.c.pol σ).len ≤ (s.c.pol σ).cap ∧
  (s.c.pol σ).tl ≤ (s.c.pol σ).cap ∧ (s.c.pol σ).cap.toNat ≤ s.params.scrDepth ∧
  writtenOk s (workSpace σ) (s.c.pol σ).len.toNat = true ∧
  writtenOk s (snapshotSpace σ) (s.c.pol σ).tl.toNat = true ∧
  (s.c.tapSrc = .ir →
    (s.c.pol σ).len = 0 ∧ (s.c.pol σ).rc = 0 ∧ (s.c.pol σ).pc = 0 ∧ (s.c.pol σ).tl = 0) ∧
  (s.c.kind ≠ .velvet ∨ s.c.morphEn = false → s.c.pol σ = VelvetRegs.reset)

theorem polarity_of {s : State} {σ : Polarity} (h : PolarityOk s σ) : PolarityInv s σ := by
  obtain ⟨a, b, c, d, e, f, g, i, j⟩ := h
  exact ⟨a, b, c, d, e, written_of f, written_of g, i, j⟩

/-- Checkers for `MachineInv` in READY, in three parts. -/
abbrev StateOk (s : State) : Prop :=
  s.mem.wf s.params = true ∧ s.c.st = .ready ∧ s.c.fcode = .noFault ∧
    (s.c.result = 0 ∨ s.c.result = 1)

abbrev ConfigOk (s : State) : Prop :=
  0 < s.c.bufLen.toNat ∧ 0 < s.c.channels.toNat ∧ s.c.bufLen.toNat ≤ s.params.accDepth ∧
    s.c.wh < s.c.bufLen ∧ s.c.policy = policyOf s.c.bufLen ∧ s.c.layout = layoutOf s.c.channels ∧
    (s.c.tapSrc = .cur → s.c.morphEn = true) ∧ (s.c.morphEn = true → s.c.kind ≠ .sparse) ∧
    (0 < s.c.mrem → s.c.kind = .dense ∧ s.c.tapSrc = .cur)

abbrev TapsOk (s : State) : Prop :=
  s.c.na.toNat ≤ s.params.irDepth ∧ s.c.nb.toNat ≤ s.params.irDepth ∧
    (s.c.kind ≠ .velvet → s.c.nb = 0) ∧
    (s.c.kind = .dense → s.c.morphEn = true → s.c.na.toNat ≤ s.params.scrDepth) ∧
    writtenOk s .acc s.c.bufLen.toNat = true ∧
    (s.c.kind = .dense → s.c.tapSrc = .cur → writtenOk s .dcur s.c.na.toNat = true) ∧
    (s.c.kind = .dense → s.c.tapSrc = .cur → writtenOk s .ddel s.c.na.toNat = true)

def readyOk (s : State) : Bool :=
  decide (StateOk s) && decide (ConfigOk s) && decide (TapsOk s) && decide (PolarityOk s .pos) &&
    decide (PolarityOk s .neg)

theorem inv_of {s : State} (h : readyOk s = true) : MachineInv s := by
  simp only [readyOk, Bool.and_eq_true, decide_eq_true_eq] at h
  obtain ⟨⟨⟨⟨⟨a1, a2, a3, a4⟩, b1, b2, b3, b4, b5, b6, b7, b8, b9⟩, c1, c2, c3, c4, c5, c6, c7⟩, p⟩, n⟩ := h
  refine ⟨a1, by simp [a2], by simp [a2, a3], a4, fun _ => ⟨b1, b2, b3, b4, b5, b6, b7, b8, b9, c1, c2, c3,
    c4, written_of c5, fun h h' => written_of (c6 h h'), fun h h' => written_of (c7 h h'), ?_⟩⟩
  intro σ
  cases σ
  · exact polarity_of p
  · exact polarity_of n

/-! ### The states of the tests -/

/-- Before `INIT`: a DENSE engine of 4 words, 1 channel, 2 taps, with scratch; V21's taps 0.0, 1.0 and
targets 1.0, 0.0; a block of 3 frames. -/
def denseLoaded : State :=
  { State.powerOn small with
    x := { OperandRegs.reset with buflen := 4, channels := 1, ntapsA := 2, morphEn := 1, block := 3,
                                  steps := 3, tlenA := 2 }
    mem := { Memory.unwritten with
      dtap := [(0, 0x00000000#32), (1, 0x3F800000#32)]
      dtgt := [(0, 0x3F800000#32), (1, 0x00000000#32)]
      inp := [(0, 0x3F800000#32), (1, 0x40000000#32), (2, 0x00000000#32)] } }

def denseReady : State := after (exec .init denseLoaded) denseLoaded
def denseBusy : State := after (exec .startMorph denseReady) denseReady
def denseSecond : State := after (exec .updateMorph denseBusy) denseBusy
def denseLast : State := after (exec .updateMorph denseSecond) denseSecond
def denseDone : State := after (exec .updateMorph denseLast) denseLast

/-- Before `INIT`: a SPARSE engine of 5 words (MODULO), 2 channels, pairs at delays 1 and 0. -/
def sparseLoaded : State :=
  { State.powerOn small with
    x := { OperandRegs.reset with kind := 1, buflen := 5, channels := 2, ntapsA := 2, block := 2 }
    mem := { Memory.unwritten with
      spos := [(0, 1#32), (1, 0#32)]
      sval := [(0, 0x3F800000#32), (1, 0x3F000000#32)]
      inp := [(0, 0x3F800000#32), (1, 0x40000000#32), (2, 0x00000000#32), (3, 0x3F000000#32)] } }

def sparseReady : State := after (exec .init sparseLoaded) sparseLoaded

/-- Before `INIT`: a VELVET engine of 16 words, 3 channels; V31 with smaller delays: two positive taps
toward four, one negative tap toward none, capacities 4 and 1. -/
def velvetLoaded : State :=
  { State.powerOn small with
    x := { OperandRegs.reset with kind := 2, buflen := 16, channels := 3, ntapsA := 2, ntapsB := 1,
                                  morphEn := 1, capP := 4, capN := 1, block := 1, tlenA := 4, tlenB := 0 }
    mem := { Memory.unwritten with
      vpos := [(0, 1#32), (1, 2#32)]
      vneg := [(0, 3#32)]
      vtp := [(0, 0#32), (1, 1#32), (2, 3#32), (3, 4#32)]
      inp := [(0, 0x3F800000#32), (1, 0x40000000#32), (2, 0x3F000000#32)] } }

def velvetReady : State := after (exec .init velvetLoaded) velvetLoaded
def velvetBusy : State := after (exec .startMorph velvetReady) velvetReady
def velvetMid : State := after (exec .updateMorph velvetBusy) velvetBusy

/-- A block in FAULT. -/
def faulted : State := raiseFault .illegalCmd denseReady

theorem inv_denseReady : MachineInv denseReady := inv_of (by decide +kernel)
theorem inv_denseBusy : MachineInv denseBusy := inv_of (by decide +kernel)
theorem inv_denseLast : MachineInv denseLast := inv_of (by decide +kernel)
theorem inv_denseDone : MachineInv denseDone := inv_of (by decide +kernel)
theorem inv_sparseReady : MachineInv sparseReady := inv_of (by decide +kernel)
theorem inv_velvetReady : MachineInv velvetReady := inv_of (by decide +kernel)
theorem inv_velvetBusy : MachineInv velvetBusy := inv_of (by decide +kernel)
theorem inv_velvetMid : MachineInv velvetMid := inv_of (by decide +kernel)

/-! ### Decoding: the words of R101, bit by bit -/

theorem test_decode_init : decode 0b00000000000000000000000000000001#32 = .ok .init := by decide
theorem test_decode_process : decode 0b00000000000000000000000000000010#32 = .ok .process := by decide
theorem test_decode_start_morph : decode 0b00000000000000000000000000000011#32 = .ok .startMorph := by
  decide
theorem test_decode_update_morph : decode 0b00000000000000000000000000000100#32 = .ok .updateMorph := by
  decide
theorem test_decode_is_morphing : decode 0b00000000000000000000000000000101#32 = .ok .isMorphing := by
  decide

theorem test_decode_table_word : decodeTableWord 32 3 = some .startMorph ∧ decodeTableWord 32 6 = none := by
  decide

/-! ### WellFormed refuses (V50, V51, V52; R81, R70) -/

theorem test_ill_formed_zero_field : commandWordOk 0x00000102#32 = false := by decide
theorem test_ill_formed_opcode_high : commandWordOk 0x00000006#32 = false := by decide
theorem test_ill_formed_opcode_low : commandWordOk 0x00000000#32 = false := by decide
theorem test_ill_formed_engine_write : (HostMove.writeM .acc 0 0).wellFormed small = false := by decide
theorem test_ill_formed_write_beyond : (HostMove.writeM .dtap 5 0).wellFormed small = false := by decide
theorem test_ill_formed_read_beyond : (HostMove.readM .vtsn 5).wellFormed small = false := by decide

/-! ### One step of each command -/

/-- V8: `STATUS` after `INIT`. -/
theorem test_init_status :
    ((after (exec .init { State.powerOn small with
      x := { OperandRegs.reset with buflen := 16, channels := 2, ntapsA := 5 } })
      State.reset).c.get 0) = 0x00000019#32 := by decide +kernel

/-- V56: the first failing check decides. -/
theorem test_init_fault : ((after (exec .init State.reset) State.reset).c.get 0) = 0x00050002#32 := by
  decide +kernel

/-- V14: six taps on a buffer of four words, one frame: the pending words after the emit. -/
theorem test_process_alias :
    let s := { State.powerOn { small with irDepth := 6 } with
      x := { OperandRegs.reset with buflen := 4, channels := 1, ntapsA := 6, block := 1 }
      mem := { Memory.unwritten with
        dtap := [(0, 0x3F800000#32), (1, 0x40000000#32), (2, 0x40400000#32), (3, 0x40800000#32),
          (4, 0x40A00000#32), (5, 0x40C00000#32)]
        inp := [(0, 0x3F800000#32)] } }
    let t := after (exec .process (after (exec .init s) s)) s
    t.mem.out = [(0, 0x40C00000#32)] ∧ t.c.wh = 1 ∧
      t.mem.acc = [(0, 0#32), (1, 0x41000000#32), (2, 0x40400000#32), (3, 0x40800000#32)] := by
  decide +kernel

/-- V15: more channels than words. -/
theorem test_process_more_channels_than_words :
    let s := { State.powerOn small with
      x := { OperandRegs.reset with buflen := 2, channels := 3, ntapsA := 1, block := 1 }
      mem := { Memory.unwritten with
        dtap := [(0, 0x3F800000#32)]
        inp := [(0, 0x3F800000#32), (1, 0x40000000#32), (2, 0x40400000#32)] } }
    (after (exec .process (after (exec .init s) s)) s).mem.out =
      [(0, 0x40800000#32), (1, 0x40000000#32), (2, 0x00000000#32)] := by
  decide +kernel

/-- V21: the deltas of a start. -/
theorem test_start_dense :
    denseBusy.mem.ddel = [(0, 0x3EAAAAAB#32), (1, 0xBEAAAAAB#32)] ∧ denseBusy.c.mrem = 3 := by
  decide +kernel

/-- V31: the registers after a velvet start. -/
theorem test_start_velvet :
    velvetBusy.c.pos = { len := 2, rc := 2, pc := 0, tl := 4, cap := 4 } ∧
      velvetBusy.c.neg = { len := 1, rc := 1, pc := 0, tl := 0, cap := 1 } := by
  decide +kernel

/-- V21: update 2 and the snap of update 3. -/
theorem test_update_dense :
    denseLast.mem.dcur = [(0, 0x3F2AAAAB#32), (1, 0x3EAAAAA9#32)] ∧
      denseDone.mem.dcur = [(0, 0x3F800000#32), (1, 0x00000000#32)] := by
  decide +kernel

/-- V31: update 1 substitutes slot 1 of the positive list and removes the negative one. -/
theorem test_update_velvet :
    velvetMid.mem.vcurp = [(0, 1#32), (1, 0#32)] ∧ velvetMid.c.pos.rc = 1 ∧ velvetMid.c.pos.pc = 1 ∧
      velvetMid.c.neg.len = 0 := by
  decide +kernel

/-- V41, V42: the query during a dense morph and after it. -/
theorem test_query :
    (after (exec .isMorphing denseLast) denseLast).c.result = 1 ∧
      (after (exec .isMorphing denseDone) denseDone).c.result = 0 := by
  decide +kernel

/-! ### Witnesses: reset and the whole machine -/

theorem witness_HardwareResetClearsRegistersKeepsMemory :
    (hosting faulted [.reset]).host = .reset :: [] := rfl

theorem witness_EveryStepKeepsInvariant :
    MachineInv (hosting denseReady [.command 2]) ∧ ∃ t, step (hosting denseReady [.command 2]) = .next t :=
  ⟨inv_of (by decide +kernel), exists_next (by decide +kernel)⟩

theorem witness_CommandsNeverFaultOnMemory :
    MachineInv (hosting velvetMid [.command 4]) ∧ (hosting velvetMid [.command 4]).host = [.command 4] :=
  ⟨inv_of (by decide +kernel), rfl⟩

/-- `PROCESS` before the host has loaded `IN`. -/
theorem witness_CommandsReadOnlyWrittenEngineWords :
    let s := hosting { denseReady with mem := { denseReady.mem with inp := [] } } [.command 2]
    MachineInv s ∧ s.host = [.command 2] ∧ step s = .refused (.unwrittenWord .inp 0) :=
  ⟨inv_of (by decide +kernel), rfl, eq_refused (by decide +kernel)⟩

/-- V61: two violations; and an illegal word. -/
theorem witness_FaultsArePrecise :
    let s := { denseReady with x := { denseReady.x with steps := 0, tlenA := 3 } }
    s.c.st ≠ .fault ∧ issue 3 s = .next (after (issue 3 s) s) ∧ (after (issue 3 s) s).c.st = .fault ∧
      issue 6 s = .next (after (issue 6 s) s) ∧ (after (issue 6 s) s).c.st = .fault :=
  ⟨by decide +kernel, next_after (by decide +kernel) _, by decide +kernel,
    next_after (by decide +kernel) _, by decide +kernel⟩

theorem witness_FirstFailingCheckDecidesFault :
    wordFault 1 State.reset = some .zeroBuflen ∧ wordFault 0 State.reset = some .illegalCmd ∧
      faulted.c.st = .fault ∧ denseReady.c.st ≠ .fault ∧ wordFault 3 denseReady = none ∧
      ∃ t, issue 3 denseReady = .next t :=
  ⟨by decide +kernel, by decide +kernel, by decide +kernel, by decide +kernel, by decide +kernel,
    exists_next (by decide +kernel)⟩

/-- Each clause: a command, a host write of the last word of a memory, and reset, all in FAULT. -/
theorem witness_FaultIsStickyUntilReset :
    faulted.c.st = .fault ∧ (HostMove.writeM .dtap 4 0).wellFormed faulted.params = true ∧
      (∃ t, step (hosting faulted [.command 2]) = .next t) ∧
      (∃ t, step (hosting faulted [.writeM .dtap 4 0]) = .next t) ∧
      ∃ t, step (hosting faulted [.reset]) = .next t :=
  ⟨by decide +kernel, by decide +kernel, exists_next (by decide +kernel),
    exists_next (by decide +kernel), exists_next (by decide +kernel)⟩

theorem witness_IllegalWordFaults :
    (∀ w ∈ [0x00000000#32, 0x00000006#32, 0x00000102#32, 0xFFFFFFFF#32],
      w ∉ [1#32, 2#32, 3#32, 4#32, 5#32]) ∧
      (hosting denseReady [.command 6]).host = .command 6 :: [] ∧ denseReady.c.st ≠ .fault ∧
      (hosting faulted [.command 6]).host = .command 6 :: [] ∧ faulted.c.st = .fault :=
  ⟨by simp, rfl, by decide +kernel, rfl, by decide +kernel⟩

theorem witness_CommandBeforeInitFaults :
    Instr.process ≠ .init ∧ State.reset.c.st = .uninit ∧ 0x00000006#32 ∉ [1#32, 2#32, 3#32, 4#32, 5#32] := by
  decide

theorem witness_ProcessNeverFaults :
    MachineInv denseReady ∧ denseReady.c.st = .ready ∧ ∃ t, exec .process denseReady = .next t :=
  ⟨inv_denseReady, by decide +kernel, exists_next (by decide +kernel)⟩

theorem witness_LifeCycleTransitions :
    (∃ t, step (hosting faulted [.reset]) = .next t) ∧ denseLoaded.c.st = .uninit ∧
      initFault denseLoaded = none ∧ wordFault 5 denseLoaded = some .notInit ∧
      ∃ t, step (hosting denseLoaded [.command 1]) = .next t ∧ t.c.st = .ready :=
  ⟨exists_next (by decide +kernel), by decide +kernel, by decide +kernel, by decide +kernel,
    _, next_after (by decide +kernel) State.reset, by decide +kernel⟩

theorem witness_StatusRegistersHaveTheirWriters :
    (∃ t, exec .updateMorph velvetBusy = .next t) ∧ Instr.updateMorph ∉ statusWriters 10 ∧
      ∃ t, step (hosting velvetBusy [.writeX 3 9]) = .next t :=
  ⟨exists_next (by decide +kernel), by decide, exists_next (by decide +kernel)⟩

theorem witness_CommandsLeaveHostStateAlone :
    (∃ t, exec .startMorph velvetReady = .next t) ∧ Space.vtp.hostOwned = true :=
  ⟨exists_next (by decide +kernel), by decide⟩

theorem witness_OnlyInitChangesConfiguration :
    Instr.updateMorph ≠ .init ∧ (∃ t, exec .updateMorph denseBusy = .next t) ∧ denseBusy.c.tapSrc = .cur :=
  ⟨by decide, exists_next (by decide +kernel), by decide +kernel⟩

theorem witness_MorphCommandsLeaveAccumulator :
    (∃ t, exec .startMorph denseBusy = .next t) ∧ (∃ t, exec .updateMorph denseLast = .next t) ∧
      ∃ t, exec .isMorphing velvetMid = .next t :=
  ⟨exists_next (by decide +kernel), exists_next (by decide +kernel), exists_next (by decide +kernel)⟩

/-- `PROCESS` reads `x[8]` alone; its three answers. The fault is that of a state no run reaches: a buffer
longer than its memory. -/
theorem witness_CommandsReadOnlyTheirOperands :
    (∀ j, readsOperand .process denseReady j →
      ({ denseReady.x with kind := 77, steps := 0 } : OperandRegs).get j = denseReady.x.get j) ∧
    (∃ t, exec .process denseReady = .next t) ∧
    exec .process { denseReady with params := { small with accDepth := 0 } } = .fault (.beyondDepth .acc 0) ∧
    exec .process { denseReady with mem := { denseReady.mem with dtap := [] } } =
      .refused (.unwrittenWord .dtap 0) := by
  refine ⟨?_, exists_next (by decide +kernel), eq_fault (by decide +kernel), eq_refused (by decide +kernel)⟩
  intro j hj
  have h8 : j = 8 := Fin.ext hj
  subst h8
  rfl

theorem witness_ViewsUnreadOnceMorphed :
    let u := { denseBusy with mem := { denseBusy.mem with dtap := [] } }
    denseBusy.c.tapSrc = .cur ∧ denseBusy.c.kind ≠ .sparse ∧ u.x = denseBusy.x ∧ u.c = denseBusy.c ∧
      u.params = denseBusy.params ∧ u.draws = denseBusy.draws ∧
      (∀ sp, ¬ IsView sp → ∀ j, u.peek sp j = denseBusy.peek sp j) ∧
      ∃ t, exec .process denseBusy = .next t := by
  refine ⟨by decide +kernel, by decide +kernel, rfl, rfl, rfl, rfl, ?_, exists_next (by decide +kernel)⟩
  intro sp h j
  cases sp <;> first | rfl | exact absurd (by simp [IsView]) h

/-! ### Witnesses: the step and the host's moves -/

theorem witness_StepRunsDecodedCommand :
    (hosting denseLoaded [.command 1]).host = .command 1 :: [] ∧ decode 1 = .ok .init ∧
      Instr.init.wellFormed = true := by
  decide +kernel

theorem witness_OperandRegistersReadWrite :
    (hosting faulted [.writeX 11 0xFFFFFFFF, .readX 11]).host = .writeX 11 0xFFFFFFFF :: .readX 11 :: [] := rfl

/-- The last word of `VTP`, and a word of `ACC`. -/
theorem witness_HostWriteChangesOneWord :
    (hosting denseReady [.writeM .vtp 4 7]).host = .writeM .vtp 4 7 :: [] ∧ Space.vtp.hostOwned = true ∧
      denseReady.params.hasWord .vtp 4 = true ∧
      (hosting denseReady [.writeM .acc 0 7]).host = .writeM .acc 0 7 :: [] ∧ Space.acc.hostOwned = false := by
  decide +kernel

theorem witness_HostReadsChangeNothing :
    (hosting denseReady [.readX 0]).host = [.readX 0] ∧ (hosting denseReady [.readC 17]).host = [.readC 17] ∧
      (hosting denseReady [.readField .fcode]).host = [.readField .fcode] ∧
      denseReady.params.hasWord .acc 15 = true ∧ denseReady.peek .acc 15 = none ∧
      denseReady.peek .acc 0 = some 0 := by
  decide +kernel

theorem witness_StatusFieldsAtTheirBits :
    (hosting denseBusy [.writeX 0 2]).host = .writeX 0 2 :: [] ∧ HostMove.writeX 0 2 ≠ .reset ∧
      (∀ w, HostMove.writeX 0 2 ≠ .command w) ∧ ∃ t, step (hosting denseBusy [.writeX 0 2]) = .next t :=
  ⟨rfl, by simp, by simp, exists_next (by decide +kernel)⟩

theorem witness_PseudoInstructionsRunTheirMoves :
    (hosting State.reset (scriptInit 2 16 3 2 1 1 4 1)).host = scriptInit 2 16 3 2 1 1 4 1 ++ [] ∧
      (hosting denseLast scriptIsMorphing).host = scriptIsMorphing ++ [] ∧
      ∃ t, exec .isMorphing { hosting denseLast scriptIsMorphing with host := [] } = .next t :=
  ⟨by decide +kernel, by decide +kernel, exists_next (by decide +kernel)⟩

/-! ### Witnesses: INIT and PROCESS -/

/-- A length that is a power of two, and one that is not. -/
theorem witness_InitBindsAndClears :
    denseLoaded.c.st ≠ .fault ∧ initFault denseLoaded = none ∧ sparseLoaded.c.st ≠ .fault ∧
      initFault sparseLoaded = none := by
  decide +kernel

/-- VELVET with scratch, and DENSE with scratch that does not fit (V10). -/
theorem witness_InitMorphBinding :
    velvetLoaded.c.st ≠ .fault ∧ initFault velvetLoaded = none ∧
      initFault { denseLoaded with params := { small with scrDepth := 1 } } = none := by
  decide +kernel

/-- The taps and the block of the three engines are loaded. -/
theorem witness_ProcessCompletesWithFrame :
    (MachineInv denseReady ∧ denseReady.c.st = .ready ∧ TapsLoaded denseReady ∧ BlockLoaded denseReady) ∧
    (MachineInv sparseReady ∧ sparseReady.c.st = .ready ∧ TapsLoaded sparseReady ∧ BlockLoaded sparseReady) ∧
    MachineInv velvetMid ∧ velvetMid.c.st = .ready ∧ TapsLoaded velvetMid ∧ BlockLoaded velvetMid := by
  have kd : denseReady.c.kind = .dense := by decide +kernel
  have ks : sparseReady.c.kind = .sparse := by decide +kernel
  have kv : velvetMid.c.kind = .velvet := by decide +kernel
  refine ⟨⟨inv_denseReady, by decide +kernel, ?_, written_of (by decide +kernel)⟩,
    ⟨inv_sparseReady, by decide +kernel, ?_, written_of (by decide +kernel)⟩,
    inv_velvetMid, by decide +kernel, ?_, written_of (by decide +kernel)⟩
  · rw [TapsLoaded, kd]
    exact written_of (by decide +kernel)
  · rw [TapsLoaded, ks]
    exact ⟨written_of (by decide +kernel), written_of (by decide +kernel)⟩
  · rw [TapsLoaded, kv]
    intro σ
    cases σ
    · exact written_of (by decide +kernel)
    · exact written_of (by decide +kernel)

theorem witness_ZeroBlockIsNoOp :
    let s := { denseReady with x := { denseReady.x with block := 0 } }
    s.c.st = .ready ∧ s.x.block = 0 := by
  decide +kernel

/-- E3: a VELVET engine with no tap; `IN` is not even written. -/
theorem witness_EmptyIRIsSilent :
    let s0 := { State.powerOn small with
      x := { OperandRegs.reset with kind := 2, buflen := 8, channels := 2, block := 3 } }
    let s := after (exec .init s0) s0
    MachineInv s ∧ s.c.st = .ready ∧
      (s.c.kind = .velvet → s.c.liveCount .pos = 0 ∧ s.c.liveCount .neg = 0) ∧
      (s.c.kind ≠ .velvet → s.c.na = 0) ∧
      ∀ i, i < s.c.bufLen.toNat → s.peek .acc i = some 0x00000000#32 :=
  ⟨inv_of (by decide +kernel), by decide +kernel, by decide +kernel, by decide +kernel,
    by decide +kernel⟩

/-- The no-alias condition holds of each engine, at its boundary for DENSE and VELVET shapes of this size. -/
theorem witness_ProcessIsFirFilter :
    (∀ tap ∈ liveTaps denseReady, (tap.delay + 1) * denseReady.c.channels.toNat ≤ denseReady.c.bufLen.toNat) ∧
    (∀ tap ∈ liveTaps sparseReady,
      (tap.delay + 1) * sparseReady.c.channels.toNat ≤ sparseReady.c.bufLen.toNat) ∧
    (∀ tap ∈ liveTaps velvetMid, (tap.delay + 1) * velvetMid.c.channels.toNat ≤ velvetMid.c.bufLen.toNat) ∧
    denseReady.c.channels.toNat ≤ denseReady.c.bufLen.toNat ∧
    sparseReady.c.channels.toNat ≤ sparseReady.c.bufLen.toNat ∧
    velvetMid.c.channels.toNat ≤ velvetMid.c.bufLen.toNat := by
  decide +kernel

/-- The first and the last key of the window that the block of `denseReady` leaves pending. -/
theorem witness_ProcessLeavesPendingContributions :
    MachineInv denseReady ∧ denseReady.c.st = .ready ∧
      (∀ tap ∈ liveTaps denseReady,
        (tap.delay + 1) * denseReady.c.channels.toNat ≤ denseReady.c.bufLen.toNat) ∧
      denseReady.c.channels.toNat ≤ denseReady.c.bufLen.toNat ∧
      (∃ t, exec .process denseReady = .next t) ∧
      ∀ m ∈ [3, 6], 0 < denseReady.c.channels.toNat ∧ denseReady.x.block.toNat ≤ m ∧
        m * denseReady.c.channels.toNat + 0 <
          denseReady.x.block.toNat * denseReady.c.channels.toNat + denseReady.c.bufLen.toNat :=
  ⟨inv_denseReady, by decide +kernel, by decide +kernel, by decide +kernel,
    exists_next (by decide +kernel), by decide +kernel⟩

/-- The block of `denseReady` cut to its first frame, and the state after it. -/
def firstFrame : State := { denseReady with x := { denseReady.x with block := 1 } }
def afterFirst : State := after (exec .process firstFrame) firstFrame

/-- `t` with the other two frames at the front of `IN`. -/
def restOf (t : State) : State :=
  { t with
    x := { t.x with block := 2 }
    mem := { t.mem with inp := [(0, 0x40000000#32), (1, 0x00000000#32)] } }

theorem restOf_same (t : State) : (restOf t).c = t.c ∧ (restOf t).params = t.params ∧
    (restOf t).draws = t.draws ∧ (restOf t).x.block = 2 ∧
    ∀ sp, sp ≠ .inp → ∀ j, (restOf t).peek sp j = t.peek sp j := by
  refine ⟨rfl, rfl, rfl, rfl, fun sp h j => ?_⟩
  cases sp <;> first | rfl | exact absurd rfl h

/-- The block of 3 frames as 1 frame and then 2. -/
theorem witness_BlockSizeInvariance :
    (MachineInv denseReady ∧ denseReady.c.st = .ready ∧
      denseReady.x.block.toNat = (1#32).toNat + (2#32).toNat ∧ (∃ t, exec .process denseReady = .next t) ∧
      exec .process firstFrame = .next afterFirst) ∧
    ((restOf afterFirst).c = afterFirst.c ∧ (restOf afterFirst).params = afterFirst.params ∧
      (restOf afterFirst).draws = afterFirst.draws ∧ (restOf afterFirst).x.block = 2 ∧
      ∀ sp, sp ≠ .inp → ∀ j, (restOf afterFirst).peek sp j = afterFirst.peek sp j) ∧
    ∀ k, k < 2 * denseReady.c.channels.toNat →
      (restOf afterFirst).peek .inp k = denseReady.peek .inp (1 * denseReady.c.channels.toNat + k) :=
  ⟨⟨inv_denseReady, by decide +kernel, by decide +kernel, exists_next (by decide +kernel),
    next_after (by decide +kernel) _⟩, restOf_same _, by decide +kernel⟩

/-! ### Witnesses: wrap arithmetic and fan-out -/

theorem witness_WrapIsRemainder :
    (denseReady.c.policy = policyOf denseReady.c.bufLen ∧ 0 < denseReady.c.bufLen.toNat) ∧
      sparseReady.c.policy = policyOf sparseReady.c.bufLen ∧ 0 < sparseReady.c.bufLen.toNat := by
  decide +kernel

theorem witness_WrapLaws :
    sparseReady.c.policy = policyOf sparseReady.c.bufLen ∧ 0 < sparseReady.c.bufLen.toNat ∧
      4 < sparseReady.c.bufLen.toNat := by
  decide +kernel

theorem witness_MaskPolicyForPowersOfTwo :
    denseLoaded.c.st ≠ .fault ∧ initFault denseLoaded = none ∧ denseLoaded.x.buflen.toNat = 2 ^ 2 ∧
      sparseLoaded.c.st ≠ .fault ∧ initFault sparseLoaded = none := by
  decide +kernel

theorem witness_FanoutLayoutsAgree :
    denseReady.c.layout = layoutOf denseReady.c.channels ∧ sparseReady.c.layout = layoutOf sparseReady.c.channels ∧
      velvetReady.c.layout = layoutOf velvetReady.c.channels := by
  decide +kernel

/-! ### Witnesses: the morphs and the query -/

/-- The first start, and a start while a morph is active (R194). -/
theorem witness_DenseStartSetsDeltas :
    (MachineInv denseReady ∧ denseReady.c.st = .ready ∧ denseReady.c.kind = .dense ∧
      startFault denseReady = none ∧ Written denseReady .dtgt denseReady.c.na.toNat ∧
      (denseReady.c.tapSrc = .ir → Written denseReady .dtap denseReady.c.na.toNat)) ∧
    MachineInv denseBusy ∧ denseBusy.c.st = .ready ∧ denseBusy.c.kind = .dense ∧
      startFault denseBusy = none ∧ Written denseBusy .dtgt denseBusy.c.na.toNat ∧
      (denseBusy.c.tapSrc = .ir → Written denseBusy .dtap denseBusy.c.na.toNat) :=
  ⟨⟨inv_denseReady, by decide +kernel, by decide +kernel, by decide +kernel, written_of (by decide +kernel),
    fun _ => written_of (by decide +kernel)⟩, inv_denseBusy, by decide +kernel, by decide +kernel,
    by decide +kernel, written_of (by decide +kernel), fun _ => written_of (by decide +kernel)⟩

/-- No step left, one step left, three steps left. -/
theorem witness_DenseUpdateStepsAndSnaps :
    ∀ s ∈ [denseDone, denseLast, denseBusy], MachineInv s ∧ s.c.st = .ready ∧ s.c.kind = .dense ∧
      s.c.morphEn = true ∧ Written s .dtgt s.c.na.toNat := by
  intro s hs
  simp only [List.mem_cons, List.not_mem_nil, or_false] at hs
  rcases hs with rfl | rfl | rfl
  · exact ⟨inv_denseDone, by decide +kernel, by decide +kernel, by decide +kernel, written_of (by decide +kernel)⟩
  · exact ⟨inv_denseLast, by decide +kernel, by decide +kernel, by decide +kernel, written_of (by decide +kernel)⟩
  · exact ⟨inv_denseBusy, by decide +kernel, by decide +kernel, by decide +kernel, written_of (by decide +kernel)⟩

theorem test_dense_steps_left : denseDone.c.mrem = 0 ∧ denseLast.c.mrem = 1 ∧ denseBusy.c.mrem = 3 := by
  decide +kernel

theorem witness_DenseMorphTakesItsSteps :
    MachineInv denseBusy ∧ denseBusy.c.st = .ready ∧ denseBusy.c.kind = .dense ∧
      denseBusy.c.morphEn = true ∧ Written denseBusy .dtgt denseBusy.c.na.toNat ∧
      0 < denseBusy.c.mrem.toNat ∧ denseBusy.c.mrem.toNat ≤ 3 :=
  ⟨inv_denseBusy, by decide +kernel, by decide +kernel, by decide +kernel, written_of (by decide +kernel),
    by decide +kernel, by decide +kernel⟩

/-- The first start, and a start while a morph is active (R214). -/
theorem witness_VelvetStartSnapshots :
    (MachineInv velvetReady ∧ velvetReady.c.st = .ready ∧ velvetReady.c.kind = .velvet ∧
      startFault velvetReady = none ∧
      (∀ σ, Written velvetReady (targetSpace σ) (velvetReady.x.targetCount σ).toNat) ∧
      (velvetReady.c.tapSrc = .ir →
        ∀ σ, Written velvetReady (viewSpace σ) (velvetReady.c.viewCount σ).toNat)) ∧
    MachineInv velvetMid ∧ velvetMid.c.st = .ready ∧ velvetMid.c.kind = .velvet ∧
      startFault velvetMid = none ∧ velvetMid.c.tapSrc = .cur ∧
      ∀ σ, Written velvetMid (targetSpace σ) (velvetMid.x.targetCount σ).toNat := by
  refine ⟨⟨inv_velvetReady, by decide +kernel, by decide +kernel, by decide +kernel, ?_, fun _ => ?_⟩,
    inv_velvetMid, by decide +kernel, by decide +kernel, by decide +kernel, by decide +kernel, ?_⟩
  all_goals
    intro σ
    cases σ
    · exact written_of (by decide +kernel)
    · exact written_of (by decide +kernel)

/-- The hypotheses of the update, count, schedule and final-contents statements, at the start and in the
middle of a morph. -/
theorem witness_VelvetUpdateStepsEachPolarity :
    (MachineInv velvetBusy ∧ velvetBusy.c.st = .ready ∧ velvetBusy.c.kind = .velvet ∧
      velvetBusy.c.morphEn = true ∧ stepSlot .regression velvetBusy.c.pos = some 1 ∧
      stepSlot .progression velvetBusy.c.pos = some 0 ∧ stepSlot .regression velvetBusy.c.neg = none) ∧
    MachineInv velvetMid ∧ velvetMid.c.st = .ready ∧ velvetMid.c.kind = .velvet ∧
      velvetMid.c.morphEn = true ∧ stepSlot .regression velvetMid.c.pos = some 0 :=
  ⟨⟨inv_velvetBusy, by decide +kernel, by decide +kernel, by decide +kernel, by decide +kernel,
    by decide +kernel, by decide +kernel⟩, inv_velvetMid, by decide +kernel, by decide +kernel,
    by decide +kernel, by decide +kernel⟩

theorem witness_PolarityOrderUnobservable :
    ∃ t, andThen (velvetStep .pos velvetBusy) (velvetStep .neg) = .next t := exists_next (by decide +kernel)

theorem witness_VelvetMorphStepCount :
    MachineInv velvetMid ∧ velvetMid.c.st = .ready ∧ velvetMid.c.kind = .velvet ∧
      velvetMid.c.morphEn = true :=
  ⟨inv_velvetMid, by decide +kernel, by decide +kernel, by decide +kernel⟩

/-- A fresh start with 2 toward 4 elements and 1 toward 0: substitutions, appends, a removal, completion. -/
theorem witness_VelvetScheduleFromFreshStart :
    MachineInv velvetBusy ∧ velvetBusy.c.st = .ready ∧ velvetBusy.c.kind = .velvet ∧
      velvetBusy.c.morphEn = true ∧ (∀ σ, (velvetBusy.c.pol σ).pc = 0) ∧
      (1 < min velvetBusy.c.pos.len.toNat velvetBusy.c.pos.tl.toNat) ∧
      (min velvetBusy.c.pos.len.toNat velvetBusy.c.pos.tl.toNat ≤ 2 ∧ 2 < velvetBusy.c.pos.tl.toNat) ∧
      (min velvetBusy.c.neg.len.toNat velvetBusy.c.neg.tl.toNat ≤ 0 ∧ 0 < velvetBusy.c.neg.len.toNat) ∧
      max velvetBusy.c.pos.len.toNat velvetBusy.c.pos.tl.toNat ≤ 4 := by
  refine ⟨inv_velvetBusy, by decide +kernel, by decide +kernel, by decide +kernel, ?_, by decide +kernel⟩
  intro σ
  cases σ
  · decide +kernel
  · decide +kernel

theorem witness_VelvetFinalContents :
    MachineInv velvetBusy ∧ velvetBusy.c.st = .ready ∧ velvetBusy.c.kind = .velvet ∧
      velvetBusy.c.morphEn = true ∧ (velvetBusy.c.pol .pos).pc = 0 ∧
      max (velvetBusy.c.pol .pos).len.toNat (velvetBusy.c.pol .pos).tl.toNat ≤ 4 ∧
      3 < (velvetBusy.c.pol .pos).tl.toNat :=
  ⟨inv_velvetBusy, by decide +kernel, by decide +kernel, by decide +kernel, by decide +kernel,
    by decide +kernel, by decide +kernel⟩

theorem witness_QueryAnswersMorphing :
    denseReady.c.st = .ready ∧ sparseReady.c.st = .ready ∧ velvetMid.c.st = .ready := by
  decide +kernel

/-! ### Witnesses: binary32 -/

/-- 3/2 units lie between 1 and 2, equally near; the least value that becomes infinity. -/
theorem witness_RoundingIsToNearestEven :
    0 < 2 ∧ F32.roundMag 3 2 < F32.infMag ∧ 1 < F32.infMag ∧ 1 ≠ F32.roundMag 3 2 ∧
      ((F32.unitsOfMag 1 * 2 : Int) - 3).natAbs =
        ((F32.unitsOfMag (F32.roundMag 3 2) * 2 : Int) - 3).natAbs ∧
      F32.roundMag ((2 ^ 25 - 1) * 2 ^ 252) 1 = F32.infMag ∧
      F32.roundMag ((2 ^ 25 - 1) * 2 ^ 252 - 1) 1 < F32.infMag := by
  decide +kernel

theorem witness_ConversionExactUpTo24Bits : 2 ^ 24 ≤ 2 ^ 24 := Nat.le_refl _

theorem witness_Binary32Facts :
    F32.isNaN 0x80000000#32 = false ∧ F32.isInf 0x80000000#32 = false ∧ F32.isNaN 0x7F800000#32 = false ∧
      0x7F800000#32 ≠ 0x80000000#32 := by
  decide

theorem witness_NaNDrawIsAnyNaN : F32.isNaN 0xFFC00001#32 = true := by decide

end Sys2Proof.Tests
end

/-! ## The registers and the life cycle (10_state.md R22, R31, R32)

The reading and writing of the operand registers, the bits of `STATUS`, what the host's moves leave alone,
the checks of each command as the fault table's row, and the states a command can end in. -/

section OperandRegisters

/-! ### The operand registers (R21, R22) -/

namespace Sys2Proof.Machine

/-- What an operand register holds after a write to one of them (R22): no two registers are the same. -/
theorem OperandRegs.get_set (x : OperandRegs) (i j : Fin 12) (v : Word) :
    (x.set i v).get j = if j = i then v else x.get j := by
  fin_cases i <;> fin_cases j <;> rfl

theorem OperandRegs.get_set_same (x : OperandRegs) (i : Fin 12) (v : Word) :
    (x.set i v).get i = v := by
  rw [get_set, if_pos rfl]

theorem OperandRegs.get_set_ne (x : OperandRegs) {i j : Fin 12} (v : Word) (h : j ≠ i) :
    (x.set i v).get j = x.get j := by
  rw [get_set, if_neg h]

theorem step_writeX {s : State} {i : Fin 12} {v : Word} {rest : List HostMove}
    (h : s.host = .writeX i v :: rest) :
    step s = .next { s with x := s.x.set i v, host := rest } := step_cons h

theorem step_readX {s : State} {i : Fin 12} {rest : List HostMove} (h : s.host = .readX i :: rest) :
    step s = .next { s with host := rest, answers := s.x.get i :: s.answers } := step_cons h

/-- Settles O24: by the rule for a read after a write, and the two moves' steps. -/
theorem operandRegistersReadWrite : Obligations.OperandRegistersReadWrite := by
  intro s i v rest h
  refine ⟨_, step_writeX h, OperandRegs.get_set_same _ i v,
    fun j hj => OperandRegs.get_set_ne _ v hj, rfl, ?_⟩
  rw [step_readX rfl, OperandRegs.get_set_same]

end Sys2Proof.Machine

end OperandRegisters

section HostMoves

/-! ### The host's moves on the status registers (R81) -/

namespace Sys2Proof.Machine

/-- No host move but a command or hardware reset changes a status register (R30, R81). -/
theorem hostMove_c {m : HostMove} {s t : State} (hr : m ≠ .reset) (hc : ∀ w, m ≠ .command w)
    (h : hostMove m s = .next t) : t.c = s.c := by
  cases m with
  | writeX i v => cases h; rfl
  | readX i => cases h; rfl
  | readC i => cases h; rfl
  | readField f => cases h; rfl
  | writeM sp i v =>
    simp only [hostMove, hostWrite] at h
    split at h
    · obtain ⟨_, rfl⟩ := memWrite_eq_next.1 h
      rfl
    · cases h
  | readM sp i =>
    simp only [hostMove, hostRead] at h
    split at h <;> cases h
    rfl
  | command w => exact absurd rfl (hc w)
  | reset => exact absurd rfl hr

/-- `hostMove_c` for the host's next move. -/
theorem step_c_of_no_command {s t : State} {m : HostMove} {rest : List HostMove}
    (hm : s.host = m :: rest) (hr : m ≠ .reset) (hc : ∀ w, m ≠ .command w)
    (h : step s = .next t) : t.c = s.c := by
  rw [step_cons hm] at h
  exact (hostMove_c hr hc h).trans rfl

end Sys2Proof.Machine

end HostMoves

section StatusBits

/-! ### The fields of `STATUS` (R31) -/

namespace Sys2Proof.Machine

theorem StatusRegs.get_zero (c : StatusRegs) : c.get 0 = c.statusWord := rfl

open BitVec in
/-- Each part of the packed word at its bits: drop the parts to its right, then those to its left. -/
theorem StatusRegs.statusWord_fields (c : StatusRegs) :
    c.statusWord.extractLsb' 0 2 = c.st.bits ∧
    c.statusWord.extractLsb' 2 1 = ofBool c.morphing ∧
    c.statusWord.extractLsb' 3 1 = c.policy.bits ∧
    c.statusWord.extractLsb' 4 2 = c.layout.bits ∧
    c.statusWord.extractLsb' 6 2 = c.kind.bits ∧
    c.statusWord.extractLsb' 8 1 = c.tapSrc.bits ∧
    c.statusWord.extractLsb' 9 1 = ofBool c.morphEn ∧
    c.statusWord.extractLsb' 10 6 = 0#6 ∧
    c.statusWord.extractLsb' 16 8 = c.fcode.bits ∧
    c.statusWord.extractLsb' 24 8 = 0#8 := by
  unfold StatusRegs.statusWord
  refine ⟨?_, ?_, ?_, ?_, ?_, ?_, ?_, ?_, ?_, ?top⟩
  case top =>
    repeat rw [extractLsb'_append_eq_of_le (by decide)]
    exact extractLsb'_eq_self
  all_goals
    repeat rw [extractLsb'_append_eq_of_le (by decide)]
    rw [extractLsb'_append_eq_of_add_le (by decide)]
    exact extractLsb'_eq_self

theorem FaultCode.bits_eq_faultNumber (code : FaultCode) :
    code.bits = Claims.faultNumber code := by
  cases code <;> rfl

theorem ofBool_eq_ite (b : Bool) : BitVec.ofBool b = if b = true then 1#1 else 0#1 := by
  cases b <;> rfl

/-- The reset status registers pack to 0 (R54). -/
theorem StatusRegs.reset_get_zero : StatusRegs.reset.get 0 = 0 := by decide

/-- Settles O27: the fields by `statusWord_fields`, their values by the tables of `Flags.lean`, and the
frame of the host's moves by `step_c_of_no_command`. -/
theorem statusFieldsAtTheirBits : Obligations.StatusFieldsAtTheirBits := by
  refine ⟨StatusRegs.reset_get_zero, fun s t m rest hm hr hc h => ?_, fun c => ?_⟩
  · rw [step_c_of_no_command hm hr hc h]
  · obtain ⟨hst, hmorphing, hpolicy, hlayout, hkind, htap, hen, hzero, hcode, htop⟩ :=
      c.statusWord_fields
    rw [StatusRegs.get_zero]
    exact ⟨hst, hmorphing.trans (ofBool_eq_ite _), hpolicy, hlayout, hkind, htap,
      hen.trans (ofBool_eq_ite _), hzero, hcode.trans (FaultCode.bits_eq_faultNumber _), htop⟩

end Sys2Proof.Machine

end StatusBits

section Decoder

/-! ### The decoder against the encoder (R100 to R103) -/

namespace Sys2Proof

/-- A command word is its two fields (R100). -/
theorem zeroField_append_opcodeField (w : Word) : zeroField w ++ opcodeField w = w :=
  BitVec.extractLsb'_append_extractLsb' (w := 24) (len := 8)

/-- The decoder reads a command only from a word with the `zero` field 0 and that command's opcode
(R101, R103). -/
theorem fields_of_decode_eq_ok {w : Word} {i : Instr} (h : decode w = .ok i) :
    zeroField w = 0#24 ∧ opcodeField w = opcodeOf i := by
  unfold decode at h
  split_ifs at h with hz h1 h2 h3 h4 h5 <;> cases h
  all_goals exact ⟨not_not.1 hz, by assumption⟩

/-- The decoder reads a command from no word but its encoding (R103). -/
theorem eq_encode_of_decode {w : Word} {i : Instr} (h : decode w = .ok i) : w = encode i := by
  obtain ⟨hz, ho⟩ := fields_of_decode_eq_ok h
  rw [← zeroField_append_opcodeField w, hz, ho, encode]

end Sys2Proof

end Decoder

section FaultRows

/-! ### The checks of each command as its row of the fault table (R264) -/

namespace Sys2Proof.Machine

theorem checked_of_violation {l : List (Bool × FaultCode)} {code : FaultCode}
    (h : firstViolation l = some code) (s : State) (effects : State → Res State) :
    checked l s effects = .next (raiseFault code s) := by
  rw [checked_eq, h]

theorem checked_of_no_violation {l : List (Bool × FaultCode)} (h : firstViolation l = none)
    (s : State) (effects : State → Res State) : checked l s effects = effects s := by
  rw [checked_eq, h]

/-- The kinds by their numbers (R21). -/
theorem kindOfWord_eq (w : Word) :
    kindOfWord w = if w.toNat = 0 then some .dense else if w.toNat = 1 then some .sparse
      else if w.toNat = 2 then some .velvet else none := by
  simp [kindOfWord, BitVec.toNat_eq]

theorem kindOfWord_eq_none {w : Word} : kindOfWord w = none ↔ 2 < w.toNat := by
  rw [kindOfWord_eq]
  split_ifs <;> simp <;> omega

theorem kindOfWord_eq_velvet {w : Word} : kindOfWord w = some .velvet ↔ w.toNat = 2 := by
  rw [kindOfWord_eq]
  split_ifs <;> simp <;> omega

theorem initFault_of_badKind {s : State} (h : kindOfWord s.x.kind = none) :
    initFault s = some .badKind := by
  rw [initFault, if_pos (kindOfWord_eq_none.1 h)]

/-- `nB` is beyond `IR_DEPTH` only where the kind reads it (R175). -/
theorem secondCount_beyond_iff {s : State} {k : Kind} (h : kindOfWord s.x.kind = some k) :
    s.params.irDepth < (s.x.secondCount k).toNat ↔
      s.x.kind.toNat = 2 ∧ s.params.irDepth < s.x.ntapsB.toNat := by
  rw [← kindOfWord_eq_velvet, h]
  cases k <;> simp [OperandRegs.secondCount]

/-- `INIT`'s row of the table after the kind's check is its list of checks (R171, R264). -/
theorem initFault_of_kind {s : State} {k : Kind} (h : kindOfWord s.x.kind = some k) :
    initFault s = firstViolation (initChecks s k) := by
  have hk : ¬ 2 < s.x.kind.toNat := by
    rw [← kindOfWord_eq_none, h]
    exact Option.some_ne_none k
  simp only [initFault, if_neg hk, initChecks, firstViolation, ← secondCount_beyond_iff h,
    BitVec.toNat_eq, Bool.or_eq_true, decide_eq_true_eq, ite_or]
  rfl

theorem startFault_of_dense {s : State} (h : s.c.kind = .dense) :
    startFault s = firstViolation (denseStartChecks s) := by
  simp [startFault, h, denseStartChecks, firstViolation, BitVec.toNat_eq]

theorem startFault_of_velvet {s : State} (h : s.c.kind = .velvet) :
    startFault s = firstViolation (velvetStartChecks s) := by
  simp [startFault, h, velvetStartChecks, firstViolation, BitVec.lt_def]

theorem updateFault_of_not_sparse {s : State} (h : s.c.kind ≠ .sparse) :
    updateFault s = firstViolation [(!s.c.morphEn, .noScratch)] := by
  cases hk : s.c.kind
  · simp [updateFault, hk, firstViolation]
  · exact absurd hk h
  · simp [updateFault, hk, firstViolation]

end Sys2Proof.Machine

end FaultRows

section LifeCycle

/-! ### What a command raises, and the state it leaves the block in (R32) -/

namespace Sys2Proof.Machine

/-- `INIT` raises the fault of its row (R171, R264). -/
theorem exec_init_raises {s : State} {code : FaultCode} (hs : s.c.st ≠ .fault)
    (h : initFault s = some code) : exec .init s = .next (raiseFault code s) := by
  rw [exec, execInit_eq hs]
  cases hk : kindOfWord s.x.kind with
  | none =>
    rw [initFault_of_badKind hk] at h
    cases h
    rfl
  | some k => exact checked_of_violation (initFault_of_kind hk ▸ h) s _

/-- An `INIT` that raises no fault names a kind and has that kind's effects (R170). -/
theorem exec_init_of_no_fault {s : State} (hs : s.c.st ≠ .fault) (h : initFault s = none) :
    ∃ k, kindOfWord s.x.kind = some k ∧ exec .init s = initEffects k s := by
  rw [exec, execInit_eq hs]
  cases hk : kindOfWord s.x.kind with
  | none =>
    rw [initFault_of_badKind hk] at h
    cases h
  | some k => exact ⟨k, rfl, checked_of_no_violation (initFault_of_kind hk ▸ h) s _⟩

/-- An `INIT` that raises no fault completes: the accumulator has the words it clears (R171, R174). -/
theorem exec_init_completes {s : State} (hs : s.c.st ≠ .fault) (h : initFault s = none) :
    ∃ k t, exec .init s = .next t ∧ initEffects k s = .next t := by
  obtain ⟨k, _, hexec⟩ := exec_init_of_no_fault hs h
  have hfits : s.x.buflen.toNat ≤ s.params.accDepth := by
    unfold initFault at h
    split_ifs at h
    omega
  obtain ⟨t, ht⟩ := initEffects_completes (k := k) hfits
  exact ⟨k, t, hexec.trans ht, ht⟩

theorem initEffects_st {k : Kind} {s t : State} (h : initEffects k s = .next t) :
    t.c.st = .ready := by
  rw [(initEffects_next h).1]
  rfl

/-- Before `INIT` every other command faults (R254). -/
theorem exec_uninit {i : Instr} {s : State} (hi : i ≠ .init) (hs : s.c.st = .uninit) :
    exec i s = .next (raiseFault .notInit s) := by
  cases i with
  | init => exact absurd rfl hi
  | process => rw [exec, execProcess, guarded_uninit hs]
  | startMorph => rw [exec, execStartMorph, guarded_uninit hs]
  | updateMorph => rw [exec, execUpdateMorph, guarded_uninit hs]
  | isMorphing => rw [exec, execIsMorphing, guarded_uninit hs]

theorem faultTable_uninit {i : Instr} {s : State} (hi : i ≠ .init) (hs : s.c.st = .uninit) :
    faultTable i s = some .notInit := by
  cases i <;> simp_all [faultTable]

/-- In READY a `START_MORPH` raises the fault of its row (R191, R211, R260). -/
theorem exec_startMorph_raises {s : State} {code : FaultCode} (hs : s.c.st = .ready)
    (h : startFault s = some code) : exec .startMorph s = .next (raiseFault code s) := by
  rw [exec_startMorph_ready hs]
  cases hk : s.c.kind with
  | dense => exact checked_of_violation (startFault_of_dense hk ▸ h) s _
  | sparse =>
    simp only [startFault, hk] at h
    cases h
    rfl
  | velvet => exact checked_of_violation (startFault_of_velvet hk ▸ h) s _

/-- In READY an `UPDATE_MORPH` raises the fault of its row (R197, R260). -/
theorem exec_updateMorph_raises {s : State} {code : FaultCode} (hs : s.c.st = .ready)
    (h : updateFault s = some code) : exec .updateMorph s = .next (raiseFault code s) := by
  rw [exec_updateMorph_ready hs]
  cases hk : s.c.kind with
  | dense =>
    rw [updateFault_of_not_sparse (by simp [hk])] at h
    exact checked_of_violation h s _
  | sparse =>
    simp only [updateFault, hk] at h
    cases h
    rfl
  | velvet =>
    rw [updateFault_of_not_sparse (by simp [hk])] at h
    exact checked_of_violation h s _

/-- In READY a `START_MORPH` that raises no fault has the effects of its kind (R190, R210). -/
theorem exec_startMorph_of_no_fault {s : State} (hs : s.c.st = .ready) (hf : startFault s = none) :
    (s.c.kind = .dense ∧ exec .startMorph s = denseStartEffects s) ∨
      (s.c.kind = .velvet ∧ exec .startMorph s = velvetStartEffects s) := by
  rw [exec_startMorph_ready hs]
  cases hk : s.c.kind with
  | dense => exact .inl ⟨rfl, checked_of_no_violation (startFault_of_dense hk ▸ hf) s _⟩
  | sparse => simp [startFault, hk] at hf
  | velvet => exact .inr ⟨rfl, checked_of_no_violation (startFault_of_velvet hk ▸ hf) s _⟩

/-- In READY an `UPDATE_MORPH` that raises no fault has the effects of its kind (R195, R219). -/
theorem exec_updateMorph_of_no_fault {s : State} (hs : s.c.st = .ready)
    (hf : updateFault s = none) :
    (s.c.kind = .dense ∧ exec .updateMorph s = denseUpdateEffects s) ∨
      (s.c.kind = .velvet ∧ exec .updateMorph s = velvetUpdateEffects s) := by
  rw [exec_updateMorph_ready hs]
  cases hk : s.c.kind with
  | dense =>
    rw [updateFault_of_not_sparse (by simp [hk])] at hf
    exact .inl ⟨rfl, checked_of_no_violation hf s _⟩
  | sparse => simp [updateFault, hk] at hf
  | velvet =>
    rw [updateFault_of_not_sparse (by simp [hk])] at hf
    exact .inr ⟨rfl, checked_of_no_violation hf s _⟩

/-- Every command raises the fault of its row of the table (R264). -/
theorem exec_raises {i : Instr} {s : State} {code : FaultCode} (hs : s.c.st ≠ .fault)
    (h : faultTable i s = some code) : exec i s = .next (raiseFault code s) := by
  by_cases hi : i = .init
  · subst hi
    exact exec_init_raises hs h
  cases hst : s.c.st with
  | fault => exact absurd hst hs
  | uninit =>
    rw [faultTable_uninit hi hst] at h
    cases h
    exact exec_uninit hi hst
  | ready =>
    cases i with
    | init => exact absurd rfl hi
    | process => simp [faultTable, hst] at h
    | startMorph => exact exec_startMorph_raises hst (by simpa [faultTable, hst] using h)
    | updateMorph => exact exec_updateMorph_raises hst (by simpa [faultTable, hst] using h)
    | isMorphing => simp [faultTable, hst] at h

/-- Every word raises the fault of its row of the table (R264). -/
theorem issue_raises {w : Word} {s : State} {code : FaultCode} (h : Claims.wordFault w s = some code) :
    issue w s = .next (raiseFault code s) := by
  unfold Claims.wordFault at h
  split_ifs at h with hs
  cases hd : decode w with
  | error e =>
    rw [hd] at h
    cases h
    exact issue_error hd hs
  | ok i =>
    rw [hd] at h
    rw [issue_ok hd]
    exact exec_raises hs h

/-! ### What a command that raises no fault does to `c.ST` -/

theorem processFrames_st {n : Nat} {s t : State} (h : processFrames n s = .next t) :
    t.c.st = s.c.st :=
  forN_induct (P := fun _ u => u.c.st = s.c.st) rfl (fun _ u v _ hu hv => by
    rw [(sampleStep_leaves (W := fun _ _ => True) (by simp) (by simp) hv).2, advance_c]
    exact hu) h

theorem velvetStartEffects_st {s t : State} (h : velvetStartEffects s = .next t) :
    t.c.st = s.c.st := by
  obtain ⟨u, v, hu, hv, rfl⟩ := velvetStartEffects_next h
  change v.c.st = s.c.st
  rw [(velvetStartPol_next hv).1, setPol_st, (velvetStartPol_next hu).1, setPol_st]

theorem velvetStep_st {σ : Polarity} {s t : State} (h : velvetStep σ s = .next t) :
    t.c.st = s.c.st := by
  rcases velvetStep_next h with ⟨_, _, _, _, rfl⟩ | ⟨_, _, rfl⟩ | ⟨_, _, _, _, rfl⟩ | ⟨_, _, rfl⟩
  · exact setPol_st _ _ _
  · exact setPol_st _ _ _
  · exact setPol_st _ _ _
  · rfl

theorem velvetUpdateEffects_st {s t : State} (h : velvetUpdateEffects s = .next t) :
    t.c.st = s.c.st := by
  obtain ⟨u, hu, hv⟩ := andThen_eq_next.1 h
  exact (velvetStep_st hv).trans (velvetStep_st hu)

theorem denseUpdateEffects_st {s t : State} (h : denseUpdateEffects s = .next t) :
    t.c.st = s.c.st := by
  rcases denseUpdateEffects_next h with ⟨_, rfl⟩ | ⟨_, hc, _⟩
  · rfl
  · rw [hc]

theorem denseStartEffects_st {s t : State} (h : denseStartEffects s = .next t) :
    t.c.st = s.c.st := by
  rw [(denseStartEffects_next h).1]

/-- A command other than `INIT` that raises no fault is issued in READY and keeps it. -/
theorem exec_st_of_ready {i : Instr} {s t : State} (hi : i ≠ .init) (hs : s.c.st = .ready)
    (hf : faultTable i s = none) (h : exec i s = .next t) : t.c.st = s.c.st := by
  cases i with
  | init => exact absurd rfl hi
  | process =>
    rw [exec_process_ready hs] at h
    exact processFrames_st h
  | startMorph =>
    rcases exec_startMorph_of_no_fault hs (by simpa [faultTable, hs] using hf) with
      ⟨_, he⟩ | ⟨_, he⟩ <;> rw [he] at h
    · exact denseStartEffects_st h
    · exact velvetStartEffects_st h
  | updateMorph =>
    rcases exec_updateMorph_of_no_fault hs (by simpa [faultTable, hs] using hf) with
      ⟨_, he⟩ | ⟨_, he⟩ <;> rw [he] at h
    · exact denseUpdateEffects_st h
    · exact velvetUpdateEffects_st h
  | isMorphing =>
    rw [exec_isMorphing_ready hs] at h
    cases h
    rfl

/-- A command that raises no fault leaves the block READY (R32). -/
theorem exec_st_of_no_fault {i : Instr} {s t : State} (hs : s.c.st ≠ .fault)
    (hf : faultTable i s = none) (h : exec i s = .next t) : t.c.st = .ready := by
  by_cases hi : i = .init
  · subst hi
    obtain ⟨k, u, hu, he⟩ := exec_init_completes hs hf
    rw [hu] at h
    cases h
    exact initEffects_st he
  cases hst : s.c.st with
  | fault => exact absurd hst hs
  | uninit =>
    rw [faultTable_uninit hi hst] at hf
    cases hf
  | ready => exact (exec_st_of_ready hi hst hf h).trans hst

/-- A word outside FAULT that raises no fault is a command whose row is empty (R104, R264). -/
theorem decode_of_no_wordFault {w : Word} {s : State} (hs : s.c.st ≠ .fault)
    (hf : Claims.wordFault w s = none) : ∃ i, decode w = .ok i ∧ faultTable i s = none := by
  rw [Claims.wordFault, if_neg hs] at hf
  cases hd : decode w with
  | error e =>
    rw [hd] at hf
    cases hf
  | ok i =>
    rw [hd] at hf
    exact ⟨i, rfl, hf⟩

theorem issue_st_of_no_fault {w : Word} {s t : State} (hs : s.c.st ≠ .fault)
    (hf : Claims.wordFault w s = none) (h : issue w s = .next t) : t.c.st = .ready := by
  obtain ⟨i, hd, hrow⟩ := decode_of_no_wordFault hs hf
  rw [issue_ok hd] at h
  exact exec_st_of_no_fault hs hrow h

/-- A word that leaves the block outside FAULT has raised no fault (R252). -/
theorem wordFault_eq_none_of_issue {w : Word} {s t : State} (h : issue w s = .next t)
    (ht : t.c.st ≠ .fault) : Claims.wordFault w s = none := by
  by_contra hf
  obtain ⟨code, hcode⟩ := Option.ne_none_iff_exists'.1 hf
  rw [issue_raises hcode] at h
  cases h
  exact ht rfl

/-- READY never returns to UNINIT by a command word (R32). -/
theorem issue_ready_ne_uninit {w : Word} {s t : State} (hs : s.c.st = .ready)
    (h : issue w s = .next t) : t.c.st ≠ .uninit := by
  intro ht
  have hf := wordFault_eq_none_of_issue h (by simp [ht])
  simp [issue_st_of_no_fault (by simp [hs]) hf h] at ht

/-- Only the word of `INIT` takes the block from UNINIT to READY (R32, R254). -/
theorem eq_encode_init_of_issue {w : Word} {s t : State} (hs : s.c.st = .uninit)
    (h : issue w s = .next t) (ht : t.c.st = .ready) : w = encode .init := by
  have hf := wordFault_eq_none_of_issue h (by simp [ht])
  obtain ⟨i, hd, hrow⟩ := decode_of_no_wordFault (by simp [hs]) hf
  have hi : i = .init := by
    by_contra hne
    simp [faultTable_uninit hne hs] at hrow
  exact hi ▸ eq_encode_of_decode hd

/-- The transitions that no command word makes (R32, R253). -/
theorem issue_lifeCycle {w : Word} {s t : State} (h : issue w s = .next t) :
    (s.c.st = .ready → t.c.st ≠ .uninit) ∧ (s.c.st = .fault → t.c.st = .fault) ∧
      (s.c.st = .uninit → t.c.st = .ready → w = encode .init) := by
  refine ⟨fun hs => issue_ready_ne_uninit hs h, fun hs => ?_,
    fun hs ht => eq_encode_init_of_issue hs h ht⟩
  rw [issue_fault hs] at h
  cases h
  exact hs

/-- Settles O13: reset and the entry into FAULT by what the moves do, the entry into READY by the completion
of a checked `INIT`, and the absence of other transitions by the fault table for a command word (a word
either raises its row's fault or leaves the block READY) and by `hostMove_c` for every other move. -/
theorem lifeCycleTransitions : Obligations.LifeCycleTransitions := by
  refine ⟨fun s t rest hm h => ?_, fun s hs hf => ?_, fun w s code hf => ?_,
    fun s t m rest hm hr h => ?_⟩
  · rw [step_cons hm] at h
    cases h
    rfl
  · obtain ⟨k, t, ht, he⟩ := exec_init_completes hs hf
    exact ⟨t, ht, initEffects_st he⟩
  · exact ⟨_, issue_raises hf, raiseFault_st code s⟩
  · by_cases hc : ∃ w, m = .command w
    · obtain ⟨w, rfl⟩ := hc
      rw [step_cons hm] at h
      obtain ⟨hready, hfault, huninit⟩ := issue_lifeCycle h
      exact ⟨hready, hfault, fun hs ht => congrArg _ (huninit hs ht)⟩
    · have hkeep : t.c = s.c := step_c_of_no_command hm hr (not_exists.1 hc) h
      rw [hkeep]
      exact ⟨fun hs => by simp [hs], id, fun hs ht => by simp [hs] at ht⟩

end Sys2Proof.Machine

end LifeCycle

section CommandWords

/-! ### The five command words and the illegal rest (R101, R103, R104) -/

namespace Sys2Proof

theorem commandEncoding (i : Instr) : Laws.CommandEncoding.Statement i := by
  cases i with
  | init => exact Laws.CommandEncoding.init
  | process => exact Laws.CommandEncoding.process
  | startMorph => exact Laws.CommandEncoding.startMorph
  | updateMorph => exact Laws.CommandEncoding.updateMorph
  | isMorphing => exact Laws.CommandEncoding.isMorphing

theorem decode_encode (i : Instr) : decode (encode i) = .ok i := by
  obtain ⟨_, _, hdecode⟩ := commandEncoding i
  exact hdecode

/-- The decoder reads a command from its encoding and from no other word (R103). -/
theorem decode_eq_ok_iff {w : Word} {i : Instr} : decode w = .ok i ↔ w = encode i :=
  ⟨eq_encode_of_decode, fun h => h ▸ decode_encode i⟩

/-- The encodings are the words of the opcode table (R101). -/
theorem exists_eq_encode_iff {w : Word} :
    (∃ i, w = encode i) ↔ w ∈ [1#32, 2#32, 3#32, 4#32, 5#32] := by
  constructor
  · rintro ⟨i, rfl⟩
    cases i <;> decide
  · intro h
    simp only [List.mem_cons, List.not_mem_nil, or_false] at h
    rcases h with rfl | rfl | rfl | rfl | rfl
    · exact ⟨.init, rfl⟩
    · exact ⟨.process, rfl⟩
    · exact ⟨.startMorph, rfl⟩
    · exact ⟨.updateMorph, rfl⟩
    · exact ⟨.isMorphing, rfl⟩

/-- The ILLEGAL words are those that are none of the table's (R103). -/
theorem exists_decode_eq_error_iff {w : Word} :
    (∃ e, decode w = .error e) ↔ w ∉ [1#32, 2#32, 3#32, 4#32, 5#32] := by
  rw [← exists_eq_encode_iff]
  simp only [← decode_eq_ok_iff]
  cases decode w with
  | error e => simp
  | ok i => simp

/-- Settles O21: the decoder reads each command from its encoding alone, and the encodings are the words of
the table. -/
theorem decodeFollowsTheTable : Obligations.DecodeFollowsTheTable := fun _ =>
  ⟨decode_eq_ok_iff (i := .init), decode_eq_ok_iff (i := .process),
    decode_eq_ok_iff (i := .startMorph), decode_eq_ok_iff (i := .updateMorph),
    decode_eq_ok_iff (i := .isMorphing), exists_decode_eq_error_iff⟩

end Sys2Proof

namespace Sys2Proof.Machine

/-- An ILLEGAL word faults outside FAULT and does nothing in it (R104, R253). -/
theorem issue_illegal {w : Word} (h : w ∉ [1#32, 2#32, 3#32, 4#32, 5#32]) (s : State) :
    issue w s = if s.c.st = .fault then .next s else .next (raiseFault .illegalCmd s) := by
  obtain ⟨e, he⟩ := exists_decode_eq_error_iff.2 h
  by_cases hs : s.c.st = .fault
  · rw [issue_fault hs, if_pos hs]
  · rw [issue_error he hs, if_neg hs]

/-- Settles O10: the step issues the word, and the issue of an ILLEGAL word is `issue_illegal`. -/
theorem illegalWordFaults : Obligations.IllegalWordFaults := by
  intro s w rest hhost hw
  rw [step_cons hhost]
  exact issue_illegal hw { s with host := rest }

end Sys2Proof.Machine

end CommandWords

/-! ## The INIT command (42_init.md R170 to R176)

What a successful `INIT` leaves in each register, and its two statements. -/

section InitCommand

/-! ### The latched configuration and the morph binding (R175, R176) -/

namespace Sys2Proof.Machine

/-- A kind is stored under the number that names it (R21, R31). -/
theorem kind_bits_of_kindOfWord {w : Word} {k : Kind} (h : kindOfWord w = some k) :
    k.bits.toNat = w.toNat := by
  rw [kindOfWord_eq] at h
  split_ifs at h with h0 h1 h2 <;> cases h
  · exact h0.symm
  · exact h1.symm
  · exact h2.symm

theorem secondCount_eq (x : OperandRegs) (k : Kind) :
    x.secondCount k = if k = .velvet then x.ntapsB else 0 := by
  cases k <;> rfl

theorem layoutOf_eq (w : Word) :
    layoutOf w = if w.toNat = 1 then .ch1 else if w.toNat = 2 then .ch2
      else if w.toNat = 4 then .ch4 else .chN := by
  simp [layoutOf, BitVec.toNat_eq]

/-- Scratch is bound when it is asked for and is enough for what the kind keeps in it (R176). -/
theorem morphBinding_iff (p : Params) (x : OperandRegs) (k : Kind) :
    morphBinding p x k = true ↔ x.morphEn ≠ 0 ∧
      ((k = .dense ∧ x.ntapsA.toNat ≤ p.scrDepth) ∨
        (k = .velvet ∧ x.capP.toNat ≤ p.scrDepth ∧ x.capN.toNat ≤ p.scrDepth)) := by
  rw [morphBinding, OperandRegs.wantsMorph, Bool.and_eq_true, Bool.and_eq_true,
    decide_eq_true_iff, decide_eq_true_iff, decide_eq_true_iff, and_assoc]
  refine and_congr_right fun _ => ?_
  cases k with
  | dense => simp [OperandRegs.scratchNeed]
  | sparse => simp
  | velvet => simp [OperandRegs.scratchNeed]

theorem initPol_cap (bound : Bool) (k : Kind) (cap : Word) :
    (initPol bound k cap).cap = if k = .velvet ∧ bound = true then cap else 0 := by
  simp only [initPol, Bool.and_eq_true, decide_eq_true_eq, and_comm]

/-- No velvet cursor is left over from an earlier configuration (R172). -/
theorem initRegs_pol_idle (s : State) (k : Kind) (σ : Polarity) :
    ((initRegs s k).pol σ).len = 0 ∧ ((initRegs s k).pol σ).rc = 0 ∧
      ((initRegs s k).pol σ).pc = 0 ∧ ((initRegs s k).pol σ).tl = 0 := by
  cases σ <;> exact ⟨rfl, rfl, rfl, rfl⟩

/-- No kind is morphing right after `INIT` (R172). -/
theorem initRegs_morphing (s : State) (k : Kind) : (initRegs s k).morphing = false := by
  cases k <;> rfl

/-! ### The two statements about a successful INIT -/

/-- An `INIT` that raises no fault completes with the effects of the kind that `x[0]` names (R170). -/
theorem exec_init_effects {s : State} (hs : s.c.st ≠ .fault) (h : initFault s = none) :
    ∃ k t, kindOfWord s.x.kind = some k ∧ exec .init s = .next t ∧ initEffects k s = .next t := by
  obtain ⟨k, hk, hexec⟩ := exec_init_of_no_fault hs h
  obtain ⟨_, t, ht, _⟩ := exec_init_completes hs h
  exact ⟨k, t, hk, ht, hexec ▸ ht⟩

/-- Settles O29: the memory part is what `initEffects` leaves, the register part is `initRegs` field by
field. -/
theorem initBindsAndClears : Obligations.InitBindsAndClears := by
  intro s hs hf
  obtain ⟨k, t, hk, hexec, heff⟩ := exec_init_effects hs hf
  obtain ⟨hc, hleaves, hcleared⟩ := initEffects_next heff
  have houtside : Outside s t :=
    ⟨hleaves.x_eq, hleaves.params_eq, hleaves.host_eq, hleaves.answers_eq⟩
  refine ⟨t, hexec, hcleared, hleaves.peek_eq, houtside, initEffects_draws heff, ?_⟩
  rw [hc]
  exact ⟨rfl, rfl, kind_bits_of_kindOfWord hk, rfl, rfl, rfl, secondCount_eq s.x k,
    layoutOf_eq s.x.channels, rfl, rfl, rfl, rfl, initRegs_morphing s k, initRegs_pol_idle s k⟩

/-- Settles O30: `MORPH_EN` and the capacities of `initRegs` are the binding of R176. -/
theorem initMorphBinding : Obligations.InitMorphBinding := by
  intro s hs hf
  obtain ⟨k, t, _, hexec, heff⟩ := exec_init_effects hs hf
  refine ⟨t, hexec, initEffects_st heff, ?_⟩
  rw [(initEffects_next heff).1]
  exact ⟨morphBinding_iff s.params s.x k, initPol_cap _ k s.x.capP, initPol_cap _ k s.x.capN⟩

end Sys2Proof.Machine

end InitCommand

/-! ## The velvet migration machine (44_velvet_morph.md R219 to R225)

What one step of R220 makes of a polarity's registers, that a velvet `UPDATE_MORPH` completes with one such
step of each polarity, the registers after `k` updates, and the schedule from a fresh start. -/

section CursorRegisters

/-! ### The registers of one polarity (R220, R227) -/

namespace Sys2Proof.Machine

open Sys2Proof.Claims

theorem toNat_sub_one {w : Word} (h : 0 < w.toNat) : (w - 1).toNat = w.toNat - 1 := by
  bv_omega

theorem toNat_add_one_of_lt {w v : Word} (h : w.toNat < v.toNat) : (w + 1).toNat = w.toNat + 1 := by
  bv_omega

theorem stepRegs_substitute {r : VelvetRegs} (hr : 0 < r.rc.toNat) (hp : r.pc.toNat < r.tl.toNat) :
    stepRegs r = { r with rc := r.rc - 1, pc := r.pc + 1 } := if_pos ⟨hr, hp⟩

theorem stepRegs_remove {r : VelvetRegs} (hr : 0 < r.rc.toNat) (hp : ¬ r.pc.toNat < r.tl.toNat) :
    stepRegs r = { r with len := r.len - 1, rc := r.rc - 1 } := by
  rw [stepRegs, if_neg fun h => hp h.2, if_pos hr]

theorem stepRegs_append {r : VelvetRegs} (hr : ¬ 0 < r.rc.toNat) (hp : r.pc.toNat < r.tl.toNat) :
    stepRegs r = { r with len := r.len + 1, pc := r.pc + 1 } := by
  rw [stepRegs, if_neg fun h => hr h.1, if_neg hr, if_pos hp]

theorem stepRegs_complete {r : VelvetRegs} (hr : ¬ 0 < r.rc.toNat)
    (hp : ¬ r.pc.toNat < r.tl.toNat) : stepRegs r = r := by
  rw [stepRegs, if_neg fun h => hr h.1, if_neg hr, if_neg hp]

/-- The four steps of R220, by what is left under the two cursors. -/
theorem stepRegs_cases (r : VelvetRegs) :
    (0 < r.rc.toNat ∧ r.pc.toNat < r.tl.toNat ∧
      stepRegs r = { r with rc := r.rc - 1, pc := r.pc + 1 }) ∨
    (0 < r.rc.toNat ∧ ¬ r.pc.toNat < r.tl.toNat ∧
      stepRegs r = { r with len := r.len - 1, rc := r.rc - 1 }) ∨
    (¬ 0 < r.rc.toNat ∧ r.pc.toNat < r.tl.toNat ∧
      stepRegs r = { r with len := r.len + 1, pc := r.pc + 1 }) ∨
    (¬ 0 < r.rc.toNat ∧ ¬ r.pc.toNat < r.tl.toNat ∧ stepRegs r = r) := by
  by_cases hr : 0 < r.rc.toNat <;> by_cases hp : r.pc.toNat < r.tl.toNat
  · exact .inl ⟨hr, hp, stepRegs_substitute hr hp⟩
  · exact .inr (.inl ⟨hr, hp, stepRegs_remove hr hp⟩)
  · exact .inr (.inr (.inl ⟨hr, hp, stepRegs_append hr hp⟩))
  · exact .inr (.inr (.inr ⟨hr, hp, stepRegs_complete hr hp⟩))

@[simp] theorem stepRegs_tl (r : VelvetRegs) : (stepRegs r).tl = r.tl := by
  obtain ⟨_, _, h⟩ | ⟨_, _, h⟩ | ⟨_, _, h⟩ | ⟨_, _, h⟩ := stepRegs_cases r <;> rw [h]

@[simp] theorem stepRegs_cap (r : VelvetRegs) : (stepRegs r).cap = r.cap := by
  obtain ⟨_, _, h⟩ | ⟨_, _, h⟩ | ⟨_, _, h⟩ | ⟨_, _, h⟩ := stepRegs_cases r <;> rw [h]

/-- The regression cursor moves down to 0 and stays there (R220). -/
theorem stepRegs_rc (r : VelvetRegs) : (stepRegs r).rc.toNat = r.rc.toNat - 1 := by
  obtain ⟨hr, _, h⟩ | ⟨hr, _, h⟩ | ⟨hr, _, h⟩ | ⟨hr, _, h⟩ := stepRegs_cases r <;> rw [h]
  · exact toNat_sub_one hr
  · exact toNat_sub_one hr
  · change r.rc.toNat = r.rc.toNat - 1
    omega
  · omega

/-- The progression cursor moves up to the end of the target and stays there (R220). -/
theorem stepRegs_pc {r : VelvetRegs} (hle : r.pc.toNat ≤ r.tl.toNat) :
    (stepRegs r).pc.toNat = min (r.pc.toNat + 1) r.tl.toNat := by
  obtain ⟨_, hp, h⟩ | ⟨_, hp, h⟩ | ⟨_, hp, h⟩ | ⟨_, hp, h⟩ := stepRegs_cases r <;> rw [h]
  · exact (toNat_add_one_of_lt hp).trans (by omega)
  · change r.pc.toNat = _
    omega
  · exact (toNat_add_one_of_lt hp).trans (by omega)
  · omega

/-- The part of `PolarityInv` that is about the registers alone (R51e, R227, R232). -/
structure CursorsInv (r : VelvetRegs) : Prop where
  len_eq : r.len.toNat = r.rc.toNat + r.pc.toNat
  pc_le_tl : r.pc.toNat ≤ r.tl.toNat
  len_le_cap : r.len.toNat ≤ r.cap.toNat
  tl_le_cap : r.tl.toNat ≤ r.cap.toNat

theorem PolarityInv.cursors {s : State} {σ : Polarity} (h : PolarityInv s σ) :
    CursorsInv (s.c.pol σ) :=
  ⟨h.len_eq, BitVec.le_def.1 h.pc_le_tl, BitVec.le_def.1 h.len_le_cap, BitVec.le_def.1 h.tl_le_cap⟩

/-- In the appending condition the length is the progression cursor (R227). -/
theorem CursorsInv.len_lt_tl {r : VelvetRegs} (h : CursorsInv r) (hr : ¬ 0 < r.rc.toNat)
    (hp : r.pc.toNat < r.tl.toNat) : r.len.toNat < r.tl.toNat := by
  rw [h.len_eq]
  omega

/-- R227: the length stays the sum of the regression count and the progression cursor. -/
theorem CursorsInv.stepRegs_len {r : VelvetRegs} (h : CursorsInv r) :
    (stepRegs r).len.toNat = (stepRegs r).rc.toNat + (stepRegs r).pc.toNat := by
  have hlen := h.len_eq
  rw [stepRegs_rc, stepRegs_pc h.pc_le_tl]
  obtain ⟨hr, hp, he⟩ | ⟨hr, hp, he⟩ | ⟨hr, hp, he⟩ | ⟨hr, hp, he⟩ := stepRegs_cases r <;> rw [he]
  · change r.len.toNat = _
    omega
  · change (r.len - 1).toNat = _
    rw [toNat_sub_one (by omega)]
    have := h.pc_le_tl
    omega
  · change (r.len + 1).toNat = _
    rw [toNat_add_one_of_lt (h.len_lt_tl hr hp)]
    omega
  · have := h.pc_le_tl
    omega

/-- Every step keeps the registers' invariant. -/
theorem CursorsInv.step {r : VelvetRegs} (h : CursorsInv r) : CursorsInv (stepRegs r) := by
  have hstep := h.stepRegs_len
  obtain ⟨hlen, hpc, hcap, htl⟩ := h
  refine ⟨hstep, ?_, ?_, by simpa using htl⟩
  · rw [stepRegs_pc hpc, stepRegs_tl]
    exact Nat.min_le_right _ _
  · rw [hstep, stepRegs_rc, stepRegs_pc hpc, stepRegs_cap]
    omega

end Sys2Proof.Machine

end CursorRegisters

section VelvetUpdate

/-! ### One velvet update (R219, R220, R228) -/

namespace Sys2Proof.Machine

open Sys2Proof.Claims

theorem hasWord_workSpace (p : Params) (σ : Polarity) (i : Nat) :
    p.hasWord (workSpace σ) i = decide (i < p.scrDepth) := by
  cases σ <;> rfl

theorem hasWord_snapshotSpace (p : Params) (σ : Polarity) (i : Nat) :
    p.hasWord (snapshotSpace σ) i = decide (i < p.scrDepth) := by
  cases σ <;> rfl

@[simp] theorem setPol_pol (c : StatusRegs) (σ : Polarity) : c.setPol σ (c.pol σ) = c := by
  cases σ <;> rfl

/-- The move of one target element into the working array, in a state that meets the invariant. -/
theorem PolarityInv.migrate_completes {s : State} {σ : Polarity} (h : PolarityInv s σ) {j : Nat}
    (hp : (s.c.pol σ).pc.toNat < (s.c.pol σ).tl.toNat) (hj : j < s.params.scrDepth)
    (f : State → State) :
    ∃ t, andThen (memRead (snapshotSpace σ) (s.c.pol σ).pc.toNat s) (fun v =>
      andThen (memWrite (workSpace σ) j v s) fun s' => .next (f s')) = .next t := by
  have hdepth : (s.c.pol σ).pc.toNat < s.params.scrDepth :=
    (hp.trans_le h.cursors.tl_le_cap).trans_le h.cap_fits
  obtain ⟨v, hv⟩ := Option.isSome_iff_exists.1 (h.snapshot_written _ hp)
  have hread : memRead (snapshotSpace σ) (s.c.pol σ).pc.toNat s = .next v :=
    memRead_eq_next.2 ⟨by simpa [hasWord_snapshotSpace] using hdepth, hv⟩
  have hwrite : memWrite (workSpace σ) j v s = .next (s.poke (workSpace σ) j v) :=
    memWrite_eq_next.2 ⟨by simpa [hasWord_workSpace] using hj, rfl⟩
  rw [hread, andThen_next, hwrite, andThen_next]
  exact ⟨_, rfl⟩

/-- Under either reading a substitution names a slot of the scratch (R221, R232). -/
theorem PolarityInv.substitutionSlot_lt {s : State} {σ : Polarity} (h : PolarityInv s σ)
    (hr : 0 < (s.c.pol σ).rc.toNat) (hp : (s.c.pol σ).pc.toNat < (s.c.pol σ).tl.toNat)
    (p : SubstSlot) : substitutionSlot p (s.c.pol σ) < s.params.scrDepth := by
  obtain ⟨hlen, _, hcap, htl⟩ := h.cursors
  have hfits := h.cap_fits
  cases p with
  | regression =>
    rw [substitutionSlot, toNat_sub_one hr]
    omega
  | progression =>
    rw [substitutionSlot]
    omega

/-- In a state that meets the invariant the step of R220 reads no unwritten word and stays in the
scratch. -/
theorem PolarityInv.velvetStep_completes {s : State} {σ : Polarity} (h : PolarityInv s σ) :
    ∃ t, velvetStep σ s = .next t := by
  unfold velvetStep
  simp only [BitVec.lt_def]
  split_ifs with hsub hrem happ
  · exact h.migrate_completes hsub.2 (h.substitutionSlot_lt hsub.1 hsub.2 _) _
  · exact ⟨_, rfl⟩
  · have hlen := h.cursors.len_lt_tl hrem happ
    exact h.migrate_completes happ ((hlen.trans_le h.cursors.tl_le_cap).trans_le h.cap_fits) _
  · exact ⟨_, rfl⟩

/-- The machine's step is `stepRegs` on the polarity's own registers, and touches no other (R228). -/
theorem velvetStep_c {σ : Polarity} {s t : State} (h : velvetStep σ s = .next t) :
    t.c = s.c.setPol σ (stepRegs (s.c.pol σ)) := by
  rcases velvetStep_next h with ⟨hr, hp, _, _, rfl⟩ | ⟨hr, hp, rfl⟩ | ⟨hr, hp, _, _, rfl⟩ | ⟨hr, hp, rfl⟩
  · rw [stepRegs_substitute hr hp]
  · rw [stepRegs_remove hr hp]
  · rw [stepRegs_append hr hp]
  · rw [stepRegs_complete hr hp, setPol_pol]

theorem velvetStep_params {σ : Polarity} {s t : State} (h : velvetStep σ s = .next t) :
    t.params = s.params := by
  rcases velvetStep_next h with ⟨_, _, _, _, rfl⟩ | ⟨_, _, rfl⟩ | ⟨_, _, _, _, rfl⟩ | ⟨_, _, rfl⟩ <;> rfl

/-- A step never makes a written word unwritten (R90). -/
theorem velvetStep_written {σ : Polarity} {s t : State} (h : velvetStep σ s = .next t) {sp : Space}
    {n : Nat} (hw : Written s sp n) : Written t sp n := by
  intro i hi
  rcases velvetStep_next h with ⟨_, _, _, _, rfl⟩ | ⟨_, _, rfl⟩ | ⟨_, _, _, _, rfl⟩ | ⟨_, _, rfl⟩
  · exact isSome_peek_poke (hw i hi)
  · exact hw i hi
  · exact isSome_peek_poke (hw i hi)
  · exact hw i hi

/-- The working array stays written up to its length: only an append makes it longer, by the word that it
writes (R222). -/
theorem PolarityInv.velvetStep_work_written {s t : State} {σ : Polarity} (h : PolarityInv s σ)
    (hst : velvetStep σ s = .next t) :
    Written t (workSpace σ) (stepRegs (s.c.pol σ)).len.toNat := by
  intro i hi
  have hold : i < (s.c.pol σ).len.toNat → (t.peek (workSpace σ) i).isSome = true :=
    velvetStep_written hst h.work_written i
  rcases velvetStep_next hst with ⟨hr, hp, _, _, rfl⟩ | ⟨hr, hp, rfl⟩ | ⟨hr, hp, v, _, rfl⟩ | ⟨hr, hp, rfl⟩
  · rw [stepRegs_substitute hr hp] at hi
    exact hold hi
  · have hlen := h.len_eq
    have hpos : 0 < (s.c.pol σ).rc.toNat := hr
    rw [stepRegs_remove hr hp, toNat_sub_one (by omega)] at hi
    exact hold (by omega)
  · rw [stepRegs_append hr hp, toNat_add_one_of_lt (h.cursors.len_lt_tl hr hp)] at hi
    by_cases hlt : i < (s.c.pol σ).len.toNat
    · exact hold hlt
    · rw [show i = (s.c.pol σ).len.toNat by omega]
      exact Option.isSome_iff_exists.2 ⟨v, peek_poke_same _ _ _ _⟩
  · rw [stepRegs_complete hr hp] at hi
    exact hold hi

/-- A polarity with nothing loaded does nothing (R51e). -/
theorem stepRegs_of_idle {r : VelvetRegs} (hrc : r.rc = 0) (htl : r.tl = 0) : stepRegs r = r :=
  stepRegs_complete (by simp [hrc]) (by simp [htl])

/-- A step keeps the invariant of its own polarity. -/
theorem PolarityInv.step_same {s t : State} {σ : Polarity} (h : PolarityInv s σ)
    (hst : velvetStep σ s = .next t) : PolarityInv t σ := by
  have hc := velvetStep_c hst
  have hpol : t.c.pol σ = stepRegs (s.c.pol σ) := by rw [hc, pol_setPol_same]
  obtain ⟨hlen, hpc, hcap, htl⟩ := h.cursors.step
  refine
    { len_eq := by rw [hpol]; exact hlen
      pc_le_tl := by rw [hpol]; exact hpc
      len_le_cap := by rw [hpol]; exact hcap
      tl_le_cap := by rw [hpol]; exact htl
      cap_fits := by rw [hpol, stepRegs_cap, velvetStep_params hst]; exact h.cap_fits
      work_written := by rw [hpol]; exact h.velvetStep_work_written hst
      snapshot_written := by
        rw [hpol, stepRegs_tl]; exact velvetStep_written hst h.snapshot_written
      ir_idle := fun hsrc => ?_
      velvet_only := fun hno => ?_ }
  · rw [hc, setPol_tapSrc] at hsrc
    obtain ⟨hlen0, hrc0, hpc0, htl0⟩ := h.ir_idle hsrc
    rw [hpol, stepRegs_of_idle hrc0 htl0]
    exact ⟨hlen0, hrc0, hpc0, htl0⟩
  · rw [hc, setPol_kind, setPol_morphEn] at hno
    rw [hpol, h.velvet_only hno]
    exact stepRegs_of_idle rfl rfl

/-- A step keeps the invariant of the other polarity, whose registers it does not touch (R228). -/
theorem PolarityInv.step_other {s t : State} {σ τ : Polarity} (h : PolarityInv s τ)
    (hne : τ ≠ σ) (hst : velvetStep σ s = .next t) : PolarityInv t τ := by
  have hc := velvetStep_c hst
  have hpol : t.c.pol τ = s.c.pol τ := by rw [hc, pol_setPol_ne _ _ _ _ hne]
  have hsrc : t.c.tapSrc = s.c.tapSrc := by rw [hc, setPol_tapSrc]
  have hkind : t.c.kind = s.c.kind := by rw [hc, setPol_kind]
  have hen : t.c.morphEn = s.c.morphEn := by rw [hc, setPol_morphEn]
  exact
    { len_eq := by rw [hpol]; exact h.len_eq
      pc_le_tl := by rw [hpol]; exact h.pc_le_tl
      len_le_cap := by rw [hpol]; exact h.len_le_cap
      tl_le_cap := by rw [hpol]; exact h.tl_le_cap
      cap_fits := by rw [hpol, velvetStep_params hst]; exact h.cap_fits
      work_written := by rw [hpol]; exact velvetStep_written hst h.work_written
      snapshot_written := by rw [hpol]; exact velvetStep_written hst h.snapshot_written
      ir_idle := by rw [hpol, hsrc]; exact h.ir_idle
      velvet_only := by rw [hpol, hkind, hen]; exact h.velvet_only }

theorem PolarityInv.step {s t : State} {σ τ : Polarity} (h : PolarityInv s τ)
    (hst : velvetStep σ s = .next t) : PolarityInv t τ := by
  by_cases heq : τ = σ
  · subst heq
    exact h.step_same hst
  · exact h.step_other heq hst

/-- A READY velvet engine with scratch whose polarities meet the invariant: the states in which
`UPDATE_MORPH` migrates taps. -/
structure VelvetMorphReady (s : State) : Prop where
  st : s.c.st = .ready
  kind : s.c.kind = .velvet
  morphEn : s.c.morphEn = true
  polarity : ∀ σ, PolarityInv s σ

theorem MachineInv.velvetMorphReady {s : State} (h : MachineInv s) (hst : s.c.st = .ready)
    (hk : s.c.kind = .velvet) (hen : s.c.morphEn = true) : VelvetMorphReady s :=
  ⟨hst, hk, hen, (h.ready hst).polarity⟩

theorem VelvetMorphReady.step {s t : State} {σ : Polarity} (h : VelvetMorphReady s)
    (hst : velvetStep σ s = .next t) : VelvetMorphReady t := by
  have hc := velvetStep_c hst
  refine ⟨?_, ?_, ?_, fun τ => (h.polarity τ).step hst⟩
  · rw [hc, setPol_st, h.st]
  · rw [hc, setPol_kind, h.kind]
  · rw [hc, setPol_morphEn, h.morphEn]

theorem VelvetMorphReady.exec_eq {s : State} (h : VelvetMorphReady s) :
    exec .updateMorph s = velvetUpdateEffects s := by
  rw [exec_updateMorph_ready h.st, h.kind]
  exact checked_of_no_violation (by simp [firstViolation, h.morphEn]) s _

/-- A velvet `UPDATE_MORPH` completes with one step of R220 for each polarity (R219). -/
theorem VelvetMorphReady.exec_updateMorph {s : State} (h : VelvetMorphReady s) :
    ∃ t, exec .updateMorph s = .next t ∧ VelvetMorphReady t ∧
      ∀ σ, t.c.pol σ = stepRegs (s.c.pol σ) := by
  obtain ⟨u, hu⟩ := (h.polarity .pos).velvetStep_completes
  have hready := h.step hu
  obtain ⟨t, ht⟩ := (hready.polarity .neg).velvetStep_completes
  refine ⟨t, ?_, hready.step ht, fun σ => ?_⟩
  · rw [h.exec_eq]
    exact andThen_eq_next.2 ⟨u, hu, ht⟩
  · rw [velvetStep_c ht, velvetStep_c hu]
    cases σ <;> rfl

/-- `k` updates complete, each polarity `k` steps of R220 further. -/
theorem VelvetMorphReady.repeated_updateMorph {s : State} (h : VelvetMorphReady s) (k : Nat) :
    ∃ u, repeated .updateMorph k s = .next u ∧ VelvetMorphReady u ∧
      ∀ σ, u.c.pol σ = stepRegs^[k] (s.c.pol σ) := by
  induction k with
  | zero => exact ⟨s, rfl, h, fun _ => rfl⟩
  | succ k ih =>
    obtain ⟨u, hu, hready, hpol⟩ := ih
    obtain ⟨t, ht, hready', hstep⟩ := hready.exec_updateMorph
    refine ⟨t, andThen_eq_next.2 ⟨u, hu, ht⟩, hready', fun σ => ?_⟩
    rw [hstep, hpol, Function.iterate_succ_apply']

end Sys2Proof.Machine

end VelvetUpdate

section VelvetSchedule

/-! ### The schedule from a fresh start (R224, R225) -/

namespace Sys2Proof.Machine

open Sys2Proof.Claims

@[simp] theorem iterate_stepRegs_tl (r : VelvetRegs) (k : Nat) : (stepRegs^[k] r).tl = r.tl := by
  induction k with
  | zero => rfl
  | succ k ih => rw [Function.iterate_succ_apply', stepRegs_tl, ih]

/-- The regression cursor after `k` steps (R224). -/
theorem iterate_stepRegs_rc (r : VelvetRegs) (k : Nat) :
    (stepRegs^[k] r).rc.toNat = r.rc.toNat - k := by
  induction k with
  | zero => rfl
  | succ k ih => rw [Function.iterate_succ_apply', stepRegs_rc, ih, Nat.sub_add_eq]

/-- The progression cursor after `k` steps (R224). -/
theorem iterate_stepRegs_pc {r : VelvetRegs} (hle : r.pc.toNat ≤ r.tl.toNat) (k : Nat) :
    (stepRegs^[k] r).pc.toNat = min (r.pc.toNat + k) r.tl.toNat := by
  induction k with
  | zero => exact (Nat.min_eq_left hle).symm
  | succ k ih =>
    have hend : (stepRegs^[k] r).pc.toNat ≤ (stepRegs^[k] r).tl.toNat := by
      rw [ih, iterate_stepRegs_tl]
      exact Nat.min_le_right _ _
    rw [Function.iterate_succ_apply', stepRegs_pc hend, ih, iterate_stepRegs_tl]
    omega

theorem VelvetRegs.busy_iff (r : VelvetRegs) :
    r.busy = true ↔ 0 < r.rc.toNat ∨ r.pc.toNat < r.tl.toNat := by
  simp [VelvetRegs.busy, BitVec.lt_def]

theorem StatusRegs.morphing_velvet {c : StatusRegs} (hst : c.st = .ready) (hk : c.kind = .velvet) :
    c.morphing = true ↔ ∃ σ, (c.pol σ).busy = true := by
  have hor : c.morphing = (c.pos.busy || c.neg.busy) := by simp [StatusRegs.morphing, hst, hk]
  rw [hor, Bool.or_eq_true]
  constructor
  · rintro (h | h)
    · exact ⟨.pos, h⟩
    · exact ⟨.neg, h⟩
  · rintro ⟨σ, h⟩
    cases σ with
    | pos => exact .inl h
    | neg => exact .inr h

/-- Where both cursors stand after `k` steps from a fresh start with `m` elements toward `n` (R225): the
regression count is `m - k`, the progression cursor `min k n`. -/
theorem CursorsInv.cursors_of_fresh {r : VelvetRegs} (h : CursorsInv r) (hpc : r.pc = 0) (k : Nat) :
    (stepRegs^[k] r).rc.toNat = r.len.toNat - k ∧
      (stepRegs^[k] r).pc.toNat = min k r.tl.toNat := by
  have hpc0 : r.pc.toNat = 0 := by simp [hpc]
  have hlen := h.len_eq
  rw [iterate_stepRegs_rc, iterate_stepRegs_pc h.pc_le_tl, hpc0, hlen, hpc0]
  exact ⟨rfl, by rw [Nat.zero_add]⟩

/-- From a fresh start with `m` elements toward `n`, a polarity is busy for `max m n` steps (R225). -/
theorem CursorsInv.busy_iff_of_fresh {r : VelvetRegs} (h : CursorsInv r) (hpc : r.pc = 0) (k : Nat) :
    (stepRegs^[k] r).busy = true ↔ k < max r.len.toNat r.tl.toNat := by
  obtain ⟨hrc, hpk⟩ := h.cursors_of_fresh hpc k
  rw [VelvetRegs.busy_iff, iterate_stepRegs_tl, hrc, hpk]
  omega

/-- Step `k + 1` from a fresh start with `m` elements toward `n` (R225): a substitution while both cursors
have an element left, then a removal or an append, then nothing. -/
theorem CursorsInv.stepRegs_of_fresh {r u : VelvetRegs} (h : CursorsInv r) (hpc : r.pc = 0) {k : Nat}
    (hu : u = stepRegs^[k] r) :
    (k < min r.len.toNat r.tl.toNat →
      stepRegs u = { u with rc := u.rc - 1, pc := u.pc + 1 }) ∧
    (min r.len.toNat r.tl.toNat ≤ k → k < r.len.toNat →
      stepRegs u = { u with len := u.len - 1, rc := u.rc - 1 }) ∧
    (min r.len.toNat r.tl.toNat ≤ k → k < r.tl.toNat →
      stepRegs u = { u with len := u.len + 1, pc := u.pc + 1 }) ∧
    (max r.len.toNat r.tl.toNat ≤ k → stepRegs u = u) := by
  obtain ⟨hrc, hpk⟩ := h.cursors_of_fresh hpc k
  have htl := iterate_stepRegs_tl r k
  rw [← hu] at hrc hpk htl
  refine ⟨fun hk => stepRegs_substitute ?_ ?_, fun hmin hk => stepRegs_remove ?_ ?_,
    fun hmin hk => stepRegs_append ?_ ?_, fun hk => stepRegs_complete ?_ ?_⟩
  all_goals
    simp only [htl, hrc, hpk]
    omega

/-- Settles O48: `k` updates are `k` steps of R220 for each polarity (`repeated_updateMorph`), the next one
is one more, and the steps from a fresh start follow R225's schedule. -/
theorem velvetScheduleFromFreshStart : Obligations.VelvetScheduleFromFreshStart := by
  intro s hinv hst hk hen hfresh k
  have hready := hinv.velvetMorphReady hst hk hen
  obtain ⟨u, hu, huready, hpol⟩ := hready.repeated_updateMorph k
  obtain ⟨t, ht, _, hstep⟩ := huready.exec_updateMorph
  have hbusy : ∀ σ, (u.c.pol σ).busy = true ↔
      k < max (s.c.pol σ).len.toNat (s.c.pol σ).tl.toNat := fun σ => by
    rw [hpol]
    exact (hready.polarity σ).cursors.busy_iff_of_fresh (hfresh σ) k
  refine ⟨u, t, hu, ht, fun σ => ?_, ?_⟩
  · obtain ⟨hsub, hrem, happ, hdone⟩ :=
      (hready.polarity σ).cursors.stepRegs_of_fresh (hfresh σ) (hpol σ)
    simp only [hstep]
    exact ⟨hsub, hrem, happ, hdone, hbusy σ⟩
  · rw [StatusRegs.morphing_velvet huready.st huready.kind]
    exact exists_congr hbusy

end Sys2Proof.Machine

end VelvetSchedule

/-! ## The query and what the morph commands leave alone (45_is_morphing.md R240, R241)

How a command that answers a next state has ended, the frame of the two morph machines and of the query,
and the answer of the query. -/

section MorphFrame

/-! ### The frame of the morph commands (R202, R204, R233) -/

namespace Sys2Proof.Machine

/-- A command that answers a next state did nothing in FAULT, raised a fault, or passed its checks. -/
theorem exec_next_cases {i : Instr} {s t : State} (h : exec i s = .next t) :
    t = s ∨ (∃ code, t = raiseFault code s) ∨ (s.c.st ≠ .fault ∧ faultTable i s = none) := by
  by_cases hs : s.c.st = .fault
  · rw [exec_fault hs] at h
    cases h
    exact .inl rfl
  · cases hf : faultTable i s with
    | none => exact .inr (.inr ⟨hs, rfl⟩)
    | some code =>
      rw [exec_raises hs hf] at h
      cases h
      exact .inr (.inl ⟨code, rfl⟩)

/-- A command other than `INIT` passes its checks only in READY (R254). -/
theorem ready_of_no_fault {i : Instr} {s : State} (hi : i ≠ .init) (hs : s.c.st ≠ .fault)
    (hf : faultTable i s = none) : s.c.st = .ready := by
  cases hst : s.c.st with
  | ready => rfl
  | fault => exact absurd hst hs
  | uninit => simp [faultTable_uninit hi hst] at hf

/-- The scratch memories, which only the morph commands write (R70). -/
def morphScratch : List Space := [.dcur, .ddel, .vcurp, .vcurn, .vinip, .vinin, .vtsp, .vtsn]

theorem workSpace_mem_morphScratch (σ : Polarity) : workSpace σ ∈ morphScratch := by
  cases σ <;> decide

theorem initialSpace_mem_morphScratch (σ : Polarity) : initialSpace σ ∈ morphScratch := by
  cases σ <;> decide

theorem snapshotSpace_mem_morphScratch (σ : Polarity) : snapshotSpace σ ∈ morphScratch := by
  cases σ <;> decide

/-- From `s` to `t` the write head, the tap counts and every word outside the scratch memories are kept. -/
structure MorphKeeps (s t : State) : Prop where
  wh_eq : t.c.wh = s.c.wh
  na_eq : t.c.na = s.c.na
  nb_eq : t.c.nb = s.c.nb
  peek_eq : ∀ sp, sp ∉ morphScratch → ∀ j, t.peek sp j = s.peek sp j

theorem MorphKeeps.refl (s : State) : MorphKeeps s s := ⟨rfl, rfl, rfl, fun _ _ _ => rfl⟩

theorem MorphKeeps.trans {s t u : State} (h1 : MorphKeeps s t) (h2 : MorphKeeps t u) :
    MorphKeeps s u :=
  ⟨h2.wh_eq.trans h1.wh_eq, h2.na_eq.trans h1.na_eq, h2.nb_eq.trans h1.nb_eq,
    fun sp h j => (h2.peek_eq sp h j).trans (h1.peek_eq sp h j)⟩

theorem morphKeeps_poke {s : State} {sp : Space} (h : sp ∈ morphScratch) (i : Nat) (v : Word) :
    MorphKeeps s (s.poke sp i v) :=
  ⟨rfl, rfl, rfl, fun _ hsp _ => peek_poke_ne s v (.inl fun he => hsp (he ▸ h))⟩

theorem morphKeeps_raiseFault (code : FaultCode) (s : State) : MorphKeeps s (raiseFault code s) :=
  ⟨rfl, rfl, rfl, fun sp _ j => peek_of_mem (raiseFault_mem code s) sp j⟩

/-- The velvet registers of a polarity are none of those that `MorphKeeps` names. -/
theorem morphKeeps_setPol (s : State) (σ : Polarity) (r : VelvetRegs) :
    MorphKeeps s { s with c := s.c.setPol σ r } :=
  ⟨setPol_wh _ _ _, setPol_na _ _ _, setPol_nb _ _ _, fun _ _ _ => rfl⟩

/-- A part of a command that writes only scratch words, with what it does to the three registers. -/
theorem Leaves.morphKeeps {W : Space → Nat → Prop} {s t : State}
    (h : Leaves W s { t with c := s.c }) (hW : ∀ sp i, W sp i → sp ∈ morphScratch)
    (hwh : t.c.wh = s.c.wh) (hna : t.c.na = s.c.na) (hnb : t.c.nb = s.c.nb) : MorphKeeps s t :=
  ⟨hwh, hna, hnb, fun sp hsp j => h.peek_eq sp j fun hw => hsp (hW sp j hw)⟩

theorem denseStartEffects_morphKeeps {s t : State} (h : denseStartEffects s = .next t) :
    MorphKeeps s t := by
  obtain ⟨hc, hl⟩ := denseStartEffects_next h
  refine hl.morphKeeps ?_ (by rw [hc]) (by rw [hc]) (by rw [hc])
  rintro sp i ⟨rfl | rfl, _⟩ <;> decide

theorem denseUpdateEffects_morphKeeps {s t : State} (h : denseUpdateEffects s = .next t) :
    MorphKeeps s t := by
  rcases denseUpdateEffects_next h with ⟨_, rfl⟩ | ⟨_, hc, hl⟩
  · exact MorphKeeps.refl _
  · refine hl.morphKeeps ?_ (by rw [hc]) (by rw [hc]) (by rw [hc])
    rintro sp i ⟨rfl, _⟩
    decide

theorem velvetStartPol_morphKeeps {σ : Polarity} {s t : State} (h : velvetStartPol σ s = .next t) :
    MorphKeeps s t := by
  obtain ⟨hc, _, hl, _⟩ := velvetStartPol_next h
  refine hl.morphKeeps ?_ (by simp [hc]) (by simp [hc]) (by simp [hc])
  rintro sp i (⟨rfl, _⟩ | ⟨rfl, _⟩ | ⟨rfl, _⟩)
  · exact workSpace_mem_morphScratch σ
  · exact initialSpace_mem_morphScratch σ
  · exact snapshotSpace_mem_morphScratch σ

theorem velvetStartEffects_morphKeeps {s t : State} (h : velvetStartEffects s = .next t) :
    MorphKeeps s t := by
  obtain ⟨u, v, hu, hv, rfl⟩ := velvetStartEffects_next h
  have hsrc : MorphKeeps v { v with c := { v.c with tapSrc := .cur } } :=
    ⟨rfl, rfl, rfl, fun _ _ _ => rfl⟩
  exact ((velvetStartPol_morphKeeps hu).trans (velvetStartPol_morphKeeps hv)).trans hsrc

theorem velvetStep_morphKeeps {σ : Polarity} {s t : State} (h : velvetStep σ s = .next t) :
    MorphKeeps s t := by
  have hwork := workSpace_mem_morphScratch σ
  rcases velvetStep_next h with ⟨_, _, _, _, rfl⟩ | ⟨_, _, rfl⟩ | ⟨_, _, _, _, rfl⟩ | ⟨_, _, rfl⟩
  · exact (morphKeeps_poke hwork _ _).trans (morphKeeps_setPol _ σ _)
  · exact morphKeeps_setPol s σ _
  · exact (morphKeeps_poke hwork _ _).trans (morphKeeps_setPol _ σ _)
  · exact MorphKeeps.refl _

theorem velvetUpdateEffects_morphKeeps {s t : State} (h : velvetUpdateEffects s = .next t) :
    MorphKeeps s t := by
  obtain ⟨u, hu, hv⟩ := andThen_eq_next.1 h
  exact (velvetStep_morphKeeps hu).trans (velvetStep_morphKeeps hv)

/-- A `START_MORPH` that passes its checks keeps what `MorphKeeps` names (R202, R233). -/
theorem exec_startMorph_morphKeeps {s t : State} (hs : s.c.st = .ready)
    (hf : startFault s = none) (h : exec .startMorph s = .next t) : MorphKeeps s t := by
  rcases exec_startMorph_of_no_fault hs hf with ⟨_, he⟩ | ⟨_, he⟩ <;> rw [he] at h
  · exact denseStartEffects_morphKeeps h
  · exact velvetStartEffects_morphKeeps h

/-- An `UPDATE_MORPH` that passes its checks keeps what `MorphKeeps` names (R202, R233). -/
theorem exec_updateMorph_morphKeeps {s t : State} (hs : s.c.st = .ready)
    (hf : updateFault s = none) (h : exec .updateMorph s = .next t) : MorphKeeps s t := by
  rcases exec_updateMorph_of_no_fault hs hf with ⟨_, he⟩ | ⟨_, he⟩ <;> rw [he] at h
  · exact denseUpdateEffects_morphKeeps h
  · exact velvetUpdateEffects_morphKeeps h

theorem exec_isMorphing_morphKeeps {s t : State} (hs : s.c.st = .ready)
    (h : exec .isMorphing s = .next t) : MorphKeeps s t := by
  rw [exec_isMorphing_ready hs] at h
  cases h
  exact ⟨rfl, rfl, rfl, fun _ _ _ => rfl⟩

/-- The morph commands and the query, however they end, keep what `MorphKeeps` names. -/
theorem exec_morphKeeps {i : Instr} {s t : State}
    (hi : i ∈ [Instr.startMorph, .updateMorph, .isMorphing])
    (h : exec i s = .next t) : MorphKeeps s t := by
  rcases exec_next_cases h with rfl | ⟨code, rfl⟩ | ⟨hs, hf⟩
  · exact MorphKeeps.refl _
  · exact morphKeeps_raiseFault code s
  · have hst : s.c.st = .ready := ready_of_no_fault (by rintro rfl; simp at hi) hs hf
    cases i with
    | init => simp at hi
    | process => simp at hi
    | startMorph => exact exec_startMorph_morphKeeps hst (by simpa [faultTable, hst] using hf) h
    | updateMorph => exact exec_updateMorph_morphKeeps hst (by simpa [faultTable, hst] using hf) h
    | isMorphing => exact exec_isMorphing_morphKeeps hst h

theorem not_mem_morphScratch_of_block {sp : Space} (h : sp ∈ [Space.acc, .inp, .out]) :
    sp ∉ morphScratch := by
  revert sp
  decide

/-- Settles O17: every effect of the three commands is `MorphKeeps`, and `ACC`, `IN` and `OUT` are no
scratch memories. -/
theorem morphCommandsLeaveAccumulator : Obligations.MorphCommandsLeaveAccumulator := by
  intro i s t hi h
  have hkeeps := exec_morphKeeps hi h
  exact ⟨hkeeps.wh_eq, hkeeps.na_eq, hkeeps.nb_eq,
    fun sp hsp => hkeeps.peek_eq sp (not_mem_morphScratch_of_block hsp)⟩

end Sys2Proof.Machine

end MorphFrame

section Query

/-! ### The answer of the query (R240, R241) -/

namespace Sys2Proof.Machine

theorem StatusRegs.morphing_dense {c : StatusRegs} (hst : c.st = .ready) (hk : c.kind = .dense) :
    c.morphing = true ↔ 0 < c.mrem.toNat := by
  simp [StatusRegs.morphing, hst, hk, BitVec.lt_def]

theorem StatusRegs.morphing_sparse {c : StatusRegs} (hk : c.kind = .sparse) :
    c.morphing = false := by
  cases hst : c.st <;> simp [StatusRegs.morphing, hst, hk]

/-- In READY a morph is active while the dense counter or a velvet cursor has something left (R38,
R241). -/
theorem StatusRegs.morphing_iff {c : StatusRegs} (hst : c.st = .ready) :
    c.morphing = true ↔ (c.kind = .dense ∧ 0 < c.mrem.toNat) ∨
      (c.kind = .velvet ∧ ∃ σ, 0 < (c.pol σ).rc.toNat ∨
        (c.pol σ).pc.toNat < (c.pol σ).tl.toNat) := by
  cases hk : c.kind with
  | dense => simp [morphing_dense hst hk]
  | sparse => simp [morphing_sparse hk]
  | velvet => simp [morphing_velvet hst hk, VelvetRegs.busy_iff]

theorem zeroExtend_ofBool_eq (b : Bool) :
    (BitVec.ofBool b).zeroExtend 32 = if b = true then 1#32 else 0#32 := by
  cases b <;> rfl

/-- Settles O50: in READY the query stores the bit `morphing()`, and `morphing_iff` says when it is 1. -/
theorem queryAnswersMorphing : Obligations.QueryAnswersMorphing := by
  intro s hst
  refine ⟨_, ?_, exec_isMorphing_ready hst, ?_⟩
  · rw [zeroExtend_ofBool_eq]
    exact (ite_eq_or_eq _ _ _).symm
  · rw [zeroExtend_ofBool_eq, ← StatusRegs.morphing_iff hst]
    cases s.c.morphing <;> decide

end Sys2Proof.Machine

end Query

/-! ## Faults of the block (60_exceptions.md R252 to R255, R264)

A raised fault is precise and carries a code, FAULT is left by hardware reset alone, and `PROCESS` in
READY stays inside the memories. -/

section PreciseFaults

/-! ### What the issue of a word raises (R252, R254, R264) -/

namespace Sys2Proof.Machine

open Sys2Proof.Claims

theorem initFault_ne_noFault (s : State) : initFault s ≠ some .noFault := by
  unfold initFault
  split_ifs <;> simp

theorem startFault_ne_noFault (s : State) : startFault s ≠ some .noFault := by
  unfold startFault
  cases s.c.kind with
  | dense => dsimp only; split_ifs <;> simp
  | sparse => simp
  | velvet => dsimp only; split_ifs <;> simp

theorem updateFault_ne_noFault (s : State) : updateFault s ≠ some .noFault := by
  unfold updateFault
  cases s.c.kind with
  | dense => dsimp only; split_ifs <;> simp
  | sparse => simp
  | velvet => dsimp only; split_ifs <;> simp

/-- Every row of the table raises a code of R251 other than 0. -/
theorem faultTable_ne_noFault (i : Instr) (s : State) : faultTable i s ≠ some .noFault := by
  by_cases hs : s.c.st = .uninit
  · by_cases hi : i = .init
    · exact hi ▸ initFault_ne_noFault s
    · simp [faultTable_uninit hi hs]
  · cases i with
    | init => exact initFault_ne_noFault s
    | process => simp [faultTable, hs]
    | startMorph => simpa [faultTable, hs] using startFault_ne_noFault s
    | updateMorph => simpa [faultTable, hs] using updateFault_ne_noFault s
    | isMorphing => simp [faultTable, hs]

theorem wordFault_ne_noFault (w : Word) (s : State) : wordFault w s ≠ some .noFault := by
  unfold wordFault
  split_ifs
  · simp
  · cases decode w with
    | error e => simp
    | ok i => exact faultTable_ne_noFault i s

/-- A word that takes the block into FAULT has raised the fault of its row (R252, R264). -/
theorem eq_raiseFault_of_issue {w : Word} {s t : State} (hs : s.c.st ≠ .fault)
    (h : issue w s = .next t) (ht : t.c.st = .fault) :
    ∃ code, wordFault w s = some code ∧ t = raiseFault code s := by
  cases hf : wordFault w s with
  | none => simp [issue_st_of_no_fault hs hf h] at ht
  | some code =>
    rw [issue_raises hf] at h
    cases h
    exact ⟨code, rfl, rfl⟩

/-- `STATUS.MORPHING` reads 0 in FAULT (R38). -/
theorem StatusRegs.morphing_fault {c : StatusRegs} (h : c.st = .fault) : c.morphing = false := by
  simp [StatusRegs.morphing, h]

/-- Settles O7: the word has raised its row's fault, whose code is never 0, and the state it leaves is in
FAULT. -/
theorem faultsArePrecise : Obligations.FaultsArePrecise := by
  intro w s t hs h ht
  obtain ⟨code, hcode, rfl⟩ := eq_raiseFault_of_issue hs h ht
  have hne : code ≠ .noFault := by
    rintro rfl
    exact wordFault_ne_noFault w s hcode
  exact ⟨⟨code, hne, rfl⟩, StatusRegs.morphing_fault ht, issue_fault ht⟩

/-- Settles O8: by `issue_raises` where a check fails, and by the life cycle where none does. -/
theorem firstFailingCheckDecidesFault : Obligations.FirstFailingCheckDecidesFault := fun w _ =>
  ⟨fun _ hcode => issue_raises hcode, fun hs => issue_fault hs w,
    fun hs hf _ h => issue_st_of_no_fault hs hf h⟩

/-- Settles O11: a command other than `INIT` stops at its guard, an ILLEGAL word at the decoder. -/
theorem commandBeforeInitFaults : Obligations.CommandBeforeInitFaults := by
  refine ⟨fun i s hi hs => exec_uninit hi hs, fun w s hw hs => ?_⟩
  rw [issue_illegal hw, if_neg (by simp [hs])]
  rfl

end Sys2Proof.Machine

end PreciseFaults

section StickyFault

/-! ### FAULT until hardware reset (R253, R265) -/

namespace Sys2Proof.Machine

/-- A host write of a word that exists, to a host-owned space, is made (R81). -/
theorem hostWrite_of_wellFormed {sp : Space} {i : Nat} {v : Word} {s : State}
    (h : HostMove.wellFormed s.params (.writeM sp i v) = true) :
    hostWrite sp i v s = .next (s.poke sp i v) := by
  obtain ⟨howned, hword⟩ := Bool.and_eq_true_iff.1 h
  rw [hostWrite, if_pos howned]
  exact memWrite_eq_next.2 ⟨hword, rfl⟩

/-- A host read of a word that exists is answered (R81). -/
theorem hostRead_of_wellFormed {sp : Space} {i : Nat} {s : State}
    (h : HostMove.wellFormed s.params (.readM sp i) = true) :
    hostRead sp i s = .next (answer (s.hostView sp i) s) := if_pos h

/-- In FAULT every well-formed host move answers a next state (R253). -/
theorem hostMove_completes_of_fault {m : HostMove} {s : State} (hs : s.c.st = .fault)
    (hm : m.wellFormed s.params = true) : ∃ t, hostMove m s = .next t := by
  cases m with
  | writeX i v => exact ⟨_, rfl⟩
  | readX i => exact ⟨_, rfl⟩
  | readC i => exact ⟨_, rfl⟩
  | readField f => exact ⟨_, rfl⟩
  | writeM sp i v => exact ⟨_, hostWrite_of_wellFormed hm⟩
  | readM sp i => exact ⟨_, hostRead_of_wellFormed hm⟩
  | command w => exact ⟨_, issue_fault hs w⟩
  | reset => exact ⟨_, rfl⟩

/-- In FAULT no host move but hardware reset changes a status register (R253, R265). -/
theorem hostMove_c_of_fault {m : HostMove} {s t : State} (hs : s.c.st = .fault) (hr : m ≠ .reset)
    (h : hostMove m s = .next t) : t.c = s.c := by
  by_cases hc : ∃ w, m = .command w
  · obtain ⟨w, rfl⟩ := hc
    rw [hostMove, issue_fault hs] at h
    cases h
    rfl
  · exact hostMove_c hr (not_exists.1 hc) h

/-- Settles O9: the next step is the host's next move, made in FAULT. -/
theorem faultIsStickyUntilReset : Obligations.FaultIsStickyUntilReset := by
  intro s m rest hs hhost
  rw [step_cons hhost]
  refine ⟨⟨?_, hostMove_completes_of_fault (s := { s with host := rest }) hs, ?_, ?_⟩,
    exec_fault hs⟩
  · rintro w rfl
    exact issue_fault (s := { s with host := rest }) hs w
  · exact fun hr t h => hostMove_c_of_fault (s := { s with host := rest }) hs hr h
  · rintro rfl t h
    cases h
    rfl

end Sys2Proof.Machine

end StickyFault

section ProcessAccesses

/-! ### The accesses of PROCESS (R255, R262)

Every read of the kernel is of a word that exists, so that it answers the word or is refused because nothing
has written it. `R` says which refusals are allowed. -/

namespace Sys2Proof.Machine

variable {R : Refusal → Prop}

theorem Answers.ne_fault {α : Type} {r : Res α} {Q : α → Prop} (h : Answers r Q R) (e : Fault) :
    r ≠ .fault e := by
  rintro rfl
  exact h

/-- The word exists, and `R` allows the refusal of its read where nothing has written it. -/
def Readable (R : Refusal → Prop) (s : State) (sp : Space) (i : Nat) : Prop :=
  s.params.hasWord sp i = true ∧ (s.peek sp i = none → R (.unwrittenWord sp i))

theorem Readable.memRead_answers {s : State} {sp : Space} {i : Nat} (h : Readable R s sp i) :
    Answers (memRead sp i s) (fun w => s.peek sp i = some w) R :=
  Machine.memRead_answers h.1 h.2

theorem Written.readable {s : State} {sp : Space} {n i : Nat} (h : Written s sp n) (hi : i < n)
    (hw : s.params.hasWord sp i = true) : Readable R s sp i :=
  ⟨hw, fun hnone => by simpa [hnone] using h i hi⟩

/-- Registers, parameters and what was written are kept; any word may take another value. -/
abbrev Keeps (s t : State) : Prop := Leaves (fun _ _ => True) s t

theorem Readable.keep {s t : State} {sp : Space} {i : Nat} (h : Readable R s sp i)
    (hk : Keeps s t) : Readable R t sp i := by
  obtain ⟨hword, hunwritten⟩ := h
  refine ⟨by rwa [hk.params_eq], fun hnone => hunwritten ?_⟩
  by_contra hsome
  simpa [hnone] using hk.written sp i (Option.isSome_iff_ne_none.2 hsome)

/-- What lets the sample steps of the next `PROCESS` make their accesses: slots, samples and live taps
(R142 to R146). -/
structure KernelReady (R : Refusal → Prop) (s : State) : Prop where
  bufLen_pos : 0 < s.c.bufLen.toNat
  layout_eq : s.c.layout = layoutOf s.c.channels
  slots : ∀ i < s.c.bufLen.toNat, Readable R s .acc i
  samples : ∀ i < s.x.block.toNat * s.c.channels.toNat, Readable R s .inp i
  dense_taps : s.c.kind = .dense → ∀ t < s.c.na.toNat, Readable R s s.c.denseTaps t
  sparse_taps : s.c.kind = .sparse →
    ∀ t < s.c.na.toNat, Readable R s .spos t ∧ Readable R s .sval t
  velvet_taps : s.c.kind = .velvet →
    ∀ σ, ∀ t < (s.c.liveCount σ).toNat, Readable R s (s.c.velvetTaps σ) t

theorem KernelReady.keep {s t : State} (h : KernelReady R s) (hk : Keeps s t) :
    KernelReady R t where
  bufLen_pos := by rw [hk.c_eq]; exact h.bufLen_pos
  layout_eq := by rw [hk.c_eq]; exact h.layout_eq
  slots i hi := (h.slots i (by rwa [hk.c_eq] at hi)).keep hk
  samples i hi := (h.samples i (by rwa [hk.c_eq, hk.x_eq] at hi)).keep hk
  dense_taps hkind i hi := by
    rw [hk.c_eq] at hkind hi ⊢
    exact (h.dense_taps hkind i hi).keep hk
  sparse_taps hkind i hi := by
    rw [hk.c_eq] at hkind hi
    exact (h.sparse_taps hkind i hi).imp (·.keep hk) (·.keep hk)
  velvet_taps hkind σ i hi := by
    rw [hk.c_eq] at hkind hi ⊢
    exact (h.velvet_taps hkind σ i hi).keep hk

/-- The advance moves the write head, on which no access bound depends (R147). -/
theorem KernelReady.advance {s : State} (h : KernelReady R s) : KernelReady R (advance s) :=
  ⟨h.bufLen_pos, h.layout_eq, h.slots, h.samples, h.dense_taps, h.sparse_taps, h.velvet_taps⟩

section Phases

variable {s : State} {f : Nat}

theorem KernelReady.slot_readable (h : KernelReady R s) (ch d : Nat) :
    Readable R s .acc (s.c.slot ch d) :=
  h.slots _ (wrap_lt h.bufLen_pos _)

theorem KernelReady.sample_readable (h : KernelReady R s) {ch : Nat} (hf : f < s.x.block.toNat)
    (hch : ch < s.c.channels.toNat) : Readable R s .inp (s.c.sampleIndex f ch) := by
  refine h.samples _ ?_
  calc f * s.c.channels.toNat + ch
      < (f + 1) * s.c.channels.toNat := by rw [Nat.succ_mul]; omega
    _ ≤ s.x.block.toNat * s.c.channels.toNat := Nat.mul_le_mul_right _ hf

theorem forN_keeps {n : Nat} {body : Nat → State → Res State}
    (hbody : ∀ i u, i < n → Keeps s u → Answers (body i u) (Keeps u) R) :
    Answers (forN n body s) (Keeps s) R :=
  forN_answers (P := fun _ u => Keeps s u) (Leaves.refl _ s)
    fun i u hi hu => (hbody i u hi hu).mono fun _ _ ht => hu.trans ht

theorem KernelReady.fanout_keeps (h : KernelReady R s) {op : Nat → State → Res State}
    (hop : ∀ ch u, ch < s.c.channels.toNat → Keeps s u → Answers (op ch u) (Keeps u) R) :
    Answers (fanout op s) (Keeps s) R :=
  fanout_answers h.layout_eq (Leaves.refl _ s)
    fun ch u hch hu => (hop ch u hch hu).mono fun _ _ ht => hu.trans ht

theorem KernelReady.accOp_answers (h : KernelReady R s) {d ch : Nat} (k : Contribution)
    (hf : f < s.x.block.toNat) (hch : ch < s.c.channels.toNat) :
    Answers (accOp f d k ch s) (Keeps s) R := by
  have hslot := h.slot_readable ch d
  refine hslot.memRead_answers.andThen fun a _ _ =>
    (h.sample_readable hf hch).memRead_answers.andThen fun v _ _ => ?_
  have hsum : Keeps s (fpAdd a (contribute k v s).1 (contribute k v s).2).2 :=
    (contribute_leaves _ k v s).trans (leaves_fpResult _ _ _)
  exact (memWrite_answers (hslot.keep hsum).1).mono
    fun t ht _ => hsum.trans (leaves_memWrite ht trivial)

/-- One tap of any kind, on every channel (R142). -/
theorem KernelReady.tap_answers (h : KernelReady R s) (hf : f < s.x.block.toNat) (d : Nat)
    (k : Contribution) : Answers (fanout (accOp f d k) s) (Keeps s) R :=
  h.fanout_keeps fun _ _ hch hu =>
    (h.keep hu).accOp_answers k (by rwa [hu.x_eq]) (by rwa [hu.c_eq])

theorem KernelReady.denseTaps_answers (h : KernelReady R s) (hf : f < s.x.block.toNat)
    (hk : s.c.kind = .dense) : Answers (forN s.c.na.toNat (denseTap f) s) (Keeps s) R := by
  refine forN_keeps fun t u ht hu => ?_
  have htap : Readable R u u.c.denseTaps t := by
    rw [hu.c_eq]
    exact (h.dense_taps hk t ht).keep hu
  exact htap.memRead_answers.andThen
    fun v _ _ => (h.keep hu).tap_answers (by rwa [hu.x_eq]) t (.scaled v)

theorem KernelReady.sparseTaps_answers (h : KernelReady R s) (hf : f < s.x.block.toNat)
    (hk : s.c.kind = .sparse) : Answers (forN s.c.na.toNat (sparseTap f) s) (Keeps s) R := by
  refine forN_keeps fun t u ht hu => ?_
  obtain ⟨hpos, hval⟩ := h.sparse_taps hk t ht
  exact (hpos.keep hu).memRead_answers.andThen
    fun d _ _ => (hval.keep hu).memRead_answers.andThen
      fun v _ _ => (h.keep hu).tap_answers (by rwa [hu.x_eq]) d.toNat (.scaled v)

theorem KernelReady.velvetTaps_answers (h : KernelReady R s) (hf : f < s.x.block.toNat)
    (hk : s.c.kind = .velvet) (σ : Polarity) :
    Answers (forN (s.c.liveCount σ).toNat (velvetTap σ f) s) (Keeps s) R := by
  refine forN_keeps fun t u ht hu => ?_
  have htap : Readable R u (u.c.velvetTaps σ) t := by
    rw [hu.c_eq]
    exact (h.velvet_taps hk σ t ht).keep hu
  exact htap.memRead_answers.andThen
    fun d _ _ => (h.keep hu).tap_answers (by rwa [hu.x_eq]) d.toNat σ.contribution

theorem KernelReady.accumulate_answers (h : KernelReady R s) (hf : f < s.x.block.toNat) :
    Answers (accumulate f s) (Keeps s) R := by
  unfold accumulate
  cases hk : s.c.kind with
  | dense => exact h.denseTaps_answers hf hk
  | sparse => exact h.sparseTaps_answers hf hk
  | velvet =>
    refine (h.velvetTaps_answers hf hk .pos).andThen fun u _ hu => ?_
    exact ((h.keep hu).velvetTaps_answers (by rwa [hu.x_eq]) (by rwa [hu.c_eq]) .neg).mono
      fun _ _ ht => hu.trans ht

theorem KernelReady.emitOp_answers (h : KernelReady R s) (ch : Nat) :
    Answers (emitOp f ch s) (Keeps s) R := by
  have hslot := h.slot_readable ch 0
  rw [← emitSlot_eq_slot] at hslot
  refine hslot.memRead_answers.andThen fun w _ _ =>
    (memWrite_answers (sp := .out) rfl).andThen fun u hu _ => ?_
  have hout : Keeps s u := leaves_memWrite hu trivial
  exact (memWrite_answers (hslot.keep hout).1).mono
    fun t ht _ => hout.trans (leaves_memWrite ht trivial)

theorem KernelReady.emitAndClear_answers (h : KernelReady R s) :
    Answers (emitAndClear f s) (Keeps s) R :=
  h.fanout_keeps fun ch _ _ hu => (h.keep hu).emitOp_answers ch

theorem KernelReady.sampleStep_answers (h : KernelReady R s) (hf : f < s.x.block.toNat) :
    Answers (sampleStep f s) (fun t => KernelReady R t ∧ t.x = s.x) R :=
  (h.accumulate_answers hf).andThen fun _ _ hu =>
    (h.keep hu).emitAndClear_answers.andThen fun _ _ hv =>
      ⟨((h.keep hu).keep hv).advance, hv.x_eq.trans hu.x_eq⟩

theorem KernelReady.processFrames_answers (h : KernelReady R s) :
    Answers (processFrames s.x.block.toNat s) (KernelReady R) R :=
  (forN_answers (P := fun _ u => KernelReady R u ∧ u.x = s.x) ⟨h, rfl⟩ fun i u hi hu => by
    obtain ⟨hready, hx⟩ := hu
    exact (hready.sampleStep_answers (by rwa [hx])).mono
      fun t _ ht => ⟨ht.1, ht.2.trans hx⟩).mono fun _ _ ht => ht.1

end Phases

/-! ### The invariant admits every access (R51, R90, R262) -/

theorem hasWord_viewSpace (p : Params) (σ : Polarity) (i : Nat) :
    p.hasWord (viewSpace σ) i = decide (i < p.irDepth) := by
  cases σ <;> rfl

theorem hostOwned_viewSpace (σ : Polarity) : (viewSpace σ).hostOwned = true := by
  cases σ <;> rfl

theorem ReadyInv.viewCount_fits {s : State} (h : ReadyInv s) (σ : Polarity) :
    (s.c.viewCount σ).toNat ≤ s.params.irDepth := by
  cases σ with
  | pos => exact h.na_fits
  | neg => exact h.nb_fits

section Invariant

variable {s : State}
  (hR : ∀ sp i, sp.hostOwned = true → s.peek sp i = none → R (.unwrittenWord sp i))

include hR

theorem ReadyInv.denseTaps_readable (h : ReadyInv s) (hk : s.c.kind = .dense) {t : Nat}
    (ht : t < s.c.na.toNat) : Readable R s s.c.denseTaps t := by
  cases hsrc : s.c.tapSrc with
  | ir =>
    rw [denseTaps_ir hsrc]
    exact ⟨decide_eq_true (ht.trans_le h.na_fits), hR _ _ rfl⟩
  | cur =>
    rw [denseTaps_cur hsrc]
    have hfits := h.dense_scratch hk (h.cur_morph hsrc)
    exact (h.dcur_written hk hsrc).readable ht (decide_eq_true (ht.trans_le hfits))

theorem ReadyInv.velvetTaps_readable (h : ReadyInv s) (σ : Polarity) {t : Nat}
    (ht : t < (s.c.liveCount σ).toNat) : Readable R s (s.c.velvetTaps σ) t := by
  cases hsrc : s.c.tapSrc with
  | ir =>
    simp only [StatusRegs.liveCount, StatusRegs.velvetTaps, hsrc] at ht ⊢
    refine ⟨?_, hR _ _ (hostOwned_viewSpace σ)⟩
    rw [hasWord_viewSpace]
    exact decide_eq_true (ht.trans_le (h.viewCount_fits σ))
  | cur =>
    simp only [StatusRegs.liveCount, StatusRegs.velvetTaps, hsrc] at ht ⊢
    have hσ := h.polarity σ
    refine hσ.work_written.readable ht ?_
    rw [hasWord_workSpace]
    exact decide_eq_true (ht.trans_le (le_trans hσ.len_le_cap hσ.cap_fits))

/-- The engine-written words that `PROCESS` reads have all been written (R90), so only words the host has
not loaded need `R`'s leave. -/
theorem ReadyInv.kernelReady (h : ReadyInv s) : KernelReady R s where
  bufLen_pos := h.bufLen_pos
  layout_eq := h.layout_eq
  slots _ hi := h.acc_written.readable hi (decide_eq_true (hi.trans_le h.bufLen_fits))
  samples _ _ := ⟨rfl, hR _ _ rfl⟩
  dense_taps hk _ ht := h.denseTaps_readable hR hk ht
  sparse_taps _ _ ht :=
    have hword := decide_eq_true (ht.trans_le h.na_fits)
    ⟨⟨hword, hR _ _ rfl⟩, ⟨hword, hR _ _ rfl⟩⟩
  velvet_taps _ σ _ ht := h.velvetTaps_readable hR σ ht

end Invariant

/-- `PROCESS` writes no status register but the write head (R147). -/
theorem processFrames_c {n : Nat} {s t : State} (h : processFrames n s = .next t) :
    t.c = { s.c with wh := t.c.wh } :=
  forN_induct (P := fun _ u => u.c = { s.c with wh := u.c.wh }) rfl (fun _ u v _ hu hv => by
    rw [(sampleStep_leaves (W := fun _ _ => True) (by simp) (by simp) hv).2, advance_c, hu]) h

theorem MachineInv.fcode_of_ready {s : State} (h : MachineInv s) (hs : s.c.st = .ready) :
    s.c.fcode = .noFault := by
  by_contra hcode
  have hfault := h.fault_code.2 hcode
  simp [hs] at hfault

end Sys2Proof.Machine

end ProcessAccesses

section ProcessStaysReady

namespace Sys2Proof.Machine

/-- Settles O12: in READY the invariant admits every access of the sample steps, and these write no status
register but the write head. -/
theorem processNeverFaults : Obligations.ProcessNeverFaults := by
  intro s hinv hs
  rw [exec_process_ready hs]
  have hready : KernelReady (fun _ => True) s :=
    (hinv.ready hs).kernelReady fun _ _ _ _ => trivial
  refine ⟨hready.processFrames_answers.ne_fault, fun t h => ?_⟩
  rw [processFrames_c h]
  exact ⟨hs, hinv.fcode_of_ready hs⟩

end Sys2Proof.Machine

end ProcessStaysReady

/-! ## The wrap unit and the fan-out unit (40_wrap_and_fanout.md R121 to R132)

The policy predicate, `wrap` as a remainder and its laws, and the four layouts as one loop. -/

section WrapUnit

/-! ### Wrap as a remainder (R121 to R127) -/

namespace Sys2Proof.Machine

theorem isPow2_iff (n : Nat) : isPow2 n = true ↔ ∃ k, n = 2 ^ k := by
  rw [isPow2, Bool.and_eq_true, decide_eq_true_iff, decide_eq_true_iff]
  exact Nat.ne_zero_and_sub_one_eq_zero_iff_isPowerOfTwo

theorem policyOf_eq_mask_iff (w : Word) : policyOf w = .mask ↔ ∃ k, w.toNat = 2 ^ k := by
  rw [← isPow2_iff, policyOf]
  split <;> simp [*]

/-- Under the policy that `INIT` selects, `wrap` is the remainder (R121, R124). -/
theorem wrap_eq_mod {c : StatusRegs} (h : c.policy = policyOf c.bufLen) (a : Nat) :
    c.wrap a = a % c.bufLen.toNat := by
  cases hp : c.policy with
  | modulo => simp only [StatusRegs.wrap, hp]
  | mask =>
    obtain ⟨k, hk⟩ := (policyOf_eq_mask_iff c.bufLen).1 (h ▸ hp)
    simp only [StatusRegs.wrap, hp, hk, Nat.and_two_pow_sub_one_eq_mod]

/-- Settles O37: by `wrap_eq_mod`, whose MASK case is the library's fact on masking with `2^k - 1`. -/
theorem wrapIsRemainder : Obligations.WrapIsRemainder :=
  ⟨fun _ a h _ => wrap_eq_mod h a, Nat.and_two_pow_sub_one_eq_mod⟩

/-- Settles O38: the four laws are those of the remainder. -/
theorem wrapLaws : Obligations.WrapLaws := by
  intro c a b h hpos
  simp only [wrap_eq_mod h]
  exact ⟨Nat.mod_lt a hpos, Nat.mod_eq_of_lt, Nat.mod_add_mod a _ b, Nat.add_mod_right a _⟩

/-- Settles O39: the predicate by the library's fact on `n &&& (n - 1)`, the selection because a completed
`INIT` has stored `policyOf` of the buffer length. -/
theorem maskPolicyForPowersOfTwo : Obligations.MaskPolicyForPowersOfTwo := by
  refine ⟨isPow2_iff, fun s hs hf => ?_⟩
  obtain ⟨k, t, ht, heff⟩ := exec_init_completes hs hf
  refine ⟨t, ht, ?_⟩
  rw [(initEffects_next heff).1]
  exact policyOf_eq_mask_iff s.x.buflen

end Sys2Proof.Machine

end WrapUnit

section FanoutUnit

/-! ### The layouts as the loop over the channels (R130 to R133) -/

namespace Sys2Proof.Machine

/-- In every layout that `INIT` selects the fan-out is the ascending loop (R132). -/
theorem fanout_eq_forN (op : Nat → State → Res State) {s : State}
    (h : s.c.layout = layoutOf s.c.channels) : fanout op s = forN s.c.channels.toNat op s := by
  unfold fanout
  rw [h]
  rcases layoutOf_cases s.c.channels with ⟨hl, hc⟩ | ⟨hl, hc⟩ | ⟨hl, hc⟩ | hl <;> rw [hl]
  · rw [hc]; rfl
  · rw [hc]; rfl
  · rw [hc]; rfl

/-- Settles O40: by `fanout_eq_forN`. -/
theorem fanoutLayoutsAgree : Obligations.FanoutLayoutsAgree := fun op _ h => fanout_eq_forN op h

end Sys2Proof.Machine

end FanoutUnit

/-! ## What each command writes (10_state.md R21, R30, R34 to R37; 20_memory.md R70, R74)

The words a command may write, whatever the state it is issued in, and what it makes of the status
registers. -/

section WrittenWords

/-! ### No command writes a host-owned word or an operand register (R21, R74, R179) -/

namespace Sys2Proof.Machine

/-- As `Leaves`, for a part of a command that also writes status registers. -/
abbrev LeavesButRegs (W : Space → Nat → Prop) (s t : State) : Prop := Leaves W s { t with c := s.c }

theorem LeavesButRegs.trans {W : Space → Nat → Prop} {s t u : State} (h1 : LeavesButRegs W s t)
    (h2 : LeavesButRegs W t u) : LeavesButRegs W s u where
  x_eq := h2.x_eq.trans h1.x_eq
  c_eq := rfl
  params_eq := h2.params_eq.trans h1.params_eq
  host_eq := h2.host_eq.trans h1.host_eq
  answers_eq := h2.answers_eq.trans h1.answers_eq
  peek_eq sp i hn := (h2.peek_eq sp i hn).trans (h1.peek_eq sp i hn)
  written sp i hw := h2.written sp i (h1.written sp i hw)
  wf hw := h2.wf (h1.wf hw)

/-- A state that differs in the status registers and in the free draws alone. -/
theorem leavesButRegs_setC (W : Space → Nat → Prop) (s : State) (c : StatusRegs) :
    LeavesButRegs W s { s with c := c } := Leaves.refl W s

/-- The words of the memories that the host does not own (R70, R81). -/
def EngineWords : Space → Nat → Prop := fun sp _ => sp.hostOwned = false

theorem hostOwned_workSpace (σ : Polarity) : (workSpace σ).hostOwned = false := by cases σ <;> rfl

theorem hostOwned_initialSpace (σ : Polarity) : (initialSpace σ).hostOwned = false := by
  cases σ <;> rfl

theorem hostOwned_snapshotSpace (σ : Polarity) : (snapshotSpace σ).hostOwned = false := by
  cases σ <;> rfl

theorem hostOwned_targetSpace (σ : Polarity) : (targetSpace σ).hostOwned = true := by
  cases σ <;> rfl

theorem processFrames_leaves {n : Nat} {s t : State} (h : processFrames n s = .next t) :
    LeavesButRegs EngineWords s t :=
  forN_induct (P := fun _ u => LeavesButRegs EngineWords s u) (Leaves.refl _ s)
    (fun _ _ _ _ hu hv => hu.trans (sampleStep_leaves (fun _ _ => rfl) (fun _ => rfl) hv).1) h

theorem denseStartEffects_leaves {s t : State} (h : denseStartEffects s = .next t) :
    LeavesButRegs EngineWords s t :=
  (denseStartEffects_next h).2.mono fun sp _ hw => by
    obtain ⟨rfl | rfl, _⟩ := hw <;> rfl

theorem denseUpdateEffects_leaves {s t : State} (h : denseUpdateEffects s = .next t) :
    LeavesButRegs EngineWords s t := by
  rcases denseUpdateEffects_next h with ⟨_, rfl⟩ | ⟨_, _, hl⟩
  · exact Leaves.refl _ _
  · exact hl.mono fun sp _ hw => by rw [hw.1]; rfl

theorem velvetStartPol_leaves {σ : Polarity} {s t : State} (h : velvetStartPol σ s = .next t) :
    LeavesButRegs EngineWords s t := by
  obtain ⟨_, _, hl, _⟩ := velvetStartPol_next h
  refine hl.mono ?_
  rintro sp i (⟨rfl, _⟩ | ⟨rfl, _⟩ | ⟨rfl, _⟩)
  · exact hostOwned_workSpace σ
  · exact hostOwned_initialSpace σ
  · exact hostOwned_snapshotSpace σ

theorem velvetStartEffects_leaves {s t : State} (h : velvetStartEffects s = .next t) :
    LeavesButRegs EngineWords s t := by
  obtain ⟨u, v, hu, hv, rfl⟩ := velvetStartEffects_next h
  exact ((velvetStartPol_leaves hu).trans (velvetStartPol_leaves hv)).trans
    (leavesButRegs_setC _ v _)

/-- The move of one element into a working array, as `velvetStep` makes it. -/
theorem leavesButRegs_memWrite {W : Space → Nat → Prop} {sp : Space} {i : Nat} {v : Word}
    {s u : State} (h : memWrite sp i v s = .next u) (hw : W sp i) (c : StatusRegs) :
    LeavesButRegs W s { u with c := c } := by
  have hl := leaves_memWrite h hw
  exact { hl with c_eq := rfl }

/-- A substitution's slot as the machine computes it is the one that R221 names. -/
theorem stepSlot_substitute (p : SubstSlot) {r : VelvetRegs} (hr : 0 < r.rc.toNat)
    (hp : r.pc.toNat < r.tl.toNat) : Claims.stepSlot p r = some (substitutionSlot p r) := by
  unfold Claims.stepSlot
  rw [if_pos ⟨hr, hp⟩]
  cases p with
  | regression => exact congrArg some (toNat_sub_one hr).symm
  | progression => rfl

theorem stepSlot_append (p : SubstSlot) {r : VelvetRegs} (hr : ¬ 0 < r.rc.toNat)
    (hp : r.pc.toNat < r.tl.toNat) : Claims.stepSlot p r = some r.len.toNat := by
  unfold Claims.stepSlot
  rw [if_neg fun h => hr h.1, if_neg hr, if_pos hp]

/-- Without a target element left a step writes no slot. -/
theorem stepSlot_eq_none (p : SubstSlot) {r : VelvetRegs} (hp : ¬ r.pc.toNat < r.tl.toNat) :
    Claims.stepSlot p r = none := by
  unfold Claims.stepSlot
  rw [if_neg fun h => hp h.2, if_neg hp, ite_self]

/-- One step of R220 writes at most the slot that the step names. -/
theorem velvetStep_leaves {σ : Polarity} {s t : State} (h : velvetStep σ s = .next t) :
    LeavesButRegs (fun sp i => sp = workSpace σ ∧
      Claims.stepSlot s.params.substSlot (s.c.pol σ) = some i) s t := by
  unfold velvetStep at h
  simp only [BitVec.lt_def] at h
  split_ifs at h with hsub hrem happ
  · obtain ⟨v, _, h⟩ := andThen_eq_next.1 h
    obtain ⟨u, hu, h⟩ := andThen_eq_next.1 h
    cases h
    exact leavesButRegs_memWrite hu ⟨rfl, stepSlot_substitute _ hsub.1 hsub.2⟩ _
  · cases h
    exact leavesButRegs_setC _ s _
  · obtain ⟨v, _, h⟩ := andThen_eq_next.1 h
    obtain ⟨u, hu, h⟩ := andThen_eq_next.1 h
    cases h
    exact leavesButRegs_memWrite hu ⟨rfl, stepSlot_append _ hrem happ⟩ _
  · cases h
    exact Leaves.refl _ s

theorem velvetUpdateEffects_leaves {s t : State} (h : velvetUpdateEffects s = .next t) :
    LeavesButRegs EngineWords s t := by
  have hengine : ∀ {σ a b}, velvetStep σ a = .next b → LeavesButRegs EngineWords a b :=
    fun hs => (velvetStep_leaves hs).mono fun sp _ hw => by rw [hw.1]; exact hostOwned_workSpace _
  obtain ⟨u, hu, hv⟩ := andThen_eq_next.1 h
  exact (hengine hu).trans (hengine hv)

/-- Every command writes engine-owned words and status registers, and nothing else but the count of free
draws. -/
theorem exec_leaves {i : Instr} {s t : State} (h : exec i s = .next t) :
    LeavesButRegs EngineWords s t := by
  rcases exec_next_cases h with rfl | ⟨code, rfl⟩ | ⟨hs, hf⟩
  · exact Leaves.refl _ _
  · exact leavesButRegs_setC _ s _
  · cases i with
    | init =>
      obtain ⟨k, u, hu, heff⟩ := exec_init_completes hs hf
      cases hu.symm.trans h
      exact (initEffects_next heff).2.1.mono fun sp _ hw => by rw [hw.1]; rfl
    | process =>
      have hst := ready_of_no_fault (by decide) hs hf
      exact processFrames_leaves ((exec_process_ready hst).symm.trans h)
    | startMorph =>
      have hst := ready_of_no_fault (by decide) hs hf
      rcases exec_startMorph_of_no_fault hst (by simpa [faultTable, hst] using hf) with
        ⟨_, he⟩ | ⟨_, he⟩
      · exact denseStartEffects_leaves (he.symm.trans h)
      · exact velvetStartEffects_leaves (he.symm.trans h)
    | updateMorph =>
      have hst := ready_of_no_fault (by decide) hs hf
      rcases exec_updateMorph_of_no_fault hst (by simpa [faultTable, hst] using hf) with
        ⟨_, he⟩ | ⟨_, he⟩
      · exact denseUpdateEffects_leaves (he.symm.trans h)
      · exact velvetUpdateEffects_leaves (he.symm.trans h)
    | isMorphing =>
      have hst := ready_of_no_fault (by decide) hs hf
      cases (exec_isMorphing_ready hst).symm.trans h
      exact leavesButRegs_setC _ s _

theorem LeavesButRegs.outside {W : Space → Nat → Prop} {s t : State} (h : LeavesButRegs W s t) :
    Outside s t := ⟨h.x_eq, h.params_eq, h.host_eq, h.answers_eq⟩

/-- Settles O15: a command writes engine-owned words only. -/
theorem commandsLeaveHostStateAlone : Obligations.CommandsLeaveHostStateAlone := by
  intro i s t h
  have hl := exec_leaves h
  refine ⟨hl.outside, fun sp hsp j => hl.peek_eq sp j fun hw => ?_⟩
  exact absurd (hsp.symm.trans hw) (by decide)

end Sys2Proof.Machine

end WrittenWords

section CommandRegisters

/-! ### The status registers after a command (R30, R33 to R49) -/

namespace Sys2Proof.Machine

open Sys2Proof.Claims

theorem liveCount_setPol_ne (c : StatusRegs) {σ τ : Polarity} (r : VelvetRegs) (h : τ ≠ σ) :
    (c.setPol σ r).liveCount τ = c.liveCount τ := by
  simp only [StatusRegs.liveCount, setPol_tapSrc, setPol_viewCount, pol_setPol_ne _ _ _ _ h]

/-- A velvet `START_MORPH` leaves both polarities freshly started (R210). -/
theorem velvetStartEffects_c {s t : State} (h : velvetStartEffects s = .next t) :
    t.c = { s.c with tapSrc := .cur, pos := startedRegs s .pos, neg := startedRegs s .neg } := by
  obtain ⟨u, v, hu, hv, rfl⟩ := velvetStartEffects_next h
  have hcu := (velvetStartPol_next hu).1
  have hcv := (velvetStartPol_next hv).1
  have hlive : u.c.liveCount .neg = s.c.liveCount .neg := by
    rw [hcu]
    exact liveCount_setPol_ne _ _ (by decide)
  have hx : u.x = s.x := (velvetStartPol_leaves hu).x_eq
  rw [hlive, hx, hcu] at hcv
  simp only [hcv]
  rfl

/-- A velvet `UPDATE_MORPH` steps both polarities (R219). -/
theorem velvetUpdateEffects_c {s t : State} (h : velvetUpdateEffects s = .next t) :
    t.c = { s.c with pos := stepRegs s.c.pos, neg := stepRegs s.c.neg } := by
  obtain ⟨u, hu, hv⟩ := andThen_eq_next.1 h
  rw [velvetStep_c hv, velvetStep_c hu]
  rfl

/-- The status registers that a command which raises no fault can leave. -/
def RegsAfter (i : Instr) (s : State) (c : StatusRegs) : Prop :=
  match i with
  | .init => ∃ k, c = initRegs s k
  | .process => ∃ wh, c = { s.c with wh := wh }
  | .startMorph =>
    c = { s.c with mrem := s.x.steps, tapSrc := .cur } ∨
    c = { s.c with tapSrc := .cur, pos := startedRegs s .pos, neg := startedRegs s .neg }
  | .updateMorph =>
    (∃ mrem, c = { s.c with mrem := mrem }) ∨
    c = { s.c with pos := stepRegs s.c.pos, neg := stepRegs s.c.neg }
  | .isMorphing => ∃ result, c = { s.c with result := result }

theorem exec_regsAfter {i : Instr} {s t : State} (hs : s.c.st ≠ .fault) (hf : faultTable i s = none)
    (h : exec i s = .next t) : RegsAfter i s t.c := by
  cases i with
  | init =>
    obtain ⟨k, u, hu, heff⟩ := exec_init_completes hs hf
    cases hu.symm.trans h
    exact ⟨k, (initEffects_next heff).1⟩
  | process =>
    have hst := ready_of_no_fault (by decide) hs hf
    exact ⟨_, processFrames_c ((exec_process_ready hst).symm.trans h)⟩
  | startMorph =>
    have hst := ready_of_no_fault (by decide) hs hf
    rcases exec_startMorph_of_no_fault hst (by simpa [faultTable, hst] using hf) with
      ⟨_, he⟩ | ⟨_, he⟩
    · exact .inl (denseStartEffects_next (he.symm.trans h)).1
    · exact .inr (velvetStartEffects_c (he.symm.trans h))
  | updateMorph =>
    have hst := ready_of_no_fault (by decide) hs hf
    rcases exec_updateMorph_of_no_fault hst (by simpa [faultTable, hst] using hf) with
      ⟨_, he⟩ | ⟨_, he⟩
    · rcases denseUpdateEffects_next (he.symm.trans h) with ⟨_, rfl⟩ | ⟨_, hc, _⟩
      · exact .inl ⟨_, rfl⟩
      · exact .inl ⟨_, hc⟩
    · exact .inr (velvetUpdateEffects_c (he.symm.trans h))
  | isMorphing =>
    have hst := ready_of_no_fault (by decide) hs hf
    cases (exec_isMorphing_ready hst).symm.trans h
    exact ⟨_, rfl⟩

/-- The status registers after any command: as they were, a fault entered, or `RegsAfter`. -/
theorem exec_c_cases {i : Instr} {s t : State} (h : exec i s = .next t) :
    t.c = s.c ∨ (∃ code, t.c = { s.c with st := .fault, fcode := code }) ∨ RegsAfter i s t.c := by
  rcases exec_next_cases h with rfl | ⟨code, rfl⟩ | ⟨hs, hf⟩
  · exact .inl rfl
  · exact .inr (.inl ⟨code, rfl⟩)
  · exact .inr (.inr (exec_regsAfter hs hf h))

/-- Every command is in the row of `STATUS` (R30). -/
theorem mem_statusWriters_zero (i : Instr) : i ∈ statusWriters 0 := by
  cases i <;> decide

/-- The entry into FAULT writes `STATUS` alone (R252). -/
theorem get_fault_entry (c : StatusRegs) (code : FaultCode) {j : Fin 18} (hj : j ≠ 0) :
    ({ c with st := .fault, fcode := code } : StatusRegs).get j = c.get j := by
  fin_cases j
  · exact absurd rfl hj
  all_goals rfl

/-- The registers that `RegsAfter` changes are those whose row names the command (R30). -/
theorem RegsAfter.get_eq {i : Instr} {s : State} {c : StatusRegs} (h : RegsAfter i s c) {j : Fin 18}
    (hj : i ∉ statusWriters j) : c.get j = s.c.get j := by
  cases i with
  | init => fin_cases j <;> simp [statusWriters] at hj
  | process =>
    obtain ⟨_, rfl⟩ := h
    fin_cases j <;> simp [statusWriters] at hj <;> rfl
  | startMorph =>
    rcases h with rfl | rfl
    all_goals fin_cases j <;> simp [statusWriters] at hj <;> rfl
  | updateMorph =>
    rcases h with ⟨_, rfl⟩ | rfl
    · fin_cases j <;> simp [statusWriters] at hj <;> rfl
    · fin_cases j <;> simp [statusWriters] at hj <;>
        simp [StatusRegs.get, StatusRegs.toList]
  | isMorphing =>
    obtain ⟨_, rfl⟩ := h
    fin_cases j <;> simp [statusWriters] at hj <;> rfl

/-- Settles O14: by the registers each command can leave, against the rows of R30, and by
`step_c_of_no_command` for the host's other moves. -/
theorem statusRegistersHaveTheirWriters : Obligations.StatusRegistersHaveTheirWriters := by
  refine ⟨fun i s t h j hj => ?_, fun s t m rest hm hr hc h => step_c_of_no_command hm hr hc h⟩
  rcases exec_c_cases h with hc | ⟨code, hc⟩ | hc
  · rw [hc]
  · rw [hc]
    refine get_fault_entry s.c code ?_
    rintro rfl
    exact hj (mem_statusWriters_zero i)
  · exact hc.get_eq hj

/-- `c'` has the configuration of `c`, and the tap source has not gone back to the IR view. -/
structure KeepsConfig (c c' : StatusRegs) : Prop where
  kind_eq : c'.kind = c.kind
  policy_eq : c'.policy = c.policy
  layout_eq : c'.layout = c.layout
  morphEn_eq : c'.morphEn = c.morphEn
  bufLen_eq : c'.bufLen = c.bufLen
  channels_eq : c'.channels = c.channels
  na_eq : c'.na = c.na
  nb_eq : c'.nb = c.nb
  cap_eq : ∀ σ, (c'.pol σ).cap = (c.pol σ).cap
  cur_eq : c.tapSrc = .cur → c'.tapSrc = .cur

theorem KeepsConfig.refl (c : StatusRegs) : KeepsConfig c c :=
  ⟨rfl, rfl, rfl, rfl, rfl, rfl, rfl, rfl, fun _ => rfl, id⟩

/-- No command but `INIT` rewrites the configuration (R312). -/
theorem RegsAfter.keepsConfig {i : Instr} {s : State} {c : StatusRegs} (hi : i ≠ .init)
    (h : RegsAfter i s c) : KeepsConfig s.c c := by
  cases i with
  | init => exact absurd rfl hi
  | process =>
    obtain ⟨_, rfl⟩ := h
    exact { KeepsConfig.refl s.c with cap_eq := fun σ => by cases σ <;> rfl }
  | startMorph =>
    rcases h with rfl | rfl
    all_goals
      exact { KeepsConfig.refl s.c with
        cap_eq := fun σ => by cases σ <;> rfl
        cur_eq := fun _ => rfl }
  | updateMorph =>
    rcases h with ⟨_, rfl⟩ | rfl
    · exact { KeepsConfig.refl s.c with cap_eq := fun σ => by cases σ <;> rfl }
    · exact { KeepsConfig.refl s.c with cap_eq := fun σ => by cases σ <;> exact stepRegs_cap _ }
  | isMorphing =>
    obtain ⟨_, rfl⟩ := h
    exact { KeepsConfig.refl s.c with cap_eq := fun σ => by cases σ <;> rfl }

/-- Settles O16: the registers that a command other than `INIT` can leave keep the configuration, and so
does the entry into FAULT. -/
theorem onlyInitChangesConfiguration : Obligations.OnlyInitChangesConfiguration := by
  intro i s t hi h
  have hkeeps : KeepsConfig s.c t.c := by
    rcases exec_c_cases h with hc | ⟨code, hc⟩ | hc
    · rw [hc]
      exact KeepsConfig.refl s.c
    · rw [hc]
      exact { KeepsConfig.refl s.c with cap_eq := fun σ => by cases σ <;> rfl }
    · exact hc.keepsConfig hi
  obtain ⟨hkind, hpolicy, hlayout, hen, hlen, hch, hna, hnb, hcap, hcur⟩ := hkeeps
  exact ⟨hkind, hpolicy, hlayout, hen, hlen, hch, hna, hnb, hcap, hcur⟩

end Sys2Proof.Machine

end CommandRegisters

/-! ## The invariant of the machine (10_state.md R51; 44_velvet_morph.md R227, R232)

It holds after power-on, and every host move and every command keeps it: the memory part by what a move
writes, the register part by the registers that it leaves. -/

section WordsOfAStart

/-! ### The words that the start of a morph leaves (R192, R193, R210) -/

namespace Sys2Proof.Machine

open Sys2Proof.Claims

theorem F32.add_eq_none_left {a : Word} (h : F32.isNaN a = true) (b : Word) : F32.add a b = none := by
  simp [F32.add, h]

theorem F32.add_eq_none_right (a : Word) {b : Word} (h : F32.isNaN b = true) :
    F32.add a b = none := by
  simp [F32.add, h]

theorem F32.div_eq_none_left {a : Word} (h : F32.isNaN a = true) (b : Word) : F32.div a b = none := by
  simp [F32.div, h]

/-- An operation on the word that another left is the two in sequence: a NaN stays a NaN (R136). -/
theorem isResult_bind {r : Option Word} {op : Word → Option Word} {a w : Word} (ha : IsResult r a)
    (hnan : F32.isNaN a = true → op a = none) (hw : IsResult (op a) w) : IsResult (r.bind op) w := by
  cases r with
  | none =>
    rw [hnan ha] at hw
    exact hw
  | some v =>
    cases ha
    exact hw

/-- The rounded difference divided by the converted step count, as R193 has it. -/
def deltaResult (target current steps : Word) : Option Word :=
  (F32.sub target current).bind fun d => F32.div d (F32.ofNat steps.toNat)

/-- The deltas of a dense start, each from the words that stood there before (R193). -/
theorem denseDeltas_next {n : Nat} {s t : State} (h : forN n denseDelta s = .next t) :
    Leaves (fun sp i => sp = .ddel ∧ i < n) s t ∧ ∀ i, i < n → ∃ target current delta,
      s.peek .dtgt i = some target ∧ s.peek .dcur i = some current ∧
      t.peek .ddel i = some delta ∧ IsResult (deltaResult target current s.x.steps) delta := by
  refine forN_induct
    (P := fun k u => Leaves (fun sp i => sp = .ddel ∧ i < n) s u ∧ ∀ i, i < k →
      ∃ target current delta, s.peek .dtgt i = some target ∧ s.peek .dcur i = some current ∧
        u.peek .ddel i = some delta ∧ IsResult (deltaResult target current s.x.steps) delta)
    ⟨Leaves.refl _ s, by simp⟩ (fun k u v hk hu hv => ?_) h
  obtain ⟨hl, hold⟩ := hu
  obtain ⟨target, current, htgt, hcur, hlv, delta, hdel, hres⟩ := denseDelta_next hv
  refine ⟨hl.trans (hlv.mono fun sp j hw => ⟨hw.1, hw.2 ▸ hk⟩), fun i hi => ?_⟩
  by_cases hik : i = k
  · subst hik
    rw [hl.peek_eq _ _ (by simp)] at htgt hcur
    rw [hl.x_eq] at hres
    exact ⟨target, current, delta, htgt, hcur, hdel,
      isResult_bind (fpResult_isResult _ _) (fun hn => F32.div_eq_none_left hn _) hres⟩
  · obtain ⟨target', current', delta', h1, h2, h3, h4⟩ := hold i (by omega)
    exact ⟨target', current', delta', h1, h2,
      (hlv.peek_eq _ _ fun hw => hik hw.2).trans h3, h4⟩

/-- The words of a dense start: the live taps in the working array, and the deltas (R192, R193). -/
theorem denseStartEffects_words {s t : State} (h : denseStartEffects s = .next t) {i : Nat}
    (hi : i < s.c.na.toNat) :
    t.peek .dcur i = s.peek s.c.denseTaps i ∧ ∃ target current delta,
      s.peek .dtgt i = some target ∧ t.peek .dcur i = some current ∧
      t.peek .ddel i = some delta ∧ IsResult (deltaResult target current s.x.steps) delta := by
  obtain ⟨u, hu, h⟩ := andThen_eq_next.1 h
  obtain ⟨v, hv, h⟩ := andThen_eq_next.1 h
  cases h
  obtain ⟨hlu, hfill⟩ := denseFill_next hu
  obtain ⟨hlv, hdeltas⟩ := denseDeltas_next hv
  obtain ⟨target, current, delta, htgt, hcur, hdel, hres⟩ := hdeltas i (by rwa [hlu.c_eq])
  have hcur' : v.peek .dcur i = u.peek .dcur i := hlv.peek_eq _ _ (by simp)
  rw [hlu.peek_eq _ _ (by simp)] at htgt
  rw [hlu.x_eq] at hres
  exact ⟨hcur'.trans (hfill i hi), target, current, delta, htgt, hcur'.trans hcur, hdel, hres⟩

/-- The words of a dense start are written (R90). -/
theorem denseStartEffects_written {s t : State} (h : denseStartEffects s = .next t) :
    Written t .dcur s.c.na.toNat ∧ Written t .ddel s.c.na.toNat := by
  refine ⟨fun i hi => ?_, fun i hi => ?_⟩
  all_goals
    obtain ⟨_, _, _, _, _, hcur, hdel, _⟩ := denseStartEffects_words h hi
    simp [hcur, hdel]

/-- The words of a velvet start are written in each polarity (R90). -/
theorem velvetStartEffects_written {s t : State} (h : velvetStartEffects s = .next t)
    (σ : Polarity) : Written t (workSpace σ) (s.c.liveCount σ).toNat ∧
      Written t (snapshotSpace σ) (s.x.targetCount σ).toNat := by
  have hpol : ∀ {τ a b}, velvetStartPol τ a = .next b →
      Written b (workSpace τ) (a.c.liveCount τ).toNat ∧
      Written b (snapshotSpace τ) (a.x.targetCount τ).toNat := fun hb => by
    obtain ⟨_, _, _, hwork, hsnap⟩ := velvetStartPol_next hb
    refine ⟨fun i hi => ?_, fun i hi => ?_⟩
    · rw [(hwork i hi).1]; exact (hwork i hi).2.2
    · rw [(hsnap i hi).1]; exact (hsnap i hi).2
  obtain ⟨u, v, hu, hv, rfl⟩ := velvetStartEffects_next h
  cases σ with
  | pos =>
    obtain ⟨hwork, hsnap⟩ := hpol hu
    have hkept := (velvetStartPol_leaves hv).written
    exact ⟨fun i hi => hkept _ i (hwork i hi), fun i hi => hkept _ i (hsnap i hi)⟩
  | neg =>
    have hlive : u.c.liveCount .neg = s.c.liveCount .neg := by
      rw [(velvetStartPol_next hu).1]
      exact liveCount_setPol_ne _ _ (by decide)
    have hx : u.x = s.x := (velvetStartPol_leaves hu).x_eq
    have hneg := hpol hv
    rwa [hlive, hx] at hneg

end Sys2Proof.Machine

end WordsOfAStart

section WriteHead

/-! ### The write head (R147, R150) -/

namespace Sys2Proof.Machine

/-- The write head `n` frames on (R150). -/
def StatusRegs.headAt (c : StatusRegs) (n : Nat) : Nat :=
  (c.wh.toNat + n * c.channels.toNat) % c.bufLen.toNat

/-- The status registers `n` frames on: only the write head has moved. -/
def StatusRegs.advanced (c : StatusRegs) (n : Nat) : StatusRegs :=
  { c with wh := BitVec.ofNat 32 (c.headAt n) }

/-- What the write head and the wrap unit need to be right (R51). -/
structure HeadOk (c : StatusRegs) : Prop where
  bufLen_pos : 0 < c.bufLen.toNat
  wh_lt : c.wh.toNat < c.bufLen.toNat
  policy_eq : c.policy = policyOf c.bufLen

theorem ReadyInv.headOk {s : State} (h : ReadyInv s) : HeadOk s.c :=
  ⟨h.bufLen_pos, h.wh_lt, h.policy_eq⟩

theorem HeadOk.headAt_lt {c : StatusRegs} (h : HeadOk c) (n : Nat) : c.headAt n < c.bufLen.toNat :=
  Nat.mod_lt _ h.bufLen_pos

theorem HeadOk.advanced_zero {c : StatusRegs} (h : HeadOk c) : c.advanced 0 = c := by
  have hwh : c.headAt 0 = c.wh.toNat := by
    rw [StatusRegs.headAt, Nat.zero_mul, Nat.add_zero, Nat.mod_eq_of_lt h.wh_lt]
  simp [StatusRegs.advanced, hwh]

theorem HeadOk.advanced_wh {c : StatusRegs} (h : HeadOk c) (n : Nat) :
    (c.advanced n).wh.toNat = c.headAt n :=
  (BitVec.toNat_ofNat _ _).trans
    (Nat.mod_eq_of_lt ((h.headAt_lt n).trans c.bufLen.isLt))

/-- One more advance (R147). -/
theorem HeadOk.advance_c {c : StatusRegs} (h : HeadOk c) {n : Nat} {s : State}
    (hs : s.c = c.advanced n) : (advance s).c = c.advanced (n + 1) := by
  have hwrap : (c.advanced n).policy = policyOf (c.advanced n).bufLen := h.policy_eq
  have hhead : (c.headAt n + c.channels.toNat) % c.bufLen.toNat = c.headAt (n + 1) := by
    rw [StatusRegs.headAt, Nat.mod_add_mod, StatusRegs.headAt, Nat.succ_mul, Nat.add_assoc]
  have hnext : (c.advanced n).wrap ((c.advanced n).wh.toNat + (c.advanced n).channels.toNat) =
      c.headAt (n + 1) := by
    rw [wrap_eq_mod hwrap, h.advanced_wh]
    exact hhead
  rw [Machine.advance_c, hs, hnext]
  rfl

/-- After `n` sample steps the write head is `n` frames on, and no other register has changed (R150). -/
theorem HeadOk.processFrames_c {s t : State} (hc : HeadOk s.c) {n : Nat}
    (h : processFrames n s = .next t) : t.c = s.c.advanced n :=
  forN_induct (P := fun k u => u.c = s.c.advanced k) hc.advanced_zero.symm
    (fun _ _ _ _ hu hv => by
      rw [(sampleStep_leaves (W := fun _ _ => True) (by simp) (by simp) hv).2]
      exact hc.advance_c hu) h

end Sys2Proof.Machine

end WriteHead

section KeepingTheInvariant

/-! ### Parts of the invariant from one state to the next -/

namespace Sys2Proof.Machine

open Sys2Proof.Claims

/-- What was written stays written and the memory stays canonical. -/
structure MemKept (s t : State) : Prop where
  params_eq : t.params = s.params
  written : ∀ sp i, (s.peek sp i).isSome = true → (t.peek sp i).isSome = true
  wf : s.mem.wf s.params = true → t.mem.wf t.params = true

theorem MemKept.of_mem {s t : State} (hm : t.mem = s.mem) (hp : t.params = s.params) :
    MemKept s t :=
  ⟨hp, fun sp i h => by rwa [peek_of_mem hm], fun h => by rwa [hm, hp]⟩

theorem LeavesButRegs.memKept {W : Space → Nat → Prop} {s t : State} (h : LeavesButRegs W s t) :
    MemKept s t := ⟨h.params_eq, h.written, h.wf⟩

theorem MemKept.written_upto {s t : State} (h : MemKept s t) {sp : Space} {n : Nat}
    (hw : Written s sp n) : Written t sp n := fun i hi => h.written sp i (hw i hi)

variable {s t : State}

/-- A polarity whose registers are as they were. -/
theorem PolarityInv.keep {σ : Polarity} (h : PolarityInv s σ) (hk : MemKept s t)
    (hpol : t.c.pol σ = s.c.pol σ) (hsrc : t.c.tapSrc = .ir → s.c.tapSrc = .ir)
    (hcfg : KeepsConfig s.c t.c) : PolarityInv t σ where
  len_eq := by rw [hpol]; exact h.len_eq
  pc_le_tl := by rw [hpol]; exact h.pc_le_tl
  len_le_cap := by rw [hpol]; exact h.len_le_cap
  tl_le_cap := by rw [hpol]; exact h.tl_le_cap
  cap_fits := by rw [hpol, hk.params_eq]; exact h.cap_fits
  work_written := by rw [hpol]; exact hk.written_upto h.work_written
  snapshot_written := by rw [hpol]; exact hk.written_upto h.snapshot_written
  ir_idle hs := by rw [hpol]; exact h.ir_idle (hsrc hs)
  velvet_only hno := by
    rw [hcfg.kind_eq, hcfg.morphEn_eq] at hno
    rw [hpol]
    exact h.velvet_only hno

/-- The part of `ReadyInv` that a morph or the write head can change; the rest is configuration. -/
structure MorphInv (t : State) : Prop where
  wh_lt : t.c.wh < t.c.bufLen
  cur_morph : t.c.tapSrc = .cur → t.c.morphEn = true
  dense_busy : 0 < t.c.mrem → t.c.kind = .dense ∧ t.c.tapSrc = .cur
  dcur_written : t.c.kind = .dense → t.c.tapSrc = .cur → Written t .dcur t.c.na.toNat
  ddel_written : t.c.kind = .dense → t.c.tapSrc = .cur → Written t .ddel t.c.na.toNat
  polarity : ∀ σ, PolarityInv t σ

/-- A state that keeps the configuration is READY-invariant when its morph part is. -/
theorem ReadyInv.keep (h : ReadyInv s) (hk : MemKept s t) (hcfg : KeepsConfig s.c t.c)
    (hm : MorphInv t) : ReadyInv t where
  bufLen_pos := by rw [hcfg.bufLen_eq]; exact h.bufLen_pos
  channels_pos := by rw [hcfg.channels_eq]; exact h.channels_pos
  bufLen_fits := by rw [hcfg.bufLen_eq, hk.params_eq]; exact h.bufLen_fits
  wh_lt := hm.wh_lt
  policy_eq := by rw [hcfg.policy_eq, hcfg.bufLen_eq]; exact h.policy_eq
  layout_eq := by rw [hcfg.layout_eq, hcfg.channels_eq]; exact h.layout_eq
  cur_morph := hm.cur_morph
  morph_kind := by rw [hcfg.morphEn_eq, hcfg.kind_eq]; exact h.morph_kind
  dense_busy := hm.dense_busy
  na_fits := by rw [hcfg.na_eq, hk.params_eq]; exact h.na_fits
  nb_fits := by rw [hcfg.nb_eq, hk.params_eq]; exact h.nb_fits
  nb_zero := by rw [hcfg.kind_eq, hcfg.nb_eq]; exact h.nb_zero
  dense_scratch := by
    rw [hcfg.kind_eq, hcfg.morphEn_eq, hcfg.na_eq, hk.params_eq]; exact h.dense_scratch
  acc_written := by rw [hcfg.bufLen_eq]; exact hk.written_upto h.acc_written
  dcur_written := hm.dcur_written
  ddel_written := hm.ddel_written
  polarity := hm.polarity

/-- The morph part where the tap source, the counter and the velvet registers are as they were. -/
theorem ReadyInv.morphInv_keep (h : ReadyInv s) (hk : MemKept s t) (hcfg : KeepsConfig s.c t.c)
    (hwh : t.c.wh < t.c.bufLen) (hsrc : t.c.tapSrc = s.c.tapSrc)
    (hmrem : 0 < t.c.mrem → 0 < s.c.mrem) (hpol : ∀ σ, t.c.pol σ = s.c.pol σ) : MorphInv t where
  wh_lt := hwh
  cur_morph := by rw [hsrc, hcfg.morphEn_eq]; exact h.cur_morph
  dense_busy hb := by rw [hcfg.kind_eq, hsrc]; exact h.dense_busy (hmrem hb)
  dcur_written hd hc := by
    rw [hcfg.na_eq]
    exact hk.written_upto (h.dcur_written (hcfg.kind_eq ▸ hd) (hsrc ▸ hc))
  ddel_written hd hc := by
    rw [hcfg.na_eq]
    exact hk.written_upto (h.ddel_written (hcfg.kind_eq ▸ hd) (hsrc ▸ hc))
  polarity σ := (h.polarity σ).keep hk (hpol σ) (fun hs => hsrc ▸ hs) hcfg

/-- With the same status registers the whole invariant is kept. -/
theorem MachineInv.keep (h : MachineInv s) (hk : MemKept s t) (hc : t.c = s.c) : MachineInv t where
  mem_wf := hk.wf h.mem_wf
  uninit := by rw [hc]; exact h.uninit
  fault_code := by rw [hc]; exact h.fault_code
  result_bit := by rw [hc]; exact h.result_bit
  ready hst := by
    have hs := h.ready (hc ▸ hst)
    have hcfg : KeepsConfig s.c t.c := hc ▸ KeepsConfig.refl s.c
    refine hs.keep hk hcfg (hs.morphInv_keep hk hcfg ?_ ?_ ?_ fun σ => ?_)
    · rw [hc]; exact hs.wh_lt
    · rw [hc]
    · rw [hc]; exact id
    · rw [hc]

/-- A fault entered with a code of R251 keeps the invariant (R252). -/
theorem MachineInv.raiseFault (h : MachineInv s) {code : FaultCode} (hcode : code ≠ .noFault) :
    MachineInv (raiseFault code s) where
  mem_wf := h.mem_wf
  uninit hst := by cases hst
  fault_code := ⟨fun _ => hcode, fun _ => rfl⟩
  result_bit := h.result_bit
  ready hst := by cases hst

end Sys2Proof.Machine

end KeepingTheInvariant

section CommandsKeepTheInvariant

/-! ### The commands (R51, R172, R190, R195, R210, R219) -/

namespace Sys2Proof.Machine

open Sys2Proof.Claims

variable {s t : State}

/-- The velvet registers after `INIT` (R51e, R176). -/
theorem initPol_inv {k : Kind} (heff : initEffects k s = .next t) (σ : Polarity) :
    PolarityInv t σ := by
  obtain ⟨hc, hl, _⟩ := initEffects_next heff
  have hpar : t.params = s.params := hl.params_eq
  obtain ⟨hlen, hrc, hpc, htl⟩ : (t.c.pol σ).len = 0 ∧ (t.c.pol σ).rc = 0 ∧ (t.c.pol σ).pc = 0 ∧
      (t.c.pol σ).tl = 0 := by rw [hc]; exact initRegs_pol_idle s k σ
  have hpol : ∃ cap, t.c.pol σ = initPol (morphBinding s.params s.x k) k cap ∧
      (k = .velvet ∧ morphBinding s.params s.x k = true → cap.toNat ≤ s.params.scrDepth) := by
    have hfit : k = .velvet ∧ morphBinding s.params s.x k = true →
        s.x.capP.toNat ≤ s.params.scrDepth ∧ s.x.capN.toNat ≤ s.params.scrDepth := by
      rintro ⟨rfl, hb⟩
      simpa using ((morphBinding_iff _ _ _).1 hb).2
    rw [hc]
    cases σ with
    | pos => exact ⟨_, rfl, fun hb => (hfit hb).1⟩
    | neg => exact ⟨_, rfl, fun hb => (hfit hb).2⟩
  obtain ⟨cap, hpol, hfits⟩ := hpol
  refine
    { len_eq := by rw [hlen, hrc, hpc]; rfl
      pc_le_tl := by rw [hpc, htl]; exact BitVec.le_refl _
      len_le_cap := by rw [hlen]; exact Nat.zero_le _
      tl_le_cap := by rw [htl]; exact Nat.zero_le _
      cap_fits := ?_
      work_written := by rw [hlen]; intro i hi; cases hi
      snapshot_written := by rw [htl]; intro i hi; cases hi
      ir_idle := fun _ => ⟨hlen, hrc, hpc, htl⟩
      velvet_only := fun hno => ?_ }
  · rw [hpol, initPol_cap, hpar]
    split_ifs with hb
    · exact hfits hb
    · exact Nat.zero_le _
  · have hno' : ¬ (k = .velvet ∧ morphBinding s.params s.x k = true) := by
      rintro ⟨hk, hb⟩
      rw [hc] at hno
      rcases hno with hno | hno
      · exact hno hk
      · exact Bool.noConfusion (hb.symm.trans hno)
    rw [hpol, initPol]
    simp only [Bool.and_eq_true, decide_eq_true_eq, and_comm (b := k = .velvet), if_neg hno']
    rfl

/-- `INIT` establishes the READY invariant (R51, R171, R172). -/
theorem initEffects_readyInv {k : Kind} (hkind : kindOfWord s.x.kind = some k)
    (hf : initFault s = none) (heff : initEffects k s = .next t) : ReadyInv t := by
  obtain ⟨hc, hl, hzero⟩ := initEffects_next heff
  have hpar : t.params = s.params := hl.params_eq
  unfold initFault at hf
  split_ifs at hf with hbad hdepth hlen hfits hch hna hnb
  rw [← secondCount_beyond_iff hkind] at hnb
  have hpos : 0 < s.x.buflen.toNat := Nat.pos_of_ne_zero hlen
  refine
    { bufLen_pos := by rw [hc]; exact hpos
      channels_pos := by rw [hc]; exact Nat.pos_of_ne_zero hch
      bufLen_fits := by rw [hc, hpar]; exact not_lt.1 hfits
      wh_lt := by rw [hc]; exact hpos
      policy_eq := by rw [hc]; rfl
      layout_eq := by rw [hc]; rfl
      cur_morph := by rw [hc]; intro hsrc; cases hsrc
      morph_kind := ?_
      dense_busy := by rw [hc]; intro hm; exact absurd hm (BitVec.lt_irrefl 0#32)
      na_fits := by rw [hc, hpar]; exact not_lt.1 hna
      nb_fits := by rw [hc, hpar]; exact not_lt.1 hnb
      nb_zero := by
        rw [hc]
        exact fun hk => (secondCount_eq s.x k).trans (if_neg hk)
      dense_scratch := ?_
      acc_written := ?_
      dcur_written := by rw [hc]; intro _ hsrc; cases hsrc
      ddel_written := by rw [hc]; intro _ hsrc; cases hsrc
      polarity := initPol_inv heff }
  · rw [hc]
    intro hb
    rcases ((morphBinding_iff _ _ _).1 hb).2 with ⟨hk, _⟩ | ⟨hk, _⟩
    all_goals
      rw [show (initRegs s k).kind = k from rfl, hk]
      decide
  · rw [hc, hpar]
    intro hk hb
    have hk' : k = .dense := hk
    rcases ((morphBinding_iff _ _ _).1 hb).2 with ⟨_, hfit⟩ | ⟨hne, _⟩
    · exact hfit
    · exact absurd (hk'.symm.trans hne) (by decide)
  · rw [hc]
    intro i hi
    rw [hzero i hi]
    rfl

/-- `PROCESS` moves the write head inside the buffer (R147). -/
theorem ReadyInv.processFrames (h : ReadyInv s) {n : Nat} (ht : processFrames n s = .next t) :
    ReadyInv t := by
  have hk := (processFrames_leaves ht).memKept
  have hc := h.headOk.processFrames_c ht
  have hcfg : KeepsConfig s.c t.c := RegsAfter.keepsConfig (i := .process) (by decide) ⟨_, hc⟩
  refine h.keep hk hcfg (h.morphInv_keep hk hcfg ?_ (by rw [hc]; rfl) (by rw [hc]; exact id)
    fun σ => by rw [hc]; cases σ <;> rfl)
  rw [hc]
  change (s.c.advanced n).wh.toNat < s.c.bufLen.toNat
  rw [h.headOk.advanced_wh]
  exact h.headOk.headAt_lt n

/-- A dense start makes the working array the tap source, whose words it has written (R190). -/
theorem ReadyInv.denseStart (h : ReadyInv s) (hen : s.c.morphEn = true) (hd : s.c.kind = .dense)
    (ht : denseStartEffects s = .next t) : ReadyInv t := by
  have hk := (denseStartEffects_leaves ht).memKept
  obtain ⟨hc, _⟩ := denseStartEffects_next ht
  have hcfg : KeepsConfig s.c t.c := RegsAfter.keepsConfig (i := .startMorph) (by decide) (.inl hc)
  obtain ⟨hcur, hdel⟩ := denseStartEffects_written ht
  have hsrc : t.c.tapSrc = .cur := by rw [hc]
  exact h.keep hk hcfg
    { wh_lt := by rw [hc]; exact h.wh_lt
      cur_morph := fun _ => hcfg.morphEn_eq.trans hen
      dense_busy := fun _ => ⟨hcfg.kind_eq.trans hd, hsrc⟩
      dcur_written := fun _ _ => by rw [hcfg.na_eq]; exact hcur
      ddel_written := fun _ _ => by rw [hcfg.na_eq]; exact hdel
      polarity := fun σ => (h.polarity σ).keep hk (by rw [hc]; cases σ <;> rfl)
        (fun hs => by simp [hsrc] at hs) hcfg }

/-- A dense update counts down a counter that is not 0 (R195). -/
theorem ReadyInv.denseUpdate (h : ReadyInv s) (ht : denseUpdateEffects s = .next t) :
    ReadyInv t := by
  have hk := (denseUpdateEffects_leaves ht).memKept
  rcases denseUpdateEffects_next ht with ⟨_, rfl⟩ | ⟨hm, hc, _⟩
  · exact h
  · have hcfg : KeepsConfig s.c t.c :=
      RegsAfter.keepsConfig (i := .updateMorph) (by decide) (.inl ⟨_, hc⟩)
    refine h.keep hk hcfg (h.morphInv_keep hk hcfg ?_ (by rw [hc]) (fun _ => ?_) fun σ => ?_)
    · rw [hc]; exact h.wh_lt
    · exact (BitVec.pos_iff_ne_zero _).2 hm
    · rw [hc]; cases σ <;> rfl

/-- A freshly started polarity within its capacity meets the invariant (R211, R227, R232). -/
theorem ReadyInv.started_polarity (h : ReadyInv s) (hf : startFault s = none)
    (hv : s.c.kind = .velvet) (ht : velvetStartEffects s = .next t) (σ : Polarity) :
    PolarityInv t σ := by
  have hc := velvetStartEffects_c ht
  have hpol : t.c.pol σ = startedRegs s σ := by rw [hc]; cases σ <;> rfl
  have hpar : t.params = s.params := (velvetStartEffects_leaves ht).params_eq
  simp only [startFault, hv] at hf
  split_ifs at hf with hen hdepth htarget hlive
  rw [not_or, not_lt, not_lt] at htarget hlive
  have htl : (s.x.targetCount σ).toNat ≤ (s.c.pol σ).cap.toNat := by
    cases σ with
    | pos => exact htarget.1
    | neg => exact htarget.2
  have hcount : (s.c.liveCount σ).toNat ≤ (s.c.pol σ).cap.toNat := by
    cases σ with
    | pos => exact hlive.1
    | neg => exact hlive.2
  obtain ⟨hwork, hsnap⟩ := velvetStartEffects_written ht σ
  exact
    { len_eq := by rw [hpol]; rfl
      pc_le_tl := by rw [hpol]; exact Nat.zero_le _
      len_le_cap := by rw [hpol]; exact hcount
      tl_le_cap := by rw [hpol]; exact htl
      cap_fits := by rw [hpol, hpar]; exact (h.polarity σ).cap_fits
      work_written := by rw [hpol]; exact hwork
      snapshot_written := by rw [hpol]; exact hsnap
      ir_idle := fun hs => by simp [hc] at hs
      velvet_only := fun hno => by simp [hc, hv, hen] at hno }

theorem startFault_morphEn (hf : startFault s = none) : s.c.morphEn = true := by
  unfold startFault at hf
  cases hk : s.c.kind <;> rw [hk] at hf <;> simp only at hf
  · split_ifs at hf with hen
    exact Bool.not_eq_false _ ▸ hen
  · cases hf
  · split_ifs at hf with hen
    exact Bool.not_eq_false _ ▸ hen

theorem ReadyInv.velvetStart (h : ReadyInv s) (hf : startFault s = none)
    (hv : s.c.kind = .velvet) (ht : velvetStartEffects s = .next t) : ReadyInv t := by
  have hc := velvetStartEffects_c ht
  have hcfg : KeepsConfig s.c t.c := RegsAfter.keepsConfig (i := .startMorph) (by decide) (.inr hc)
  have hnd : t.c.kind ≠ .dense := by simp [hc, hv]
  exact h.keep (velvetStartEffects_leaves ht).memKept hcfg
    { wh_lt := by rw [hc]; exact h.wh_lt
      cur_morph := fun _ => hcfg.morphEn_eq.trans (startFault_morphEn hf)
      dense_busy := fun hm => absurd (h.dense_busy (by rwa [hc] at hm)).1 (by simp [hv])
      dcur_written := fun hd => absurd hd hnd
      ddel_written := fun hd => absurd hd hnd
      polarity := h.started_polarity hf hv ht }

theorem ReadyInv.velvetUpdate (h : ReadyInv s) (hv : s.c.kind = .velvet)
    (ht : velvetUpdateEffects s = .next t) : ReadyInv t := by
  have hc := velvetUpdateEffects_c ht
  have hcfg : KeepsConfig s.c t.c := RegsAfter.keepsConfig (i := .updateMorph) (by decide) (.inr hc)
  have hnd : t.c.kind ≠ .dense := by simp [hc, hv]
  obtain ⟨u, hpos, hneg⟩ := andThen_eq_next.1 ht
  exact h.keep (velvetUpdateEffects_leaves ht).memKept hcfg
    { wh_lt := by rw [hc]; exact h.wh_lt
      cur_morph := by rw [hc]; exact h.cur_morph
      dense_busy := fun hm => absurd (h.dense_busy (by rwa [hc] at hm)).1 (by simp [hv])
      dcur_written := fun hd => absurd hd hnd
      ddel_written := fun hd => absurd hd hnd
      polarity := fun σ => ((h.polarity σ).step hpos).step hneg }

theorem ReadyInv.isMorphing (h : ReadyInv s) (result : Word) :
    ReadyInv { s with c := { s.c with result := result } } := by
  have hk : MemKept s { s with c := { s.c with result := result } } := MemKept.of_mem rfl rfl
  have hcfg : KeepsConfig s.c { s.c with result := result } :=
    RegsAfter.keepsConfig (i := .isMorphing) (by decide) ⟨_, rfl⟩
  exact h.keep hk hcfg (h.morphInv_keep hk hcfg h.wh_lt rfl id fun σ => by cases σ <;> rfl)

/-- A command that raises no fault leaves the READY invariant. -/
theorem exec_readyInv {i : Instr} (hinv : MachineInv s) (hs : s.c.st ≠ .fault)
    (hf : faultTable i s = none) (h : exec i s = .next t) : ReadyInv t := by
  by_cases hi : i = .init
  · subst hi
    obtain ⟨k, u, hk, hu, heff⟩ := exec_init_effects hs hf
    cases hu.symm.trans h
    exact initEffects_readyInv hk hf heff
  have hst := ready_of_no_fault hi hs hf
  have hready := hinv.ready hst
  cases i with
  | init => exact absurd rfl hi
  | process => exact hready.processFrames ((exec_process_ready hst).symm.trans h)
  | startMorph =>
    have hf' : startFault s = none := by simpa [faultTable, hst] using hf
    rcases exec_startMorph_of_no_fault hst hf' with ⟨hk, he⟩ | ⟨hk, he⟩
    · exact hready.denseStart (startFault_morphEn hf') hk (he.symm.trans h)
    · exact hready.velvetStart hf' hk (he.symm.trans h)
  | updateMorph =>
    rcases exec_updateMorph_of_no_fault hst (by simpa [faultTable, hst] using hf) with
      ⟨hk, he⟩ | ⟨hk, he⟩
    · exact hready.denseUpdate (he.symm.trans h)
    · exact hready.velvetUpdate hk (he.symm.trans h)
  | isMorphing =>
    cases (exec_isMorphing_ready hst).symm.trans h
    exact hready.isMorphing _

/-- `RESULT` stays a truth value (R41). -/
theorem RegsAfter.result_bit {i : Instr} {c : StatusRegs} (h : RegsAfter i s c)
    (hs : s.c.result = 0 ∨ s.c.result = 1) (hq : i ≠ .isMorphing) :
    c.result = 0 ∨ c.result = 1 := by
  cases i with
  | init => obtain ⟨_, rfl⟩ := h; exact .inl rfl
  | process => obtain ⟨_, rfl⟩ := h; exact hs
  | startMorph => rcases h with rfl | rfl <;> exact hs
  | updateMorph => rcases h with ⟨_, rfl⟩ | rfl <;> exact hs
  | isMorphing => exact absurd rfl hq

theorem RegsAfter.fcode_eq {i : Instr} {c : StatusRegs} (h : RegsAfter i s c) :
    c.fcode = s.c.fcode := by
  cases i with
  | init => obtain ⟨_, rfl⟩ := h; rfl
  | process => obtain ⟨_, rfl⟩ := h; rfl
  | startMorph => rcases h with rfl | rfl <;> rfl
  | updateMorph => rcases h with ⟨_, rfl⟩ | rfl <;> rfl
  | isMorphing => obtain ⟨_, rfl⟩ := h; rfl

/-- Every command keeps the invariant. -/
theorem MachineInv.exec {i : Instr} (hinv : MachineInv s) (h : exec i s = .next t) :
    MachineInv t := by
  by_cases hs : s.c.st = .fault
  · cases (exec_fault hs i).symm.trans h
    exact hinv
  cases hf : faultTable i s with
  | some code =>
    cases (exec_raises hs hf).symm.trans h
    exact hinv.raiseFault fun hcode => faultTable_ne_noFault i s (hcode ▸ hf)
  | none =>
    have hst := exec_st_of_no_fault hs hf h
    have hregs := exec_regsAfter hs hf h
    have hcode : t.c.fcode = .noFault := by
      rw [hregs.fcode_eq]
      exact not_not.1 fun hne => hs (hinv.fault_code.2 hne)
    refine
      { mem_wf := (exec_leaves h).memKept.wf hinv.mem_wf
        uninit := fun hu => by simp [hst] at hu
        fault_code := by simp [hst, hcode]
        result_bit := ?_
        ready := fun _ => exec_readyInv hinv hs hf h }
    by_cases hq : i = .isMorphing
    · subst hq
      cases (exec_isMorphing_ready (ready_of_no_fault (by decide) hs hf)).symm.trans h
      rw [zeroExtend_ofBool_eq]
      exact (ite_eq_or_eq _ _ _).symm
    · exact hregs.result_bit hinv.result_bit hq

end Sys2Proof.Machine

end CommandsKeepTheInvariant

section EveryStep

/-! ### The host's moves, and the statements about the invariant -/

namespace Sys2Proof.Machine

theorem MachineInv.issue {w : Word} {s t : State} (hinv : MachineInv s) (h : issue w s = .next t) :
    MachineInv t := by
  cases hd : decode w with
  | ok i => exact hinv.exec ((issue_ok hd s).symm.trans h)
  | error e =>
    by_cases hs : s.c.st = .fault
    · cases (issue_fault hs w).symm.trans h
      exact hinv
    · cases (issue_error hd hs).symm.trans h
      exact hinv.raiseFault (by decide)

/-- Hardware reset establishes the invariant on a canonical memory (R290). -/
theorem machineInv_of_reset_regs {s : State} (hc : s.c = StatusRegs.reset)
    (hm : s.mem.wf s.params = true) : MachineInv s where
  mem_wf := hm
  uninit _ := hc
  fault_code := by rw [hc]; decide
  result_bit := by rw [hc]; exact .inl rfl
  ready hst := by rw [hc] at hst; cases hst

theorem MachineInv.hostMove {m : HostMove} {s t : State} (hinv : MachineInv s)
    (h : hostMove m s = .next t) : MachineInv t := by
  cases m with
  | writeX i v => cases h; exact hinv.keep (MemKept.of_mem rfl rfl) rfl
  | readX i => cases h; exact hinv.keep (MemKept.of_mem rfl rfl) rfl
  | readC i => cases h; exact hinv.keep (MemKept.of_mem rfl rfl) rfl
  | readField f => cases h; exact hinv.keep (MemKept.of_mem rfl rfl) rfl
  | writeM sp i v =>
    simp only [Machine.hostMove, hostWrite] at h
    split at h
    · have hl : Leaves (fun _ _ => True) s t := leaves_memWrite h trivial
      exact hinv.keep ⟨hl.params_eq, hl.written, hl.wf⟩ hl.c_eq
    · cases h
  | readM sp i =>
    simp only [Machine.hostMove, hostRead] at h
    split at h <;> cases h
    exact hinv.keep (MemKept.of_mem rfl rfl) rfl
  | command w => exact hinv.issue h
  | reset => cases h; exact machineInv_of_reset_regs rfl hinv.mem_wf

/-- Settles O4: a step is the host's next move, if there is one; a command keeps the invariant by what it
leaves in each register and by the words it has then written, a move that is no command because it changes
neither the registers nor the writtenness of a word. -/
theorem everyStepKeepsInvariant : Obligations.EveryStepKeepsInvariant := by
  intro s t hinv h
  cases hhost : s.host with
  | nil =>
    cases (step_nil hhost).symm.trans h
    exact hinv
  | cons m rest =>
    have hinv' : MachineInv { s with host := rest } := hinv.keep (MemKept.of_mem rfl rfl) rfl
    exact hinv'.hostMove ((step_cons hhost).symm.trans h)

theorem memory_unwritten_wf (p : Params) : Memory.unwritten.wf p = true := by
  rw [Memory.wf_iff]
  intro sp
  cases sp <;> exact ⟨List.Pairwise.nil, fun _ h => by cases h⟩

/-- Settles O2: nothing is written after power-on, and every register is 0. -/
theorem powerOnMeetsInvariant : Obligations.PowerOnMeetsInvariant :=
  have hpower : ∀ p, MachineInv (State.powerOn p) := fun p =>
    machineInv_of_reset_regs rfl (memory_unwritten_wf p)
  ⟨hpower _, hpower⟩

end Sys2Proof.Machine

end EveryStep

/-! ## The accesses of the commands (60_exceptions.md R262; 20_memory.md R90)

In a state that meets the invariant every access of a command is to a word that exists, and every read is of
a word that has been written or of one that the host has not loaded. -/

section MorphAccesses

/-! ### The morph commands

As for `PROCESS`, `R` says which refusals are allowed. -/

namespace Sys2Proof.Machine

open Sys2Proof.Claims

variable {R : Refusal → Prop} {s : State}

theorem Readable.of_memKept {t : State} {sp : Space} {i : Nat} (h : Readable R s sp i)
    (hk : MemKept s t) : Readable R t sp i := by
  obtain ⟨hword, hunwritten⟩ := h
  refine ⟨by rwa [hk.params_eq], fun hnone => hunwritten ?_⟩
  by_contra hsome
  simpa [hnone] using hk.written sp i (Option.isSome_iff_ne_none.2 hsome)

theorem Leaves.memKept {W : Space → Nat → Prop} {t : State} (h : Leaves W s t) : MemKept s t :=
  ⟨h.params_eq, h.written, h.wf⟩

/-- A copy of readable words answers its copy. -/
theorem copyWords_answers_of_readable {src dst : Space} (hne : src ≠ dst) {n : Nat}
    (hsrc : ∀ i < n, Readable R s src i) (hdst : ∀ i < n, s.params.hasWord dst i = true) :
    Answers (copyWords src dst n s) (fun t => Leaves (fun sp i => sp = dst ∧ i < n) s t ∧
      Written t dst n) R :=
  (copyWords_answers hne (fun i hi => (hsrc i hi).1) hdst fun i hi => (hsrc i hi).2).mono
    fun t ht _ => by
      obtain ⟨hl, _, hp⟩ := copyWords_next hne ht
      exact ⟨hl, fun i hi => by rw [(hp i hi).1]; exact (hp i hi).2⟩

theorem ReadyInv.scratch_fits (h : ReadyInv s) (hd : s.c.kind = .dense) (hen : s.c.morphEn = true)
    {i : Nat} (hi : i < s.c.na.toNat) : i < s.params.scrDepth :=
  hi.trans_le (h.dense_scratch hd hen)

/-- The fill of a dense start leaves every word of the working array written (R192). -/
theorem ReadyInv.denseFill_answers (h : ReadyInv s) (hd : s.c.kind = .dense)
    (hen : s.c.morphEn = true)
    (hview : s.c.tapSrc = .ir → ∀ i < s.c.na.toNat, Readable R s .dtap i) :
    Answers (denseFill s) (fun t => Keeps s t ∧ Written t .dcur s.c.na.toNat) R := by
  unfold denseFill
  cases hsrc : s.c.tapSrc with
  | ir =>
    have hword : ∀ i < s.c.na.toNat, s.params.hasWord .dcur i = true := fun i hi =>
      decide_eq_true (h.scratch_fits hd hen hi)
    refine (copyWords_answers_of_readable (by decide) (hview hsrc) hword).mono fun t _ ht => ?_
    exact ⟨ht.1.mono fun _ _ _ => trivial, ht.2⟩
  | cur => exact ⟨Leaves.refl _ s, h.dcur_written hd hsrc⟩

/-- One delta of readable words (R193). -/
theorem denseDelta_answers {i : Nat} (htgt : Readable R s .dtgt i) (hcur : Readable R s .dcur i)
    (hdel : s.params.hasWord .ddel i = true) : Answers (denseDelta i s) (Keeps s) R := by
  refine htgt.memRead_answers.andThen fun target _ _ =>
    hcur.memRead_answers.andThen fun current _ _ => ?_
  have hres : Keeps s (fpDiv (fpSub target current s).1
      (binary32.ofNat (fpSub target current s).2.x.steps.toNat) (fpSub target current s).2).2 :=
    (leaves_fpResult _ _ _).trans (leaves_fpResult _ _ _)
  exact (memWrite_answers (by rw [hres.params_eq]; exact hdel)).mono
    fun t ht _ => hres.trans (leaves_memWrite ht trivial)

theorem ReadyInv.denseStart_answers (h : ReadyInv s) (hd : s.c.kind = .dense)
    (hen : s.c.morphEn = true) (htgt : ∀ i < s.c.na.toNat, Readable R s .dtgt i)
    (hview : s.c.tapSrc = .ir → ∀ i < s.c.na.toNat, Readable R s .dtap i) :
    Answers (denseStartEffects s) (fun _ => True) R := by
  refine (h.denseFill_answers hd hen hview).andThen fun u _ hu => ?_
  obtain ⟨hku, hcur⟩ := hu
  have hdeltas : Answers (forN u.c.na.toNat denseDelta u) (Keeps u) R := by
    refine forN_keeps fun i v hi hv => ?_
    rw [hku.c_eq] at hi
    have hfits := h.scratch_fits hd hen hi
    have hpar : v.params = s.params := hv.params_eq.trans hku.params_eq
    refine denseDelta_answers ((htgt i hi).keep (hku.trans hv)) (((hcur.readable hi ?_)).keep hv) ?_
    · rw [hku.params_eq]; exact decide_eq_true hfits
    · rw [hpar]; exact decide_eq_true hfits
  exact hdeltas.andThen fun v _ _ => trivial

/-- One tap of an interpolation step on written words (R195). -/
theorem denseAdd_answers {i : Nat} (hcur : Readable R s .dcur i) (hdel : Readable R s .ddel i) :
    Answers (denseAdd i s) (Keeps s) R := by
  refine hcur.memRead_answers.andThen fun current _ _ =>
    hdel.memRead_answers.andThen fun delta _ _ => ?_
  have hres : Keeps s (fpAdd current delta s).2 := leaves_fpResult _ _ _
  exact (memWrite_answers (by rw [hres.params_eq]; exact hcur.1)).mono
    fun t ht _ => hres.trans (leaves_memWrite ht trivial)

/-- A dense update reads the target at its last step only (R196). -/
theorem ReadyInv.denseUpdate_answers (h : ReadyInv s)
    (htgt : s.c.mrem.toNat = 1 → ∀ i < s.c.na.toNat, Readable R s .dtgt i) :
    Answers (denseUpdateEffects s) (fun _ => True) R := by
  unfold denseUpdateEffects
  by_cases hm : s.c.mrem = 0
  · rw [if_pos hm]
    trivial
  rw [if_neg hm]
  obtain ⟨hd, hsrc⟩ := h.dense_busy ((BitVec.pos_iff_ne_zero _).2 hm)
  have hfits : ∀ i < s.c.na.toNat, i < s.params.scrDepth := fun i hi =>
    h.scratch_fits hd (h.cur_morph hsrc) hi
  have hadds : Answers (forN s.c.na.toNat denseAdd s) (Keeps s) R := by
    refine forN_keeps fun i u hi hu => denseAdd_answers ?_ ?_
    · exact ((h.dcur_written hd hsrc).readable hi (decide_eq_true (hfits i hi))).keep hu
    · exact ((h.ddel_written hd hsrc).readable hi (decide_eq_true (hfits i hi))).keep hu
  refine hadds.andThen fun u _ hu => ?_
  simp only [denseSnap, hu.c_eq]
  split_ifs with hlast
  · have hone : s.c.mrem.toNat = 1 := by bv_omega
    refine (copyWords_answers_of_readable (by decide) (fun i hi => ?_) fun i hi => ?_).mono
      fun _ _ _ => trivial
    · exact (htgt hone i hi).of_memKept ⟨hu.params_eq, hu.written, hu.wf⟩
    · change u.params.hasWord .dcur i = true
      rw [hu.params_eq]
      exact decide_eq_true (hfits i hi)
  · trivial

/-- What lets a velvet start make its accesses in one polarity (R210, R211). -/
structure VelvetStartReady (R : Refusal → Prop) (s : State) (σ : Polarity) : Prop where
  live_fits : (s.c.liveCount σ).toNat ≤ s.params.scrDepth
  target_fits : (s.x.targetCount σ).toNat ≤ s.params.scrDepth
  work_written : s.c.tapSrc = .cur → Written s (workSpace σ) (s.c.liveCount σ).toNat
  view : s.c.tapSrc = .ir → ∀ i < (s.c.viewCount σ).toNat, Readable R s (viewSpace σ) i
  target : ∀ i < (s.x.targetCount σ).toNat, Readable R s (targetSpace σ) i

theorem hasWord_initialSpace (p : Params) (σ : Polarity) (i : Nat) :
    p.hasWord (initialSpace σ) i = decide (i < p.scrDepth) := by
  cases σ <;> rfl

/-- The fill of one polarity leaves its live words written and its length the live count (R213). -/
theorem VelvetStartReady.fill_answers {σ : Polarity} (h : VelvetStartReady R s σ) :
    Answers (velvetFill σ s) (fun t => MemKept s t ∧ t.x = s.x ∧
      (t.c.pol σ).len = s.c.liveCount σ ∧ Written t (workSpace σ) (s.c.liveCount σ).toNat) R := by
  have hfits := h.live_fits
  have hwork := h.work_written
  unfold velvetFill
  cases hsrc : s.c.tapSrc with
  | ir =>
    simp only [StatusRegs.liveCount, hsrc] at hfits ⊢
    refine (copyWords_answers_of_readable (viewSpace_ne_workSpace σ σ) (h.view hsrc)
      fun i hi => ?_).andThen fun t _ ht => ?_
    · rw [hasWord_workSpace]
      exact decide_eq_true (hi.trans_le hfits)
    · obtain ⟨hl, hw⟩ := ht
      refine ⟨⟨hl.params_eq, hl.written, hl.wf⟩, hl.x_eq, ?_, hw⟩
      rw [pol_setPol_same, hl.c_eq]
  | cur =>
    have hlen : s.c.liveCount σ = (s.c.pol σ).len := by simp only [StatusRegs.liveCount, hsrc]
    exact ⟨MemKept.of_mem rfl rfl, rfl, hlen.symm, hwork hsrc⟩

/-- One polarity of a velvet start (R210). -/
theorem VelvetStartReady.answers {σ : Polarity} (h : VelvetStartReady R s σ) :
    Answers (velvetStartPol σ s) (fun _ => True) R := by
  refine h.fill_answers.andThen fun u _ hu => ?_
  obtain ⟨hku, hxu, hlen, hwork⟩ := hu
  have hinitial : Answers (velvetSnapInitial σ u) (fun v => MemKept u v ∧ v.x = u.x) R := by
    refine (copyWords_answers_of_readable (workSpace_ne_initialSpace σ σ) (fun i hi => ?_)
      fun i hi => ?_).andThen fun v _ hv => ⟨⟨hv.1.params_eq, hv.1.written, hv.1.wf⟩, hv.1.x_eq⟩
    all_goals
      rw [hlen] at hi
      have hfits := decide_eq_true (hi.trans_le h.live_fits)
    · exact hwork.readable hi (by rw [hasWord_workSpace, hku.params_eq]; exact hfits)
    · rw [hasWord_initialSpace, hku.params_eq]; exact hfits
  refine hinitial.andThen fun v _ hv => ?_
  obtain ⟨hkv, hxv⟩ := hv
  refine (copyWords_answers_of_readable (targetSpace_ne_snapshotSpace σ σ) (fun i hi => ?_)
    fun i hi => ?_).andThen fun _ _ _ => trivial
  all_goals rw [hxv, hxu] at hi
  · exact ((h.target i hi).of_memKept hku).of_memKept hkv
  · rw [hasWord_snapshotSpace, hkv.params_eq, hku.params_eq]
    exact decide_eq_true (hi.trans_le h.target_fits)

/-- The start of the other polarity takes nothing away (R228). -/
theorem VelvetStartReady.keep {σ τ : Polarity} {t : State} (h : VelvetStartReady R s σ)
    (hne : σ ≠ τ) (ht : velvetStartPol τ s = .next t) : VelvetStartReady R t σ := by
  have hk := (velvetStartPol_leaves ht).memKept
  have hc := (velvetStartPol_next ht).1
  have hx : t.x = s.x := (velvetStartPol_leaves ht).x_eq
  have hlive : t.c.liveCount σ = s.c.liveCount σ := by rw [hc]; exact liveCount_setPol_ne _ _ hne
  have hsrc : t.c.tapSrc = s.c.tapSrc := by rw [hc, setPol_tapSrc]
  have hview : t.c.viewCount σ = s.c.viewCount σ := by rw [hc, setPol_viewCount]
  refine ⟨?_, ?_, ?_, ?_, ?_⟩
  · rw [hlive, hk.params_eq]; exact h.live_fits
  · rw [hx, hk.params_eq]; exact h.target_fits
  · rw [hsrc, hlive]; exact fun hs => hk.written_upto (h.work_written hs)
  · rw [hsrc, hview]; exact fun hs i hi => (h.view hs i hi).of_memKept hk
  · rw [hx]; exact fun i hi => (h.target i hi).of_memKept hk

theorem velvetStart_answers (h : ∀ σ, VelvetStartReady R s σ) :
    Answers (velvetStartEffects s) (fun _ => True) R :=
  ((h .pos).answers.mono fun u hu _ => hu).andThen fun _ _ hu =>
    ((h .neg).keep (by decide) hu).answers.andThen fun _ _ _ => trivial

/-- A velvet start whose checks pass stays inside the scratch (R211, R232). -/
theorem ReadyInv.velvetStartReady (h : ReadyInv s) (hv : s.c.kind = .velvet)
    (hf : startFault s = none)
    (htgt : ∀ σ, ∀ i < (s.x.targetCount σ).toNat, Readable R s (targetSpace σ) i)
    (hview : s.c.tapSrc = .ir → ∀ σ, ∀ i < (s.c.viewCount σ).toNat, Readable R s (viewSpace σ) i)
    (σ : Polarity) : VelvetStartReady R s σ := by
  simp only [startFault, hv] at hf
  split_ifs at hf with hen hdepth htarget hlive
  rw [not_or, not_lt, not_lt] at htarget hlive
  have hcap := (h.polarity σ).cap_fits
  refine ⟨?_, ?_, fun hs => ?_, fun hs => hview hs σ, htgt σ⟩
  · cases σ with
    | pos => exact hlive.1.trans hcap
    | neg => exact hlive.2.trans hcap
  · cases σ with
    | pos => exact htarget.1.trans hcap
    | neg => exact htarget.2.trans hcap
  · have hlen : s.c.liveCount σ = (s.c.pol σ).len := by simp only [StatusRegs.liveCount, hs]
    rw [hlen]
    exact (h.polarity σ).work_written

end Sys2Proof.Machine

end MorphAccesses

section CommandAccesses

/-! ### Every command (R90, R262) -/

namespace Sys2Proof.Machine

open Sys2Proof.Claims

/-- The refusal names a word of a host-owned memory that nothing has written (R90, U6). -/
def HostUnwritten (s : State) (e : Refusal) : Prop :=
  ∃ sp i, e = .unwrittenWord sp i ∧ sp.hostOwned = true ∧ s.peek sp i = none

variable {s : State}

theorem readable_of_hostOwned {sp : Space} {i : Nat} (ho : sp.hostOwned = true)
    (hw : s.params.hasWord sp i = true) : Readable (HostUnwritten s) s sp i :=
  ⟨hw, fun hnone => ⟨sp, i, rfl, ho, hnone⟩⟩

theorem hasWord_targetSpace (p : Params) (σ : Polarity) (i : Nat) :
    p.hasWord (targetSpace σ) i = decide (i < p.irDepth) := by
  cases σ <;> rfl

theorem ReadyInv.startMorph_answers (h : ReadyInv s) (hst : s.c.st = .ready)
    (hf : startFault s = none) :
    Answers (exec .startMorph s) (fun _ => True) (HostUnwritten s) := by
  rcases exec_startMorph_of_no_fault hst hf with ⟨hk, he⟩ | ⟨hk, he⟩ <;> rw [he]
  · have hword : ∀ i < s.c.na.toNat, i < s.params.irDepth := fun i hi => hi.trans_le h.na_fits
    exact h.denseStart_answers hk (startFault_morphEn hf)
      (fun i hi => readable_of_hostOwned rfl (decide_eq_true (hword i hi)))
      fun _ i hi => readable_of_hostOwned rfl (decide_eq_true (hword i hi))
  · have htarget : ∀ σ, (s.x.targetCount σ).toNat ≤ s.params.irDepth := by
      have hf' := hf
      simp only [startFault, hk] at hf'
      split_ifs at hf' with hen hdepth
      rw [not_or, not_lt, not_lt] at hdepth
      intro σ
      cases σ with
      | pos => exact hdepth.1
      | neg => exact hdepth.2
    refine velvetStart_answers (h.velvetStartReady hk hf (fun σ i hi => ?_) fun _ σ i hi => ?_)
    · refine readable_of_hostOwned (hostOwned_targetSpace σ) ?_
      rw [hasWord_targetSpace]
      exact decide_eq_true (hi.trans_le (htarget σ))
    · refine readable_of_hostOwned (hostOwned_viewSpace σ) ?_
      rw [hasWord_viewSpace]
      exact decide_eq_true (hi.trans_le (h.viewCount_fits σ))

theorem updateFault_morphEn (hf : updateFault s = none) : s.c.morphEn = true := by
  unfold updateFault at hf
  cases hk : s.c.kind <;> rw [hk] at hf <;> simp only at hf
  · split_ifs at hf with hen
    exact Bool.not_eq_false _ ▸ hen
  · cases hf
  · split_ifs at hf with hen
    exact Bool.not_eq_false _ ▸ hen

theorem MachineInv.updateMorph_answers (hinv : MachineInv s) (hst : s.c.st = .ready)
    (hf : updateFault s = none) :
    Answers (Machine.exec .updateMorph s) (fun _ => True) (HostUnwritten s) := by
  have h := hinv.ready hst
  rcases exec_updateMorph_of_no_fault hst hf with ⟨_, he⟩ | ⟨hk, _⟩
  · rw [he]
    exact h.denseUpdate_answers fun _ i hi =>
      readable_of_hostOwned rfl (decide_eq_true (hi.trans_le h.na_fits))
  · obtain ⟨t, ht, _⟩ := (hinv.velvetMorphReady hst hk (updateFault_morphEn hf)).exec_updateMorph
    exact answers_of_next ht trivial

/-- In a state that meets the invariant a command can be stopped only by a host-owned word that nothing has
written. -/
theorem MachineInv.exec_answers (hinv : MachineInv s) (i : Instr) :
    Answers (Machine.exec i s) (fun _ => True) (HostUnwritten s) := by
  by_cases hs : s.c.st = .fault
  · exact answers_of_next (exec_fault hs i) trivial
  cases hf : faultTable i s with
  | some code => exact answers_of_next (exec_raises hs hf) trivial
  | none =>
    cases i with
    | init =>
      obtain ⟨_, t, ht, _⟩ := exec_init_completes hs hf
      exact answers_of_next ht trivial
    | process =>
      have hst := ready_of_no_fault (by decide) hs hf
      rw [exec_process_ready hst]
      have hkernel : KernelReady (HostUnwritten s) s :=
        (hinv.ready hst).kernelReady fun sp i ho hnone => ⟨sp, i, rfl, ho, hnone⟩
      exact hkernel.processFrames_answers.mono fun _ _ _ => trivial
    | startMorph =>
      have hst := ready_of_no_fault (by decide) hs hf
      exact (hinv.ready hst).startMorph_answers hst (by simpa [faultTable, hst] using hf)
    | updateMorph =>
      have hst := ready_of_no_fault (by decide) hs hf
      exact hinv.updateMorph_answers hst (by simpa [faultTable, hst] using hf)
    | isMorphing =>
      have hst := ready_of_no_fault (by decide) hs hf
      exact answers_of_next (exec_isMorphing_ready hst) trivial

theorem MachineInv.issue_answers (hinv : MachineInv s) (w : Word) :
    Answers (Machine.issue w s) (fun _ => True) (HostUnwritten s) := by
  cases hd : decode w with
  | ok i =>
    rw [issue_ok hd]
    exact hinv.exec_answers i
  | error e =>
    by_cases hs : s.c.st = .fault
    · exact answers_of_next (issue_fault hs w) trivial
    · exact answers_of_next (issue_error hd hs) trivial

theorem MachineInv.step_command_answers (hinv : MachineInv s) {w : Word} {rest : List HostMove}
    (hhost : s.host = .command w :: rest) :
    Answers (step s) (fun _ => True) (HostUnwritten s) := by
  rw [step_cons hhost]
  have hinv' : MachineInv { s with host := rest } := hinv.keep (MemKept.of_mem rfl rfl) rfl
  exact hinv'.issue_answers w

/-- Settles O5: the invariant admits every access of every command. -/
theorem commandsNeverFaultOnMemory : Obligations.CommandsNeverFaultOnMemory :=
  fun _ _ _ e hinv hhost => (hinv.step_command_answers hhost).ne_fault e

/-- Settles O6: every engine-written word that a command reads has been written, so a refusal names a
host-owned one. -/
theorem commandsReadOnlyWrittenEngineWords : Obligations.CommandsReadOnlyWrittenEngineWords := by
  intro s w rest e hinv hhost h
  have hanswers := hinv.step_command_answers hhost
  rw [h] at hanswers
  exact hanswers

end Sys2Proof.Machine

end CommandAccesses

/-! ## Two runs in lockstep (10_state.md R21, R23; 70_reset_and_hazards.md R302)

Two machines run the same command. What they keep in common is a relation `Q` between their states; a
`Coupling` says that the machine's operations keep it and answer alike, and every command is then in
lockstep. -/

section Lockstep

/-! ### Lockstep of two computations -/

namespace Sys2Proof.Machine

/-- Both go on, with values that `Q` relates, or both stop alike: at the same fault, or at refusals that `R`
relates. -/
def Lockstep {α β : Type} (Q : α → β → Prop) (R : Refusal → Refusal → Prop) (r : Res α)
    (r' : Res β) : Prop :=
  match r, r' with
  | .next a, .next b => Q a b
  | .fault e, .fault e' => e' = e
  | .refused e, .refused e' => R e e'
  | _, _ => False

section Rules

variable {α β γ δ : Type} {Q : α → β → Prop} {R : Refusal → Refusal → Prop} {r : Res α} {r' : Res β}

theorem lockstep_next {a : α} {b : β} (h : Q a b) : Lockstep Q R (.next a) (.next b) := h

theorem Lockstep.next (h : Lockstep Q R r r') {a : α} (ha : r = .next a) :
    ∃ b, r' = .next b ∧ Q a b := by
  subst ha
  cases r' with
  | next b => exact ⟨b, rfl, h⟩
  | fault e => exact h.elim
  | refused e => exact h.elim

theorem Lockstep.fault (h : Lockstep Q R r r') {e : Fault} (he : r = .fault e) : r' = .fault e := by
  subst he
  cases r' with
  | next b => exact h.elim
  | fault e' => exact congrArg _ h
  | refused e' => exact h.elim

theorem Lockstep.refused (h : Lockstep Q R r r') {e : Refusal} (he : r = .refused e) :
    ∃ e', r' = .refused e' ∧ R e e' := by
  subst he
  cases r' with
  | next b => exact h.elim
  | fault e' => exact h.elim
  | refused e' => exact ⟨e', rfl, h⟩

theorem Lockstep.andThen {Q' : γ → δ → Prop} {f : α → Res γ} {g : β → Res δ}
    (h : Lockstep Q R r r')
    (hf : ∀ a b, r = .next a → Q a b → Lockstep Q' R (f a) (g b)) :
    Lockstep Q' R (andThen r f) (andThen r' g) := by
  cases r with
  | next a =>
    obtain ⟨b, rfl, hq⟩ := h.next rfl
    exact hf a b rfl hq
  | fault e =>
    rw [h.fault rfl]
    rfl
  | refused e =>
    obtain ⟨e', rfl, he⟩ := h.refused rfl
    exact he

theorem Lockstep.mono {Q' : α → β → Prop} (h : Lockstep Q R r r')
    (hq : ∀ a b, r = .next a → Q a b → Q' a b) : Lockstep Q' R r r' := by
  cases r with
  | next a =>
    obtain ⟨b, rfl, hab⟩ := h.next rfl
    exact hq a b rfl hab
  | fault e =>
    rw [h.fault rfl]
    rfl
  | refused e =>
    obtain ⟨e', rfl, he⟩ := h.refused rfl
    exact he

end Rules

variable {R : Refusal → Refusal → Prop}

theorem lockstep_forN {Q : Nat → State → State → Prop} {n : Nat} {f g : Nat → State → Res State}
    {p q : State} (h0 : Q 0 p q)
    (hstep : ∀ i u v, i < n → Q i u v → Lockstep (Q (i + 1)) R (f i u) (g i v)) :
    Lockstep (Q n) R (forN n f p) (forN n g q) := by
  induction n with
  | zero => exact h0
  | succ n ih =>
    exact (ih fun i u v hi => hstep i u v (Nat.lt_succ_of_lt hi)).andThen
      fun u v _ huv => hstep n u v (Nat.lt_succ_self n) huv

/-- The machine's operations keep `Q` and answer alike in states that it relates. `V` names the spaces whose
words the two machines have in common. -/
structure Coupling (R : Refusal → Refusal → Prop) (V : Space → Prop) (Q : State → State → Prop) :
    Prop where
  c_eq : ∀ {p q}, Q p q → q.c = p.c
  params_eq : ∀ {p q}, Q p q → q.params = p.params
  read : ∀ {p q sp}, V sp → Q p q → ∀ i, Lockstep Eq R (memRead sp i p) (memRead sp i q)
  write : ∀ {p q sp}, sp.hostOwned = false → sp ≠ .out → Q p q → ∀ i v,
    Lockstep Q R (memWrite sp i v p) (memWrite sp i v q)
  draw : ∀ {p q}, Q p q → ∀ r, (fpResult r q).1 = (fpResult r p).1 ∧
    Q (fpResult r p).2 (fpResult r q).2

end Sys2Proof.Machine

end Lockstep

section MorphLockstep

/-! ### The morph commands in lockstep -/

namespace Sys2Proof.Machine

open Sys2Proof.Claims

variable {R : Refusal → Refusal → Prop} {V : Space → Prop} {Q : State → State → Prop} {p q : State}

/-- `Q` says nothing of the status registers but that they agree. -/
def KeptBySetC (Q : State → State → Prop) : Prop :=
  ∀ p q c, Q p q → Q { p with c := c } { q with c := c }

theorem Coupling.raiseFault (hset : KeptBySetC Q) (hC : Coupling R V Q) (h : Q p q)
    (code : FaultCode) : Q (raiseFault code p) (raiseFault code q) := by
  unfold Machine.raiseFault
  rw [hC.c_eq h]
  exact hset _ _ _ h

theorem Coupling.checked (hset : KeptBySetC Q) (hC : Coupling R V Q) (h : Q p q)
    {l l' : List (Bool × FaultCode)} (hl : l' = l) {f : State → Res State}
    (hf : Lockstep Q R (f p) (f q)) : Lockstep Q R (checked l p f) (checked l' q f) := by
  rw [hl, checked_eq, checked_eq]
  cases firstViolation l with
  | none => exact hf
  | some code => exact lockstep_next (hC.raiseFault hset h code)

theorem Coupling.copyWords (hC : Coupling R V Q) (h : Q p q) {src dst : Space} (hsrc : V src)
    (hdst : dst.hostOwned = false) (hout : dst ≠ .out) (n : Nat) :
    Lockstep Q R (copyWords src dst n p) (copyWords src dst n q) :=
  lockstep_forN (Q := fun _ => Q) h fun i _ _ _ huv =>
    (hC.read hsrc huv i).andThen fun v _ _ hv => hv ▸ hC.write hdst hout huv i v

theorem Coupling.fillWords (hC : Coupling R V Q) (h : Q p q) {dst : Space}
    (hdst : dst.hostOwned = false) (hout : dst ≠ .out) (n : Nat) (w : Word) :
    Lockstep Q R (fillWords dst n w p) (fillWords dst n w q) :=
  lockstep_forN (Q := fun _ => Q) h fun i _ _ _ huv => hC.write hdst hout huv i w

/-! #### Dense -/

theorem Coupling.denseFill (hC : Coupling R V Q) (h : Q p q) (hview : p.c.tapSrc = .ir → V .dtap) :
    Lockstep Q R (denseFill p) (denseFill q) := by
  unfold Machine.denseFill
  rw [hC.c_eq h]
  cases hsrc : p.c.tapSrc with
  | ir => exact hC.copyWords h (hview hsrc) rfl (by decide) _
  | cur => exact lockstep_next h

theorem Coupling.denseDelta (hC : Coupling R V Q) (hV : ∀ sp, ¬ IsView sp → V sp)
    (hsteps : ∀ p q, Q p q → q.x.steps = p.x.steps) (h : Q p q) (i : Nat) :
    Lockstep Q R (denseDelta i p) (denseDelta i q) := by
  refine (hC.read (hV .dtgt (by simp [IsView])) h i).andThen fun target _ _ ht => ?_
  subst ht
  refine (hC.read (hV .dcur (by simp [IsView])) h i).andThen fun current _ _ hc => ?_
  subst hc
  obtain ⟨hdiff, hQ⟩ := hC.draw h (binary32.sub target current)
  have hx := hsteps _ _ hQ
  obtain ⟨hdelta, hQ'⟩ := hC.draw hQ (binary32.div (fpSub target current p).1
    (binary32.ofNat (fpSub target current p).2.x.steps.toNat))
  simp only [fpSub, fpDiv] at hdelta hQ' ⊢
  rw [hdiff, hx, hdelta]
  exact hC.write rfl (by decide) hQ' i _

theorem Coupling.denseStart (hset : KeptBySetC Q) (hC : Coupling R V Q)
    (hV : ∀ sp, ¬ IsView sp → V sp) (hsteps : ∀ p q, Q p q → q.x.steps = p.x.steps) (h : Q p q)
    (hview : p.c.tapSrc = .ir → V .dtap) :
    Lockstep Q R (denseStartEffects p) (denseStartEffects q) := by
  refine (hC.denseFill h hview).andThen fun u u' _ hu => ?_
  rw [hC.c_eq hu]
  refine (lockstep_forN (Q := fun _ => Q) hu fun i _ _ _ huv =>
    hC.denseDelta hV hsteps huv i).andThen fun v v' _ hv => lockstep_next ?_
  rw [hC.c_eq hv, hsteps _ _ hv]
  exact hset _ _ _ hv

theorem Coupling.denseAdd (hC : Coupling R V Q) (hV : ∀ sp, ¬ IsView sp → V sp) (h : Q p q)
    (i : Nat) : Lockstep Q R (denseAdd i p) (denseAdd i q) := by
  refine (hC.read (hV .dcur (by simp [IsView])) h i).andThen fun current _ _ hc => ?_
  subst hc
  refine (hC.read (hV .ddel (by simp [IsView])) h i).andThen fun delta _ _ hd => ?_
  subst hd
  obtain ⟨hsum, hQ⟩ := hC.draw h (binary32.add current delta)
  simp only [fpAdd]
  rw [hsum]
  exact hC.write rfl (by decide) hQ i _

theorem Coupling.denseUpdate (hset : KeptBySetC Q) (hC : Coupling R V Q)
    (hV : ∀ sp, ¬ IsView sp → V sp) (h : Q p q) :
    Lockstep Q R (denseUpdateEffects p) (denseUpdateEffects q) := by
  unfold denseUpdateEffects
  rw [hC.c_eq h]
  split_ifs with hm
  · exact lockstep_next h
  refine (lockstep_forN (Q := fun _ => Q) h fun i _ _ _ huv =>
    hC.denseAdd hV huv i).andThen fun u u' _ hu => ?_
  rw [hC.c_eq hu]
  have hQ := hset u u' { u.c with mrem := u.c.mrem - 1 } hu
  unfold denseSnap
  split_ifs with hlast
  · exact hC.copyWords hQ (hV .dtgt (by simp [IsView])) rfl (by decide) _
  · exact lockstep_next hQ

/-! #### Velvet -/

theorem not_isView_workSpace (σ : Polarity) : ¬ IsView (workSpace σ) := by
  cases σ <;> simp [IsView, workSpace]

theorem not_isView_targetSpace (σ : Polarity) : ¬ IsView (targetSpace σ) := by
  cases σ <;> simp [IsView, targetSpace]

theorem not_isView_snapshotSpace (σ : Polarity) : ¬ IsView (snapshotSpace σ) := by
  cases σ <;> simp [IsView, snapshotSpace]

theorem ne_out_of_mem_morphScratch {sp : Space} (h : sp ∈ morphScratch) : sp ≠ .out := by
  rintro rfl
  simp [morphScratch] at h

theorem Coupling.copyToScratch (hC : Coupling R V Q) (h : Q p q) {src dst : Space} (hsrc : V src)
    (hdst : dst.hostOwned = false) (hscratch : dst ∈ morphScratch) (n : Nat) :
    Lockstep Q R (Machine.copyWords src dst n p) (Machine.copyWords src dst n q) :=
  hC.copyWords h hsrc hdst (ne_out_of_mem_morphScratch hscratch) n

theorem Coupling.velvetFill (hset : KeptBySetC Q) (hC : Coupling R V Q) (h : Q p q) {σ : Polarity}
    (hview : p.c.tapSrc = .ir → V (viewSpace σ)) :
    Lockstep Q R (velvetFill σ p) (velvetFill σ q) := by
  unfold Machine.velvetFill
  rw [hC.c_eq h]
  cases hsrc : p.c.tapSrc with
  | ir =>
    refine (hC.copyToScratch h (hview hsrc) (hostOwned_workSpace σ)
      (workSpace_mem_morphScratch σ) _).andThen fun u u' _ hu => lockstep_next ?_
    rw [hC.c_eq hu]
    exact hset _ _ _ hu
  | cur => exact lockstep_next h

theorem Coupling.velvetStartPol (hset : KeptBySetC Q) (hC : Coupling R V Q)
    (hV : ∀ sp, ¬ IsView sp → V sp) {σ : Polarity}
    (htarget : ∀ p q, Q p q → q.x.targetCount σ = p.x.targetCount σ) (h : Q p q)
    (hview : p.c.tapSrc = .ir → V (viewSpace σ)) :
    Lockstep Q R (velvetStartPol σ p) (velvetStartPol σ q) := by
  refine (hC.velvetFill hset h hview).andThen fun u u' _ hu => ?_
  have hinitial : Lockstep Q R (velvetSnapInitial σ u) (velvetSnapInitial σ u') := by
    unfold velvetSnapInitial
    rw [hC.c_eq hu]
    refine (hC.copyToScratch hu (hV _ (not_isView_workSpace σ)) (hostOwned_initialSpace σ)
      (initialSpace_mem_morphScratch σ) _).andThen fun v v' _ hv => lockstep_next ?_
    rw [hC.c_eq hv]
    exact hset _ _ _ hv
  refine hinitial.andThen fun v v' _ hv => ?_
  unfold velvetSnapTarget
  rw [htarget _ _ hv]
  refine (hC.copyToScratch hv (hV _ (not_isView_targetSpace σ)) (hostOwned_snapshotSpace σ)
    (snapshotSpace_mem_morphScratch σ) _).andThen fun w w' _ hw => lockstep_next ?_
  rw [hC.c_eq hw, htarget _ _ hw]
  exact hset _ _ _ hw

theorem Coupling.velvetStart (hset : KeptBySetC Q) (hC : Coupling R V Q)
    (hV : ∀ sp, ¬ IsView sp → V sp)
    (htarget : ∀ σ p q, Q p q → q.x.targetCount σ = p.x.targetCount σ) (h : Q p q)
    (hview : p.c.tapSrc = .ir → ∀ σ, V (viewSpace σ)) :
    Lockstep Q R (velvetStartEffects p) (velvetStartEffects q) := by
  refine (hC.velvetStartPol hset hV (htarget .pos) h fun hs => hview hs .pos).andThen
    fun u u' hru hu => ?_
  have hsrc : u.c.tapSrc = p.c.tapSrc := by rw [(velvetStartPol_next hru).1, setPol_tapSrc]
  refine (hC.velvetStartPol hset hV (htarget .neg) hu
    fun hs => hview (hsrc ▸ hs) .neg).andThen fun v v' _ hv => lockstep_next ?_
  rw [hC.c_eq hv]
  exact hset _ _ _ hv

/-- The move of one element into a working array, as `velvetStep` makes it. -/
theorem Coupling.migrate (hset : KeptBySetC Q) (hC : Coupling R V Q)
    (hV : ∀ sp, ¬ IsView sp → V sp) (h : Q p q) (σ : Polarity) (i j : Nat) (r : VelvetRegs) :
    Lockstep Q R
      (andThen (memRead (snapshotSpace σ) i p) fun v =>
        andThen (memWrite (workSpace σ) j v p) fun s' => .next { s' with c := s'.c.setPol σ r })
      (andThen (memRead (snapshotSpace σ) i q) fun v =>
        andThen (memWrite (workSpace σ) j v q) fun s' => .next { s' with c := s'.c.setPol σ r }) := by
  refine (hC.read (hV _ (not_isView_snapshotSpace σ)) h i).andThen fun v _ _ hv => ?_
  subst hv
  refine (hC.write (hostOwned_workSpace σ)
    (ne_out_of_mem_morphScratch (workSpace_mem_morphScratch σ)) h j v).andThen
    fun u u' _ hu => lockstep_next ?_
  rw [hC.c_eq hu]
  exact hset _ _ _ hu

theorem Coupling.velvetStep (hset : KeptBySetC Q) (hC : Coupling R V Q)
    (hV : ∀ sp, ¬ IsView sp → V sp) (h : Q p q) (σ : Polarity) :
    Lockstep Q R (velvetStep σ p) (velvetStep σ q) := by
  unfold Machine.velvetStep
  rw [hC.c_eq h, show q.params.substSlot = p.params.substSlot from congrArg _ (hC.params_eq h)]
  simp only
  split_ifs with hsub hrem happ
  · exact hC.migrate hset hV h σ _ _ _
  · exact lockstep_next (hset _ _ _ h)
  · exact hC.migrate hset hV h σ _ _ _
  · exact lockstep_next h

theorem Coupling.velvetUpdate (hset : KeptBySetC Q) (hC : Coupling R V Q)
    (hV : ∀ sp, ¬ IsView sp → V sp) (h : Q p q) :
    Lockstep Q R (velvetUpdateEffects p) (velvetUpdateEffects q) :=
  (hC.velvetStep hset hV h .pos).andThen fun _ _ _ hu => hC.velvetStep hset hV hu .neg

end Sys2Proof.Machine

end MorphLockstep

section KernelLockstep

/-! ### `PROCESS` in lockstep -/

namespace Sys2Proof.Machine

open Sys2Proof.Claims

/-- The number of channels that the fan-out serves in the selected layout (R130). -/
def StatusRegs.fanWidth (c : StatusRegs) : Nat :=
  match c.layout with
  | .ch1 => 1
  | .ch2 => 2
  | .ch4 => 4
  | .chN => c.channels.toNat

/-- In every layout the fan-out is an ascending loop (R130, R133). -/
theorem fanout_eq_forN_fanWidth (op : Nat → State → Res State) (s : State) :
    fanout op s = forN s.c.fanWidth op s := by
  unfold fanout StatusRegs.fanWidth
  cases s.c.layout <;> rfl

theorem fanWidth_eq_channels {c : StatusRegs} (h : c.layout = layoutOf c.channels) :
    c.fanWidth = c.channels.toNat := by
  unfold StatusRegs.fanWidth
  rw [h]
  rcases layoutOf_cases c.channels with ⟨hl, hc⟩ | ⟨hl, hc⟩ | ⟨hl, hc⟩ | hl <;> rw [hl]
  · rw [hc]; rfl
  · rw [hc]; rfl
  · rw [hc]; rfl

/-- The live taps stand in spaces that the two machines have in common. -/
structure TapsInCommon (V : Space → Prop) (c : StatusRegs) : Prop where
  dense : c.kind = .dense → V c.denseTaps
  sparse : c.kind = .sparse → V .spos ∧ V .sval
  velvet : c.kind = .velvet → ∀ σ, V (c.velvetTaps σ)

/-- The relation `Q f ch` that holds when the frames below `f` are done and, of frame `f`, the channels below
`ch` are emitted. The first machine is `a` frames ahead in `IN` and `OUT`. -/
structure KernelCoupling (R : Refusal → Refusal → Prop) (V : Space → Prop) (a n : Nat)
    (Q : Nat → Nat → State → State → Prop) : Prop where
  base : ∀ f ch, Coupling R V (Q f ch)
  acc : V .acc
  taps : ∀ {f ch p q}, Q f ch p q → TapsInCommon V p.c
  sample : ∀ {f g ch p q}, f < n → Q f g p q → ch < p.c.fanWidth →
    Lockstep Eq R (memRead .inp (p.c.sampleIndex (a + f) ch) p) (memRead .inp (p.c.sampleIndex f ch) q)
  emit : ∀ {f ch p q}, Q f ch p q → ∀ v,
    Lockstep (Q f (ch + 1)) R (memWrite .out (p.c.sampleIndex (a + f) ch) v p)
      (memWrite .out (p.c.sampleIndex f ch) v q)
  advance : ∀ {f p q}, Q f p.c.fanWidth p q → Q (f + 1) 0 (advance p) (advance q)

variable {R : Refusal → Refusal → Prop} {V : Space → Prop} {a n f : Nat}
  {Q : Nat → Nat → State → State → Prop} {p q : State}

theorem Coupling.contribute {Q : State → State → Prop} (hC : Coupling R V Q) (h : Q p q)
    (k : Contribution) (v : Word) : (contribute k v q).1 = (contribute k v p).1 ∧
      Q (contribute k v p).2 (contribute k v q).2 := by
  cases k with
  | scaled w => exact hC.draw h _
  | added => exact ⟨rfl, h⟩
  | subtracted => exact ⟨rfl, h⟩

theorem KernelCoupling.accOp (hK : KernelCoupling R V a n Q) (hf : f < n) (h : Q f 0 p q)
    {ch : Nat} (hch : ch < p.c.fanWidth) (d : Nat) (k : Contribution) :
    Lockstep (Q f 0) R (accOp (a + f) d k ch p) (accOp f d k ch q) := by
  have hC := hK.base f 0
  unfold Machine.accOp
  rw [hC.c_eq h]
  refine (hC.read hK.acc h _).andThen fun w _ _ hw => ?_
  subst hw
  refine (hK.sample hf h hch).andThen fun v _ _ hv => ?_
  subst hv
  obtain ⟨hcontrib, hQ⟩ := hC.contribute h k v
  obtain ⟨hsum, hQ'⟩ := hC.draw hQ (binary32.add w (Machine.contribute k v p).1)
  simp only [fpAdd]
  rw [hcontrib, hsum]
  exact hC.write rfl (by decide) hQ' _ _

theorem KernelCoupling.tap (hK : KernelCoupling R V a n Q) (hf : f < n) (h : Q f 0 p q) (d : Nat)
    (k : Contribution) :
    Lockstep (Q f 0) R (fanout (Machine.accOp (a + f) d k) p) (fanout (Machine.accOp f d k) q) := by
  rw [fanout_eq_forN_fanWidth, fanout_eq_forN_fanWidth, (hK.base f 0).c_eq h]
  refine (lockstep_forN (Q := fun _ u v => Q f 0 u v ∧ u.c = p.c) ⟨h, rfl⟩
    fun ch u v hch huv => ?_).mono fun _ _ _ hend => hend.1
  obtain ⟨huv, hc⟩ := huv
  refine (hK.accOp hf huv (by rwa [hc]) d k).mono fun u' _ hu' hend => ⟨hend, ?_⟩
  exact (leaves_accOp (W := fun _ _ => True) trivial hu').c_eq.trans hc

theorem KernelCoupling.denseTap (hK : KernelCoupling R V a n Q) (hf : f < n) (h : Q f 0 p q)
    (hV : V p.c.denseTaps) (t : Nat) :
    Lockstep (Q f 0) R (denseTap (a + f) t p) (denseTap f t q) := by
  unfold Machine.denseTap
  rw [(hK.base f 0).c_eq h]
  exact ((hK.base f 0).read hV h t).andThen fun v _ _ hv => hv ▸ hK.tap hf h t (.scaled v)

theorem KernelCoupling.sparseTap (hK : KernelCoupling R V a n Q) (hf : f < n) (h : Q f 0 p q)
    (hV : V .spos ∧ V .sval) (t : Nat) :
    Lockstep (Q f 0) R (sparseTap (a + f) t p) (sparseTap f t q) := by
  refine ((hK.base f 0).read hV.1 h t).andThen fun d _ _ hd => ?_
  subst hd
  exact ((hK.base f 0).read hV.2 h t).andThen fun v _ _ hv => hv ▸ hK.tap hf h d.toNat (.scaled v)

theorem KernelCoupling.velvetTap (hK : KernelCoupling R V a n Q) (hf : f < n) (h : Q f 0 p q)
    {σ : Polarity} (hV : V (p.c.velvetTaps σ)) (t : Nat) :
    Lockstep (Q f 0) R (velvetTap σ (a + f) t p) (velvetTap σ f t q) := by
  unfold Machine.velvetTap
  rw [(hK.base f 0).c_eq h]
  exact ((hK.base f 0).read hV h t).andThen
    fun d _ _ hd => hd ▸ hK.tap hf h d.toNat σ.contribution

/-- A loop over taps: every round keeps the status registers, so the taps stay in common. -/
theorem lockstep_taps (h : Q f 0 p q) {m : Nat}
    {tap tap' : Nat → State → Res State}
    (hleaves : ∀ t u v, u.c = p.c → tap t u = .next v → Leaves (fun _ _ => True) u v)
    (htap : ∀ t u v, u.c = p.c → Q f 0 u v → Lockstep (Q f 0) R (tap t u) (tap' t v)) :
    Lockstep (Q f 0) R (forN m tap p) (forN m tap' q) :=
  (lockstep_forN (Q := fun _ u v => Q f 0 u v ∧ u.c = p.c) ⟨h, rfl⟩ fun t u v _ huv =>
    (htap t u v huv.2 huv.1).mono fun _ _ hu' hend =>
      ⟨hend, (hleaves t u _ huv.2 hu').c_eq.trans huv.2⟩).mono fun _ _ _ hend => hend.1

theorem KernelCoupling.velvetTaps (hK : KernelCoupling R V a n Q) (hf : f < n) (h : Q f 0 p q)
    (hk : p.c.kind = .velvet) (σ : Polarity) (m : Nat) :
    Lockstep (Q f 0) R (forN m (Machine.velvetTap σ (a + f)) p) (forN m (Machine.velvetTap σ f) q) :=
  lockstep_taps h (fun _ _ _ _ => leaves_velvetTap fun _ _ => trivial)
    fun t _ _ hc huv => hK.velvetTap hf huv (by rw [hc]; exact (hK.taps h).velvet hk σ) t

theorem KernelCoupling.accumulate (hK : KernelCoupling R V a n Q) (hf : f < n) (h : Q f 0 p q) :
    Lockstep (Q f 0) R (accumulate (a + f) p) (accumulate f q) := by
  have htaps := hK.taps h
  unfold Machine.accumulate
  rw [(hK.base f 0).c_eq h]
  cases hk : p.c.kind with
  | dense =>
    exact lockstep_taps h (fun _ _ _ _ => leaves_denseTap fun _ _ => trivial)
      fun t _ _ hc huv => hK.denseTap hf huv (by rw [hc]; exact htaps.dense hk) t
  | sparse =>
    exact lockstep_taps h (fun _ _ _ _ => leaves_sparseTap fun _ _ => trivial)
      fun t _ _ _ huv => hK.sparseTap hf huv (htaps.sparse hk) t
  | velvet =>
    refine (hK.velvetTaps hf h hk .pos _).andThen fun u v hu huv => ?_
    have hc : u.c = p.c := (leaves_taps (W := fun _ _ => True)
      (fun _ _ _ _ => leaves_velvetTap fun _ _ => trivial) hu).c_eq
    rw [(hK.base f 0).c_eq huv]
    exact hK.velvetTaps hf huv (hc ▸ hk) .neg _

theorem KernelCoupling.emitOp (hK : KernelCoupling R V a n Q) {ch : Nat} (h : Q f ch p q) :
    Lockstep (Q f (ch + 1)) R (emitOp (a + f) ch p) (emitOp f ch q) := by
  unfold Machine.emitOp
  rw [(hK.base f ch).c_eq h]
  refine ((hK.base f ch).read hK.acc h _).andThen fun w _ _ hw => ?_
  subst hw
  exact (hK.emit h w).andThen fun u v _ huv => (hK.base f _).write rfl (by decide) huv _ _

theorem KernelCoupling.emitAndClear (hK : KernelCoupling R V a n Q) (h : Q f 0 p q) :
    Lockstep (fun u v => Q f u.c.fanWidth u v) R (emitAndClear (a + f) p) (emitAndClear f q) := by
  unfold Machine.emitAndClear
  rw [fanout_eq_forN_fanWidth, fanout_eq_forN_fanWidth, (hK.base f 0).c_eq h]
  refine (lockstep_forN (Q := fun ch u v => Q f ch u v ∧ u.c = p.c) ⟨h, rfl⟩
    fun ch u v _ huv => (hK.emitOp huv.1).mono fun u' _ hu' hend => ⟨hend, ?_⟩).mono
    fun _ _ _ hend => by rw [hend.2]; exact hend.1
  obtain ⟨w, _, _, rfl⟩ := emitOp_next hu'
  exact huv.2

theorem KernelCoupling.sampleStep (hK : KernelCoupling R V a n Q) (hf : f < n) (h : Q f 0 p q) :
    Lockstep (Q (f + 1) 0) R (sampleStep (a + f) p) (sampleStep f q) :=
  (hK.accumulate hf h).andThen fun _ _ _ hu =>
    (hK.emitAndClear hu).andThen fun _ _ _ hv => lockstep_next (hK.advance hv)

/-- `n` sample steps, the first machine `a` frames ahead. -/
theorem KernelCoupling.processFrames (hK : KernelCoupling R V a n Q) (h : Q 0 0 p q) :
    Lockstep (Q n 0) R (forN n (fun i => Machine.sampleStep (a + i)) p) (processFrames n q) :=
  lockstep_forN (Q := fun i => Q i 0) h fun _ _ _ hi huv => hK.sampleStep hi huv

end Sys2Proof.Machine

end KernelLockstep

section CommandLockstep

/-! ### Every command in lockstep -/

namespace Sys2Proof.Machine

open Sys2Proof.Claims

variable {R : Refusal → Refusal → Prop} {V : Space → Prop} {Q : State → State → Prop} {p q : State}

theorem Coupling.initEffects (hset : KeptBySetC Q) (hC : Coupling R V Q) (h : Q p q) {k : Kind}
    (hlen : q.x.buflen = p.x.buflen) (hregs : ∀ u v, Q u v → initRegs v k = initRegs u k) :
    Lockstep Q R (initEffects k p) (initEffects k q) := by
  unfold Machine.initEffects
  rw [hlen]
  refine (hC.fillWords h rfl (by decide) _ _).andThen fun u v _ huv => lockstep_next ?_
  rw [hregs u v huv]
  exact hset _ _ _ huv

theorem Coupling.exec_init (hset : KeptBySetC Q) (hC : Coupling R V Q) (h : Q p q)
    (hkind : q.x.kind = p.x.kind)
    (hinit : ∀ k, kindOfWord p.x.kind = some k → initChecks q k = initChecks p k ∧
      Lockstep Q R (Machine.initEffects k p) (Machine.initEffects k q)) :
    Lockstep Q R (exec .init p) (exec .init q) := by
  have hc := hC.c_eq h
  by_cases hs : p.c.st = .fault
  · rw [exec_fault hs, exec_fault (hc ▸ hs)]
    exact lockstep_next h
  rw [exec, exec, execInit_eq hs, execInit_eq (hc ▸ hs), hkind]
  cases hk : kindOfWord p.x.kind with
  | none => exact lockstep_next (hC.raiseFault hset h _)
  | some k => exact hC.checked hset h (hinit k hk).1 (hinit k hk).2

/-- A command other than `INIT` outside READY reads the life-cycle state alone (R253, R254). -/
theorem Coupling.exec_not_ready (hset : KeptBySetC Q) (hC : Coupling R V Q) (h : Q p q) {i : Instr}
    (hi : i ≠ .init) (hs : p.c.st ≠ .ready) : Lockstep Q R (exec i p) (exec i q) := by
  have hc := hC.c_eq h
  cases hst : p.c.st with
  | ready => exact absurd hst hs
  | fault =>
    rw [exec_fault hst, exec_fault (hc ▸ hst)]
    exact lockstep_next h
  | uninit =>
    rw [exec_uninit hi hst, exec_uninit hi (hc ▸ hst)]
    exact lockstep_next (hC.raiseFault hset h _)

theorem Coupling.exec_startMorph (hset : KeptBySetC Q) (hC : Coupling R V Q) (h : Q p q)
    (hst : p.c.st = .ready)
    (hdense : p.c.kind = .dense → denseStartChecks q = denseStartChecks p ∧
      Lockstep Q R (denseStartEffects p) (denseStartEffects q))
    (hvelvet : p.c.kind = .velvet → velvetStartChecks q = velvetStartChecks p ∧
      Lockstep Q R (velvetStartEffects p) (velvetStartEffects q)) :
    Lockstep Q R (exec .startMorph p) (exec .startMorph q) := by
  have hc := hC.c_eq h
  rw [exec_startMorph_ready hst, exec_startMorph_ready (hc ▸ hst), hc]
  cases hk : p.c.kind with
  | dense => exact hC.checked hset h (hdense hk).1 (hdense hk).2
  | sparse => exact lockstep_next (hC.raiseFault hset h _)
  | velvet => exact hC.checked hset h (hvelvet hk).1 (hvelvet hk).2

theorem Coupling.exec_updateMorph (hset : KeptBySetC Q) (hC : Coupling R V Q)
    (hV : ∀ sp, ¬ IsView sp → V sp) (h : Q p q) (hst : p.c.st = .ready) :
    Lockstep Q R (exec .updateMorph p) (exec .updateMorph q) := by
  have hc := hC.c_eq h
  rw [exec_updateMorph_ready hst, exec_updateMorph_ready (hc ▸ hst), hc]
  cases hk : p.c.kind with
  | dense => exact hC.checked hset h (by rw [hc]) (hC.denseUpdate hset hV h)
  | sparse => exact lockstep_next (hC.raiseFault hset h _)
  | velvet => exact hC.checked hset h (by rw [hc]) (hC.velvetUpdate hset hV h)

theorem Coupling.exec_isMorphing (hset : KeptBySetC Q) (hC : Coupling R V Q) (h : Q p q)
    (hst : p.c.st = .ready) : Lockstep Q R (exec .isMorphing p) (exec .isMorphing q) := by
  have hc := hC.c_eq h
  rw [exec_isMorphing_ready hst, exec_isMorphing_ready (hc ▸ hst), hc]
  exact lockstep_next (hset _ _ _ h)

/-- `PROCESS` of the same number of frames from the front of `IN`. -/
theorem KernelCoupling.exec_process {Q : Nat → Nat → State → State → Prop}
    (hK : KernelCoupling R V 0 p.x.block.toNat Q) (h : Q 0 0 p q) (hblock : q.x.block = p.x.block)
    (hst : p.c.st = .ready) :
    Lockstep (Q p.x.block.toNat 0) R (exec .process p) (exec .process q) := by
  have hc := (hK.base 0 0).c_eq h
  rw [exec_process_ready hst, exec_process_ready (hc ▸ hst), hblock]
  have hrun := hK.processFrames h
  simp only [Nat.zero_add] at hrun
  exact hrun

end Sys2Proof.Machine

end CommandLockstep

section UnreadOperands

/-! ### Operand registers that a command does not read (R21, R23) -/

namespace Sys2Proof.Machine

open Sys2Proof.Claims

/-- The second machine is the first with the operand registers `x'` for `x`. -/
def OperandsSwapped (x x' : OperandRegs) (p q : State) : Prop := p.x = x ∧ q = { p with x := x' }

variable {x x' : OperandRegs}

theorem lockstep_rfl {α : Type} (r : Res α) : Lockstep Eq Eq r r := by
  cases r <;> rfl

theorem keptBySetC_operandsSwapped : KeptBySetC (OperandsSwapped x x') := by
  rintro p q c ⟨hx, rfl⟩
  exact ⟨hx, rfl⟩

theorem memWrite_operandsSwapped {p q : State} (h : OperandsSwapped x x' p q) (sp : Space) (i : Nat)
    (v : Word) : Lockstep (OperandsSwapped x x') Eq (memWrite sp i v p) (memWrite sp i v q) := by
  obtain ⟨hx, rfl⟩ := h
  unfold memWrite
  dsimp only
  split
  · exact ⟨hx, rfl⟩
  · rfl

/-- No memory operation and no arithmetic reads an operand register. -/
theorem coupling_operandsSwapped : Coupling Eq (fun _ => True) (OperandsSwapped x x') where
  c_eq h := by rw [h.2]
  params_eq h := by rw [h.2]
  read _ h i := by
    rw [h.2]
    exact lockstep_rfl _
  write _ _ h i v := memWrite_operandsSwapped h _ i v
  draw h r := by
    obtain ⟨hx, rfl⟩ := h
    cases r
    · exact ⟨rfl, hx, rfl⟩
    · exact ⟨rfl, hx, rfl⟩

theorem kernelCoupling_operandsSwapped (n : Nat) :
    KernelCoupling Eq (fun _ => True) 0 n fun _ _ => OperandsSwapped x x' where
  base _ _ := coupling_operandsSwapped
  acc := trivial
  taps _ := ⟨fun _ => trivial, fun _ => ⟨trivial, trivial⟩, fun _ _ => trivial⟩
  sample _ h _ := by
    rw [Nat.zero_add]
    exact coupling_operandsSwapped.read trivial h _
  emit h v := by
    rw [Nat.zero_add]
    exact memWrite_operandsSwapped h _ _ v
  advance h := by
    obtain ⟨hx, rfl⟩ := h
    exact ⟨hx, rfl⟩

/-- `x` and `x'` agree on what an `INIT` of kind `k` reads (R170, R175, R176). -/
structure InitAgree (k : Kind) (x x' : OperandRegs) : Prop where
  buflen : x'.buflen = x.buflen
  channels : x'.channels = x.channels
  ntapsA : x'.ntapsA = x.ntapsA
  morphEn : x'.morphEn = x.morphEn
  velvet : k = .velvet → x'.ntapsB = x.ntapsB ∧ x'.capP = x.capP ∧ x'.capN = x.capN

theorem InitAgree.secondCount {k : Kind} (h : InitAgree k x x') :
    x'.secondCount k = x.secondCount k := by
  rw [secondCount_eq, secondCount_eq]
  split_ifs with hk
  · exact (h.velvet hk).1
  · rfl

theorem InitAgree.scratchNeed {k : Kind} (h : InitAgree k x x') :
    x'.scratchNeed k = x.scratchNeed k := by
  cases k with
  | dense => simp only [OperandRegs.scratchNeed, h.ntapsA]
  | sparse => rfl
  | velvet =>
    obtain ⟨_, hP, hN⟩ := h.velvet rfl
    simp only [OperandRegs.scratchNeed, hP, hN]

theorem InitAgree.morphBinding {k : Kind} (h : InitAgree k x x') (p : Params) :
    Machine.morphBinding p x' k = Machine.morphBinding p x k := by
  simp only [Machine.morphBinding, OperandRegs.wantsMorph, h.morphEn, h.scratchNeed]

/-- A capacity is latched for VELVET alone (R176). -/
theorem initPol_congr {b : Bool} {k : Kind} {cap cap' : Word} (h : k = .velvet → cap' = cap) :
    initPol b k cap' = initPol b k cap := by
  cases k with
  | dense => simp [initPol]
  | sparse => simp [initPol]
  | velvet => rw [h rfl]

theorem InitAgree.initRegs {k : Kind} {s : State} (h : InitAgree k s.x x') :
    initRegs { s with x := x' } k = initRegs s k := by
  simp only [Machine.initRegs, h.buflen, h.channels, h.ntapsA, h.secondCount, h.morphBinding,
    initPol_congr fun hk => (h.velvet hk).2.1, initPol_congr fun hk => (h.velvet hk).2.2]

theorem InitAgree.initChecks {k : Kind} {s : State} (h : InitAgree k s.x x') :
    initChecks { s with x := x' } k = initChecks s k := by
  simp only [Machine.initChecks, h.buflen, h.channels, h.ntapsA, h.secondCount]

/-- A command runs in lockstep on operand files that agree where it reads them. -/
theorem exec_operandsSwapped {i : Instr} {s : State}
    (hagree : ∀ j, readsOperand i s j → x'.get j = s.x.get j) :
    Lockstep (OperandsSwapped s.x x') Eq (exec i s) (exec i { s with x := x' }) := by
  have hset : KeptBySetC (OperandsSwapped s.x x') := keptBySetC_operandsSwapped
  have hC : Coupling Eq (fun _ => True) (OperandsSwapped s.x x') := coupling_operandsSwapped
  have h : OperandsSwapped s.x x' s { s with x := x' } := ⟨rfl, rfl⟩
  by_cases hi : i = .init
  · subst hi
    have hread : ∀ j : Fin 12, j.val ∈ [0, 1, 2, 3, 5] → x'.get j = s.x.get j :=
      fun j hj => hagree j (.inl hj)
    refine hC.exec_init hset h (hread 0 (by decide)) fun k hk => ?_
    have hinit : InitAgree k s.x x' :=
      { buflen := hread 1 (by decide)
        channels := hread 2 (by decide)
        ntapsA := hread 3 (by decide)
        morphEn := hread 5 (by decide)
        velvet := fun hv => by
          have hkind : s.x.kind.toNat = 2 := kindOfWord_eq_velvet.1 (hv ▸ hk)
          exact ⟨hagree 4 (.inr ⟨hkind, by decide⟩), hagree 6 (.inr ⟨hkind, by decide⟩),
            hagree 7 (.inr ⟨hkind, by decide⟩)⟩ }
    refine ⟨hinit.initChecks, hC.initEffects hset h hinit.buflen ?_⟩
    rintro u v ⟨hx, rfl⟩
    exact (hx ▸ hinit : InitAgree k u.x x').initRegs
  by_cases hst : s.c.st = .ready
  case neg => exact hC.exec_not_ready hset h hi hst
  cases i with
  | init => exact absurd rfl hi
  | process =>
    exact (kernelCoupling_operandsSwapped _).exec_process h (hagree 8 rfl) hst
  | startMorph =>
    refine hC.exec_startMorph hset h hst (fun hk => ?_) fun hk => ?_
    · have hsteps : x'.steps = s.x.steps := hagree 9 (.inl ⟨hk, by decide⟩)
      have htlen : x'.tlenA = s.x.tlenA := hagree 10 (.inl ⟨hk, by decide⟩)
      refine ⟨by simp only [denseStartChecks, hsteps, htlen],
        hC.denseStart hset (fun _ _ => trivial) ?_ h fun _ => trivial⟩
      rintro u v ⟨hx, rfl⟩
      exact hsteps.trans (congrArg _ hx.symm)
    · have htlenA : x'.tlenA = s.x.tlenA := hagree 10 (.inr ⟨hk, by decide⟩)
      have htlenB : x'.tlenB = s.x.tlenB := hagree 11 (.inr ⟨hk, by decide⟩)
      refine ⟨by simp only [velvetStartChecks, htlenA, htlenB],
        hC.velvetStart hset (fun _ _ => trivial) ?_ h fun _ _ => trivial⟩
      rintro σ u v ⟨hx, rfl⟩
      cases σ with
      | pos => exact htlenA.trans (congrArg _ hx.symm)
      | neg => exact htlenB.trans (congrArg _ hx.symm)
  | updateMorph => exact hC.exec_updateMorph hset (fun _ _ => trivial) h hst
  | isMorphing => exact hC.exec_isMorphing hset h hst

/-- Settles O18: the command runs in lockstep on the two operand files. -/
theorem commandsReadOnlyTheirOperands : Obligations.CommandsReadOnlyTheirOperands := by
  intro i s x' hagree
  have hrun := exec_operandsSwapped hagree
  refine ⟨fun t ht => ?_, fun e he => hrun.fault he, fun e he => ?_⟩
  · obtain ⟨u, hu, _, rfl⟩ := hrun.next ht
    exact hu
  · obtain ⟨e', he', rfl⟩ := hrun.refused he
    exact he'

end Sys2Proof.Machine

end UnreadOperands

section UnreadViews

/-! ### The IR views once the tap source is the working array (R302) -/

namespace Sys2Proof.Machine

open Sys2Proof.Claims

/-- The two machines differ in words of the IR views alone (and in what lies outside the block). -/
structure ViewsDiffer (p q : State) : Prop where
  x_eq : q.x = p.x
  c_eq : q.c = p.c
  params_eq : q.params = p.params
  draws_eq : q.draws = p.draws
  peek_eq : ∀ sp, ¬ IsView sp → ∀ j, q.peek sp j = p.peek sp j

variable {p q : State}

theorem ViewsDiffer.setC (h : ViewsDiffer p q) (c : StatusRegs) :
    ViewsDiffer { p with c := c } { q with c := c } :=
  ⟨h.x_eq, rfl, h.params_eq, h.draws_eq, h.peek_eq⟩

theorem ViewsDiffer.poke (h : ViewsDiffer p q) (sp : Space) (i : Nat) (v : Word) :
    ViewsDiffer (p.poke sp i v) (q.poke sp i v) := by
  refine ⟨h.x_eq, h.c_eq, h.params_eq, h.draws_eq, fun sp' hsp' j => ?_⟩
  rw [peek_poke, peek_poke, h.peek_eq sp' hsp' j]

/-- A read of equal words, in memories of equal depth. -/
theorem lockstep_memRead (hp : q.params = p.params) {sp : Space} {i : Nat}
    (hw : q.peek sp i = p.peek sp i) : Lockstep Eq Eq (memRead sp i p) (memRead sp i q) := by
  unfold memRead
  rw [hp, hw]
  exact lockstep_rfl _

theorem ViewsDiffer.memWrite (h : ViewsDiffer p q) (sp : Space) (i : Nat) (v : Word) :
    Lockstep ViewsDiffer Eq (memWrite sp i v p) (memWrite sp i v q) := by
  unfold Machine.memWrite
  rw [h.params_eq]
  split
  · exact lockstep_next (h.poke sp i v)
  · rfl

theorem ViewsDiffer.draw (h : ViewsDiffer p q) (r : Option Word) :
    (fpResult r q).1 = (fpResult r p).1 ∧ ViewsDiffer (fpResult r p).2 (fpResult r q).2 := by
  cases r with
  | none =>
    refine ⟨?_, h.x_eq, h.c_eq, h.params_eq, congrArg (· + 1) h.draws_eq, h.peek_eq⟩
    simp only [fpResult, h.draws_eq]
  | some w => exact ⟨rfl, h⟩

theorem coupling_viewsDiffer : Coupling Eq (fun sp => ¬ IsView sp) ViewsDiffer where
  c_eq h := h.c_eq
  params_eq h := h.params_eq
  read hsp h i := lockstep_memRead h.params_eq (h.peek_eq _ hsp i)
  write _ _ h i v := h.memWrite _ i v
  draw h r := h.draw r

/-- As `ViewsDiffer`, with the taps read from a working array. -/
def ViewsUnread (p q : State) : Prop :=
  ViewsDiffer p q ∧ p.c.tapSrc = .cur ∧ p.c.kind ≠ .sparse

theorem ViewsUnread.memWrite (h : ViewsUnread p q) (sp : Space) (i : Nat) (v : Word) :
    Lockstep ViewsUnread Eq (Machine.memWrite sp i v p) (Machine.memWrite sp i v q) :=
  (h.1.memWrite sp i v).mono fun a _ ha hab => by
    obtain ⟨_, rfl⟩ := memWrite_eq_next.1 ha
    exact ⟨hab, h.2⟩

theorem coupling_viewsUnread : Coupling Eq (fun sp => ¬ IsView sp) ViewsUnread where
  c_eq h := h.1.c_eq
  params_eq h := h.1.params_eq
  read hsp h i := coupling_viewsDiffer.read hsp h.1 i
  write _ _ h i v := h.memWrite _ i v
  draw h r := ⟨(h.1.draw r).1, (h.1.draw r).2, by rw [fpResult_c]; exact h.2⟩

/-- A working array is no IR view. -/
theorem tapsInCommon_of_cur {c : StatusRegs} (hsrc : c.tapSrc = .cur) (hk : c.kind ≠ .sparse) :
    TapsInCommon (fun sp => ¬ IsView sp) c where
  dense _ := by rw [denseTaps_cur hsrc]; simp [IsView]
  sparse h := absurd h hk
  velvet _ σ := by
    simp only [StatusRegs.velvetTaps, hsrc]
    exact not_isView_workSpace σ

theorem kernelCoupling_viewsUnread (n : Nat) :
    KernelCoupling Eq (fun sp => ¬ IsView sp) 0 n fun _ _ => ViewsUnread where
  base _ _ := coupling_viewsUnread
  acc := by simp [IsView]
  taps h := tapsInCommon_of_cur h.2.1 h.2.2
  sample _ h _ := by
    rw [Nat.zero_add]
    exact coupling_viewsUnread.read (by simp [IsView]) h _
  emit h v := by
    rw [Nat.zero_add]
    exact h.memWrite _ _ v
  advance {f p q} h := by
    obtain ⟨hd, hcur⟩ := h
    refine ⟨⟨hd.x_eq, ?_, hd.params_eq, hd.draws_eq, hd.peek_eq⟩, hcur⟩
    rw [advance_c, advance_c, hd.c_eq]

/-- With the working array as tap source every command runs in lockstep on machines that differ in the IR
views. -/
theorem exec_viewsDiffer {i : Instr} (h : ViewsDiffer p q) (hsrc : p.c.tapSrc = .cur)
    (hk : p.c.kind ≠ .sparse) : Lockstep ViewsDiffer Eq (exec i p) (exec i q) := by
  have hset : KeptBySetC ViewsDiffer := fun _ _ c h => h.setC c
  have hC := coupling_viewsDiffer
  have hno : ∀ {P : Prop}, p.c.tapSrc = .ir → P := fun hir => by simp [hsrc] at hir
  by_cases hi : i = .init
  · subst hi
    have hchecks : ∀ k, initChecks q k = initChecks p k := fun k => by
      simp only [initChecks, h.x_eq, h.params_eq]
    refine hC.exec_init hset h (by rw [h.x_eq]) fun k _ => ⟨hchecks k, ?_⟩
    refine hC.initEffects hset h (by rw [h.x_eq]) fun u v huv => ?_
    simp only [initRegs, huv.x_eq, huv.c_eq, huv.params_eq]
  by_cases hst : p.c.st = .ready
  case neg => exact hC.exec_not_ready hset h hi hst
  cases i with
  | init => exact absurd rfl hi
  | process =>
    exact ((kernelCoupling_viewsUnread _).exec_process ⟨h, hsrc, hk⟩ (by rw [h.x_eq]) hst).mono
      fun _ _ _ hend => hend.1
  | startMorph =>
    refine hC.exec_startMorph hset h hst (fun _ => ?_) fun _ => ?_
    · exact ⟨by simp only [denseStartChecks, h.x_eq, h.c_eq],
        hC.denseStart hset (fun _ => id) (fun _ _ huv => by rw [huv.x_eq]) h hno⟩
    · exact ⟨by simp only [velvetStartChecks, h.x_eq, h.c_eq, h.params_eq],
        hC.velvetStart hset (fun _ => id) (fun _ _ _ huv => by rw [huv.x_eq]) h hno⟩
  | updateMorph => exact hC.exec_updateMorph hset (fun _ => id) h hst
  | isMorphing => exact hC.exec_isMorphing hset h hst

/-- Settles O19: the two machines run every command in lockstep. -/
theorem viewsUnreadOnceMorphed : Obligations.ViewsUnreadOnceMorphed := by
  intro i s u t hsrc hk hx hc hparams hdraws hpeek ht
  have h : ViewsDiffer s u := ⟨hx, hc, hparams, hdraws, hpeek⟩
  obtain ⟨v, hv, hend⟩ := (exec_viewsDiffer h hsrc hk).next ht
  exact ⟨v, hv, hend.c_eq, hend.draws_eq, hend.peek_eq⟩

end Sys2Proof.Machine

end UnreadViews

/-! ## PROCESS (41_kernel_process.md R140 to R158)

Completion and frame, the silent engine, and one block against two. -/

section ProcessFrame

/-! ### Completion and frame (R140, R147, R149, R150, R160) -/

namespace Sys2Proof.Machine

open Sys2Proof.Claims

variable {s t u : State} {f n : Nat}

/-- With its words loaded `PROCESS` meets no refusal (R90, R181). -/
theorem ReadyInv.kernelReady_of_loaded (h : ReadyInv s) (htaps : TapsLoaded s)
    (hblock : BlockLoaded s) : KernelReady (fun _ => False) s where
  bufLen_pos := h.bufLen_pos
  layout_eq := h.layout_eq
  slots _ hi := h.acc_written.readable hi (decide_eq_true (hi.trans_le h.bufLen_fits))
  samples _ hi := hblock.readable hi rfl
  dense_taps hk t ht := by
    simp only [TapsLoaded, hk] at htaps
    exact htaps.readable ht
      (h.denseTaps_readable (R := fun _ => True) (fun _ _ _ _ => trivial) hk ht).1
  sparse_taps hk t ht := by
    simp only [TapsLoaded, hk] at htaps
    have hword := decide_eq_true (ht.trans_le h.na_fits)
    exact ⟨htaps.1.readable ht hword, htaps.2.readable ht hword⟩
  velvet_taps hk σ t ht := by
    simp only [TapsLoaded, hk] at htaps
    exact (htaps σ).readable ht
      (h.velvetTaps_readable (R := fun _ => True) (fun _ _ _ _ => trivial) σ ht).1

theorem ReadyInv.processFrames_completes (h : ReadyInv s) (htaps : TapsLoaded s)
    (hblock : BlockLoaded s) : ∃ t, Machine.processFrames s.x.block.toNat s = .next t := by
  obtain ⟨t, ht, _⟩ := (h.kernelReady_of_loaded htaps hblock).processFrames_answers.completes
  exact ⟨t, ht⟩

/-- Whatever holds before the first channel and is kept by each channel's operation holds after the
fan-out (R130, R133). -/
theorem fanout_forN_induct {P : Nat → State → Prop} {op : Nat → State → Res State}
    (hlay : s.c.layout = layoutOf s.c.channels) (h0 : P 0 s)
    (hop : ∀ ch u v, ch < s.c.channels.toNat → P ch u → op ch u = .next v → P (ch + 1) v)
    (h : fanout op s = .next t) : P s.c.channels.toNat t := by
  rw [fanout_eq_forN op hlay] at h
  exact forN_induct h0 hop h

/-- The words that the emit of the first `n` channels of frame `f` writes (R146). -/
def EmitWords (c : StatusRegs) (f n : Nat) (sp : Space) (i : Nat) : Prop :=
  ∃ ch < n, (sp = .acc ∧ i = c.emitSlot ch) ∨ (sp = .out ∧ i = c.sampleIndex f ch)

/-- The emit of one channel writes its slot and its word of `OUT` (R146). -/
theorem emitOp_leaves {ch : Nat} (h : emitOp f ch s = .next t) :
    Leaves (fun sp i => (sp = .acc ∧ i = s.c.emitSlot ch) ∨
      (sp = .out ∧ i = s.c.sampleIndex f ch)) s t := by
  obtain ⟨w, _, h⟩ := andThen_eq_next.1 h
  obtain ⟨u, hu, h⟩ := andThen_eq_next.1 h
  exact (leaves_memWrite hu (.inr ⟨rfl, rfl⟩)).trans (leaves_memWrite h (.inl ⟨rfl, rfl⟩))

/-- The emit phase writes exactly the words of its channels, and leaves those of `OUT` written (R146). -/
theorem emitAndClear_words (hlay : s.c.layout = layoutOf s.c.channels)
    (h : emitAndClear f s = .next t) :
    Leaves (EmitWords s.c f s.c.channels.toNat) s t ∧
      ∀ ch < s.c.channels.toNat, (t.peek .out (s.c.sampleIndex f ch)).isSome = true := by
  refine fanout_forN_induct (P := fun k u => Leaves (EmitWords s.c f s.c.channels.toNat) s u ∧
    ∀ ch < k, (u.peek .out (s.c.sampleIndex f ch)).isSome = true) hlay
    ⟨Leaves.refl _ s, fun _ hch => absurd hch (Nat.not_lt_zero _)⟩ (fun k u v hk hu hv => ?_) h
  obtain ⟨hl, hout⟩ := hu
  have hstep := emitOp_leaves hv
  rw [hl.c_eq] at hstep
  refine ⟨hl.trans (hstep.mono fun sp i hw => ⟨k, hk, hw⟩), fun ch hch => ?_⟩
  rcases Nat.lt_succ_iff_lt_or_eq.1 hch with hlt | rfl
  · exact hstep.written _ _ (hout ch hlt)
  · obtain ⟨w, _, _, rfl⟩ := emitOp_next hv
    rw [hl.c_eq]
    exact isSome_peek_poke (by rw [peek_poke_same]; rfl)

/-- The words that `n` frames of `PROCESS` may write (R140, R142, R146). -/
def BlockWords (c : StatusRegs) (n : Nat) (sp : Space) (i : Nat) : Prop :=
  (sp = .acc ∧ i < c.bufLen.toNat) ∨ (sp = .out ∧ i < n * c.channels.toNat)

theorem sampleIndex_lt {c : StatusRegs} {ch : Nat} (hf : f < n) (hch : ch < c.channels.toNat) :
    c.sampleIndex f ch < n * c.channels.toNat :=
  calc f * c.channels.toNat + ch < (f + 1) * c.channels.toNat := by rw [Nat.succ_mul]; omega
    _ ≤ n * c.channels.toNat := Nat.mul_le_mul_right _ hf

/-- An index below `f + 1` frames is one below `f` frames or one of frame `f`. -/
theorem lt_or_eq_sampleIndex {c : StatusRegs} {i : Nat} (h : i < (f + 1) * c.channels.toNat) :
    i < f * c.channels.toNat ∨ ∃ ch < c.channels.toNat, i = c.sampleIndex f ch := by
  rw [Nat.succ_mul] at h
  by_cases hlt : i < f * c.channels.toNat
  · exact .inl hlt
  · exact .inr ⟨i - f * c.channels.toNat, by omega, by unfold StatusRegs.sampleIndex; omega⟩

/-- One sample step writes words of its frame and leaves the frame's words of `OUT` written (R141). -/
theorem sampleStep_words (hpos : 0 < s.c.bufLen.toNat) (hlay : s.c.layout = layoutOf s.c.channels)
    (hf : f < n) (h : sampleStep f s = .next t) :
    LeavesButRegs (BlockWords s.c n) s t ∧
      ∀ ch < s.c.channels.toNat, (t.peek .out (s.c.sampleIndex f ch)).isSome = true := by
  obtain ⟨u, v, hu, hv, rfl⟩ := sampleStep_next h
  have hacc : Leaves (BlockWords s.c n) s u :=
    accumulate_leaves (fun _ _ => .inl ⟨rfl, wrap_lt hpos _⟩) hu
  obtain ⟨hemit, hout⟩ := emitAndClear_words (by rw [hacc.c_eq]; exact hlay) hv
  rw [hacc.c_eq] at hemit hout
  have hemit' : Leaves (BlockWords s.c n) u v := hemit.mono fun sp i hw => by
    obtain ⟨ch, hch, ⟨rfl, rfl⟩ | ⟨rfl, rfl⟩⟩ := hw
    · exact .inl ⟨rfl, wrap_lt hpos _⟩
    · exact .inr ⟨rfl, sampleIndex_lt hf hch⟩
  have hboth := hacc.trans hemit'
  exact ⟨{ hboth with c_eq := rfl }, hout⟩

/-- `n` sample steps write accumulator words in use and leave the first `n * C` words of `OUT` written
(R140, R160). -/
theorem ReadyInv.processFrames_words (h : ReadyInv s) (ht : Machine.processFrames n s = .next t) :
    LeavesButRegs (BlockWords s.c n) s t ∧ Written t .out (n * s.c.channels.toNat) := by
  refine (forN_induct (P := fun k u => u.c = s.c.advanced k ∧
    LeavesButRegs (BlockWords s.c n) s u ∧ Written u .out (k * s.c.channels.toNat))
    ⟨h.headOk.advanced_zero.symm, Leaves.refl _ s, fun i hi => by simp at hi⟩
    (fun k u v hk hu hv => ?_) ht).2
  obtain ⟨hc, hl, hw⟩ := hu
  obtain ⟨hlv, hout⟩ := sampleStep_words (n := n) (by rw [hc]; exact h.bufLen_pos)
    (by rw [hc]; exact h.layout_eq) hk hv
  rw [hc] at hlv hout
  refine ⟨?_, hl.trans hlv, fun i hi => ?_⟩
  · rw [(sampleStep_leaves (W := fun _ _ => True) (by simp) (by simp) hv).2]
    exact h.headOk.advance_c hc
  · rcases lt_or_eq_sampleIndex hi with hlt | ⟨ch, hch, rfl⟩
    · exact hlv.written _ _ (hw i hlt)
    · exact hout ch hch

/-- Settles O31: completion because every word that the kernel reads is loaded, the write head by
`processFrames_c`, the words by the frame of the sample steps. -/
theorem processCompletesWithFrame : Obligations.ProcessCompletesWithFrame := by
  intro s hinv hst htaps hblock
  have h := hinv.ready hst
  obtain ⟨t, ht⟩ := h.processFrames_completes htaps hblock
  obtain ⟨hl, hout⟩ := h.processFrames_words ht
  exact ⟨t, (exec_process_ready hst).trans ht, h.headOk.processFrames_c ht, hout, hl.peek_eq,
    hl.outside⟩

/-- Settles O32: the loop of no rounds. -/
theorem zeroBlockIsNoOp : Obligations.ZeroBlockIsNoOp := by
  intro s hst hblock
  rw [exec_process_ready hst, hblock]
  rfl

end Sys2Proof.Machine

end ProcessFrame

section SilentEngine

/-! ### The engine with no live tap (R149, R158) -/

namespace Sys2Proof.Machine

open Sys2Proof.Claims

variable {s u : State} {f : Nat}

/-- There is no tap that `PROCESS` would apply (R149). -/
def NoLiveTap (c : StatusRegs) : Prop :=
  (c.kind = .velvet → c.liveCount .pos = 0 ∧ c.liveCount .neg = 0) ∧ (c.kind ≠ .velvet → c.na = 0)

/-- With no live tap the accumulate phase does nothing, and so reads no sample (R149). -/
theorem accumulate_of_noLiveTap (h : NoLiveTap s.c) : accumulate f s = .next s := by
  unfold accumulate
  cases hk : s.c.kind with
  | dense => rw [h.2 (by simp [hk])]; rfl
  | sparse => rw [h.2 (by simp [hk])]; rfl
  | velvet =>
    obtain ⟨hpos, hneg⟩ := h.1 hk
    simp only [hpos]
    change forN (s.c.liveCount .neg).toNat _ s = _
    rw [hneg]
    rfl

/-- `u` has a cleared accumulator, and `n` words of `OUT` are `+0.0`; nothing was drawn since `s`. -/
structure Silent (s : State) (n : Nat) (u : State) : Prop where
  params_eq : u.params = s.params
  draws_eq : u.draws = s.draws
  acc_zero : ∀ i < s.c.bufLen.toNat, u.peek .acc i = some zeroWord
  out_zero : ∀ i < n, u.peek .out i = some zeroWord

/-- A silent engine emits one more `+0.0` (R146, R158). -/
theorem Silent.emitOp (hfits : s.c.bufLen.toNat ≤ s.params.accDepth) {ch : Nat}
    (h : Silent s (u.c.sampleIndex f ch) u) (hslot : u.c.emitSlot ch < s.c.bufLen.toNat) :
    ∃ v, Machine.emitOp f ch u = .next v ∧ Silent s (u.c.sampleIndex f ch + 1) v ∧ v.c = u.c := by
  have hword : u.params.hasWord .acc (u.c.emitSlot ch) = true := by
    rw [h.params_eq]
    exact decide_eq_true (hslot.trans_le hfits)
  refine ⟨(u.poke .out (u.c.sampleIndex f ch) zeroWord).poke .acc (u.c.emitSlot ch) zeroWord,
    ?_, ⟨h.params_eq, h.draws_eq, fun i hi => ?_, fun i hi => ?_⟩, rfl⟩
  · exact andThen_eq_next.2 ⟨_, memRead_eq_next.2 ⟨hword, h.acc_zero _ hslot⟩,
      andThen_eq_next.2 ⟨_, memWrite_eq_next.2 ⟨rfl, rfl⟩, memWrite_eq_next.2 ⟨hword, rfl⟩⟩⟩
  · simp [peek_poke, h.acc_zero i hi]
  · rw [peek_poke, peek_poke]
    rcases Nat.lt_succ_iff_lt_or_eq.1 hi with hlt | rfl
    · simp [h.out_zero i hlt]
    · simp

/-- One silent sample step (R141, R158). -/
theorem Silent.sampleStep (hs : ReadyInv s) (hno : NoLiveTap s.c) (hc : u.c = s.c.advanced f)
    (h : Silent s (f * s.c.channels.toNat) u) :
    ∃ v, Machine.sampleStep f u = .next v ∧ v.c = s.c.advanced (f + 1) ∧
      Silent s ((f + 1) * s.c.channels.toNat) v := by
  have hemit : Answers (emitAndClear f u)
      (fun v => Silent s ((f + 1) * s.c.channels.toNat) v ∧ v.c = u.c) fun _ => False := by
    have hlay : u.c.layout = layoutOf u.c.channels := by rw [hc]; exact hs.layout_eq
    rw [emitAndClear, fanout_eq_forN _ hlay, hc, Nat.succ_mul]
    refine forN_answers (P := fun ch v => Silent s (f * s.c.channels.toNat + ch) v ∧
      v.c = s.c.advanced f) ⟨h, hc⟩ fun ch v _ hv => ?_
    obtain ⟨hv, hcv⟩ := hv
    have hslot : v.c.emitSlot ch < s.c.bufLen.toNat := by
      rw [hcv]
      exact wrap_lt (c := s.c.advanced f) hs.bufLen_pos _
    have hindex : v.c.sampleIndex f ch = f * s.c.channels.toNat + ch := by rw [hcv]; rfl
    obtain ⟨w, hw, hsilent, hcw⟩ := (hindex.symm ▸ hv).emitOp (f := f) hs.bufLen_fits hslot
    rw [hindex] at hsilent
    exact answers_of_next hw ⟨hsilent, hcw.trans hcv⟩
  obtain ⟨v, hv, hsilent, hcv⟩ := hemit.completes
  refine ⟨Machine.advance v, ?_, hs.headOk.advance_c (hcv.trans hc),
    ⟨hsilent.params_eq, hsilent.draws_eq, hsilent.acc_zero, hsilent.out_zero⟩⟩
  unfold Machine.sampleStep
  rw [accumulate_of_noLiveTap (by rw [hc]; exact hno), andThen_next, hv, andThen_next]

/-- Settles O33: with no live tap each sample step only emits, and what it emits is `+0.0`. -/
theorem emptyIRIsSilent : Obligations.EmptyIRIsSilent := by
  intro s hinv hst hvelvet hother hzero
  have hs := hinv.ready hst
  have hrun : Answers (processFrames s.x.block.toNat s)
      (fun u => u.c = s.c.advanced s.x.block.toNat ∧
        Silent s (s.x.block.toNat * s.c.channels.toNat) u) fun _ => False := by
    refine forN_answers (P := fun k u => u.c = s.c.advanced k ∧
      Silent s (k * s.c.channels.toNat) u)
      ⟨hs.headOk.advanced_zero.symm, ⟨rfl, rfl, hzero, by simp⟩⟩ fun k u _ hu => ?_
    obtain ⟨v, hv, hend⟩ := hu.2.sampleStep hs ⟨hvelvet, hother⟩ hu.1
    exact answers_of_next hv hend
  obtain ⟨t, ht, _, hsilent⟩ := hrun.completes
  exact ⟨t, (exec_process_ready hst).trans ht, hsilent.out_zero, hsilent.acc_zero,
    hsilent.draws_eq⟩

end Sys2Proof.Machine

end SilentEngine

section BlockSplit

/-! ### One block against two (R156)

The second command runs in lockstep with the last frames of the one block: its `IN` and `OUT` begin where
those frames do. -/

namespace Sys2Proof.Machine

open Sys2Proof.Claims

/-- The second machine's `IN` and `OUT` begin `a` frames later: `b` frames of `IN` are at the front, and the
first `n` words of its `OUT` are where the first machine has them. Nothing else differs in the block. -/
structure BlockShifted (channels : Word) (a b n : Nat) (p q : State) : Prop where
  c_eq : q.c = p.c
  params_eq : q.params = p.params
  draws_eq : q.draws = p.draws
  channels_eq : p.c.channels = channels
  layout_eq : p.c.layout = layoutOf channels
  peek_eq : ∀ sp, sp ≠ .inp → sp ≠ .out → ∀ j, q.peek sp j = p.peek sp j
  inp_eq : ∀ k < b * channels.toNat, q.peek .inp k = p.peek .inp (a * channels.toNat + k)
  out_eq : ∀ k < n, q.peek .out k = p.peek .out (a * channels.toNat + k)

variable {channels : Word} {a b n : Nat} {p q : State}

theorem BlockShifted.fanWidth_eq (h : BlockShifted channels a b n p q) :
    p.c.fanWidth = channels.toNat := by
  rw [fanWidth_eq_channels (by rw [h.layout_eq, h.channels_eq]), h.channels_eq]

/-- The same write outside `IN` and `OUT`. -/
theorem BlockShifted.poke (h : BlockShifted channels a b n p q) {sp : Space} (hin : sp ≠ .inp)
    (hout : sp ≠ .out) (i : Nat) (v : Word) :
    BlockShifted channels a b n (p.poke sp i v) (q.poke sp i v) := by
  refine { h with peek_eq := fun sp' h1 h2 j => ?_, inp_eq := fun k hk => ?_, out_eq := fun k hk => ?_ }
  · rw [peek_poke, peek_poke, h.peek_eq sp' h1 h2 j]
  · rw [peek_poke_ne _ _ (.inl hin.symm), peek_poke_ne _ _ (.inl hin.symm), h.inp_eq k hk]
  · rw [peek_poke_ne _ _ (.inl hout.symm), peek_poke_ne _ _ (.inl hout.symm), h.out_eq k hk]

/-- The next word of `OUT`, on either machine in its place. -/
theorem BlockShifted.emit (h : BlockShifted channels a b n p q) (v : Word) :
    BlockShifted channels a b (n + 1) (p.poke .out (a * channels.toNat + n) v) (q.poke .out n v) := by
  refine { h with peek_eq := fun sp h1 h2 j => ?_, inp_eq := fun k hk => ?_, out_eq := fun k hk => ?_ }
  · rw [peek_poke_ne _ _ (.inl h2), peek_poke_ne _ _ (.inl h2), h.peek_eq sp h1 h2 j]
  · rw [peek_poke_ne _ _ (.inl (by decide)), peek_poke_ne _ _ (.inl (by decide)), h.inp_eq k hk]
  · rcases Nat.lt_succ_iff_lt_or_eq.1 hk with hlt | rfl
    · rw [peek_poke_ne _ _ (.inr (by omega)), peek_poke_ne _ _ (.inr (by omega)), h.out_eq k hlt]
    · rw [peek_poke_same, peek_poke_same]

theorem BlockShifted.draw (h : BlockShifted channels a b n p q) (r : Option Word) :
    (fpResult r q).1 = (fpResult r p).1 ∧
      BlockShifted channels a b n (fpResult r p).2 (fpResult r q).2 := by
  cases r with
  | some w => exact ⟨rfl, h⟩
  | none =>
    have hbits : Config.nanBits q.draws = Config.nanBits p.draws := by rw [h.draws_eq]
    exact ⟨congrArg nanOf hbits, { h with draws_eq := congrArg (· + 1) h.draws_eq }⟩

theorem BlockShifted.advance {f : Nat} (h : BlockShifted channels a b n p q)
    (hn : n = f * channels.toNat + p.c.fanWidth) :
    BlockShifted channels a b ((f + 1) * channels.toNat + 0) (Machine.advance p)
      (Machine.advance q) := by
  have hend : (f + 1) * channels.toNat + 0 = n := by
    rw [hn, h.fanWidth_eq, Nat.succ_mul, Nat.add_zero]
  rw [hend]
  exact { h with c_eq := by rw [advance_c, advance_c, h.c_eq] }

theorem coupling_blockShifted :
    Coupling (fun _ _ => True) (fun sp => sp ≠ .inp ∧ sp ≠ .out) (BlockShifted channels a b n) where
  c_eq h := h.c_eq
  params_eq h := h.params_eq
  read hsp h i := by
    unfold memRead
    rw [h.params_eq, h.peek_eq _ hsp.1 hsp.2]
    split
    · split
      · rfl
      · trivial
    · rfl
  write {p q sp} hsp hout h i v := by
    have hin : sp ≠ .inp := by
      rintro rfl
      exact absurd hsp (by decide)
    unfold memWrite
    rw [h.params_eq]
    split
    · exact lockstep_next (h.poke hin hout i v)
    · rfl
  draw h r := h.draw r

/-- The words of `IN` and `OUT` always exist (R70). -/
theorem memRead_inp (s : State) (i : Nat) :
    memRead .inp i s = match s.peek .inp i with
      | some w => .next w
      | none => .refused (.unwrittenWord .inp i) := rfl

/-- The last `b` frames of a block run in lockstep with a block of `b` frames (R156). -/
theorem kernelCoupling_blockShifted :
    KernelCoupling (fun _ _ => True) (fun sp => sp ≠ .inp ∧ sp ≠ .out) a b
      fun f ch => BlockShifted channels a b (f * channels.toNat + ch) where
  base _ _ := coupling_blockShifted
  acc := by decide
  taps {f ch p q} _ :=
    { dense := fun _ => by cases h : p.c.tapSrc <;> simp [StatusRegs.denseTaps, h]
      sparse := fun _ => by decide
      velvet := fun _ σ => by
        cases h : p.c.tapSrc <;> cases σ <;>
          simp [StatusRegs.velvetTaps, h, viewSpace, workSpace] }
  sample {f g ch p q} hf h hch := by
    rw [h.fanWidth_eq] at hch
    have hindex : p.c.sampleIndex (a + f) ch = a * channels.toNat + p.c.sampleIndex f ch := by
      unfold StatusRegs.sampleIndex
      rw [h.channels_eq]
      ring
    have hlt : p.c.sampleIndex f ch < b * channels.toNat := by
      have := sampleIndex_lt (c := p.c) hf (by rwa [h.channels_eq])
      rwa [h.channels_eq] at this
    rw [memRead_inp, memRead_inp, h.inp_eq _ hlt, hindex]
    cases p.peek .inp (a * channels.toNat + p.c.sampleIndex f ch) with
    | some w => rfl
    | none => trivial
  emit {f ch p q} h v := by
    have hindex : p.c.sampleIndex f ch = f * channels.toNat + ch := by
      rw [StatusRegs.sampleIndex, h.channels_eq]
    have hahead : p.c.sampleIndex (a + f) ch = a * channels.toNat + (f * channels.toNat + ch) := by
      rw [StatusRegs.sampleIndex, h.channels_eq]
      ring
    rw [hindex, hahead]
    exact lockstep_next (h.emit v)
  advance {f p q} h := h.advance rfl

/-- Frames from the `a`-th on write no word of `OUT` before it (R146). -/
theorem laterFrames_leave_out {s t : State}
    (h : forN n (fun i => sampleStep (a + i)) s = .next t) {k : Nat}
    (hk : k < a * s.c.channels.toNat) : t.peek .out k = s.peek .out k := by
  refine (forN_induct (P := fun _ u => u.c.channels = s.c.channels ∧
    u.peek .out k = s.peek .out k) ⟨rfl, rfl⟩ (fun i u v _ hu hv => ?_) h).2
  obtain ⟨hc, hout⟩ := hu
  have hindex : ∀ ch, a * s.c.channels.toNat ≤ u.c.sampleIndex (a + i) ch := fun ch => by
    rw [StatusRegs.sampleIndex, hc]
    exact (Nat.mul_le_mul_right _ (Nat.le_add_right a i)).trans (Nat.le_add_right _ _)
  obtain ⟨hl, hcv⟩ := sampleStep_leaves (W := fun sp j => sp = .out → a * s.c.channels.toNat ≤ j)
    (fun _ _ hsp => absurd hsp (by decide)) (fun ch _ => hindex ch) hv
  refine ⟨?_, (hl.peek_eq _ _ fun hw => absurd (hw rfl) (not_le.2 hk)).trans hout⟩
  rw [hcv]
  exact hc

/-- `PROCESS` reads its block size once: on another file of operands the same frames give the same state. -/
theorem processFrames_setX {s t : State} {x : OperandRegs} (h : processFrames n s = .next t) :
    processFrames n { s with x := x } = .next { t with x := x } := by
  have hrun := (kernelCoupling_operandsSwapped (x := s.x) (x' := x) n).processFrames
    (p := s) (q := { s with x := x }) ⟨rfl, rfl⟩
  simp only [Nat.zero_add] at hrun
  obtain ⟨u, hu, _, rfl⟩ := hrun.next h
  exact hu

/-- Settles O36: the frames of the block split after the `a`-th; the first part is the first command, and the
second command runs in lockstep with the second part. -/
theorem blockSizeInvariance : Obligations.BlockSizeInvariance := by
  intro s t a b hinv hst hab ht
  have hs := hinv.ready hst
  rw [exec_process_ready hst, hab, processFrames, forN_add] at ht
  obtain ⟨p, hp, ht⟩ := andThen_eq_next.1 ht
  have hpc : p.c = s.c.advanced a.toNat := hs.headOk.processFrames_c hp
  have hch : p.c.channels = s.c.channels := by rw [hpc]; rfl
  refine ⟨{ p with x := { s.x with block := a } }, ?_, fun k hk => ?_, ?_⟩
  · exact (exec_process_ready (s := { s with x := { s.x with block := a } }) hst).trans
      (processFrames_setX hp)
  · exact (laterFrames_leave_out ht (by rwa [hch])).symm
  intro u huc hup hud hub hupeek huinp
  have hshift : BlockShifted s.c.channels a.toNat b.toNat (0 * s.c.channels.toNat + 0) p u :=
    { c_eq := huc
      params_eq := hup
      draws_eq := hud
      channels_eq := hch
      layout_eq := by rw [hpc]; exact hs.layout_eq
      peek_eq := fun sp hsp _ => hupeek sp hsp
      inp_eq := fun k hk => by
        rw [huinp k hk]
        exact ((processFrames_leaves hp).peek_eq _ _ (by simp [EngineWords, Space.hostOwned])).symm
      out_eq := fun k hk => by simp at hk }
  obtain ⟨t2, ht2, hend⟩ := (kernelCoupling_blockShifted.processFrames hshift).next ht
  have hust : u.c.st = .ready := by rw [huc, show p.c.st = s.c.st by rw [hpc]; rfl, hst]
  refine ⟨t2, ?_, hend.c_eq, hend.draws_eq, hend.peek_eq, hend.out_eq⟩
  rw [exec_process_ready hust, hub]
  exact ht2

end Sys2Proof.Machine

end BlockSplit

/-! ## The FIR law (41_kernel_process.md R151, R153, R155)

The accumulator is a window: seen from the write head of frame `f`, the slot of key `m * C + ch` holds what is
pending for channel `ch` of frame `m`. Under the no-alias condition a tap of delay `d` meets the keys of frame
`f + d` and no other. -/

section TapList

/-! ### The accumulate phase as a walk over the live taps (R143 to R145, R148) -/

namespace Sys2Proof.Machine

open Sys2Proof.Claims

/-- The taps of a list applied to frame `f`, each on every channel (R142, R148). -/
def runTaps (f : Nat) : List Tap → State → Res State
  | [], s => .next s
  | tap :: rest, s => andThen (fanout (accOp f tap.delay tap.rule) s) (runTaps f rest)

/-- The words of the accumulator. -/
def AccWords : Space → Nat → Prop := fun sp _ => sp = .acc

variable {f : Nat} {s u t : State}

theorem runTaps_append (l l' : List Tap) (s : State) :
    runTaps f (l ++ l') s = andThen (runTaps f l s) (runTaps f l') := by
  induction l generalizing s with
  | nil => rfl
  | cons tap rest ih =>
    simp only [List.cons_append, runTaps, andThen_assoc]
    exact congrArg _ (funext ih)

theorem runTaps_leaves {l : List Tap} (h : runTaps f l s = .next t) : Leaves AccWords s t := by
  induction l generalizing s with
  | nil =>
    cases h
    exact Leaves.refl _ _
  | cons tap rest ih =>
    obtain ⟨u, hu, h⟩ := andThen_eq_next.1 h
    exact (leaves_tap (fun _ _ => rfl) hu).trans (ih h)

/-- A loop whose rounds apply the taps of a list is the walk over the list. The taps are read while only the
accumulator has changed since `s`. -/
theorem runTaps_of_forN {n : Nat} {body : Nat → State → Res State} {tapAt : Nat → Tap}
    (hbody : ∀ i v w, Leaves AccWords s v → body i v = .next w →
      fanout (accOp f (tapAt i).delay (tapAt i).rule) v = .next w)
    (hu : Leaves AccWords s u) (h : forN n body u = .next t) :
    runTaps f ((List.range n).map tapAt) u = .next t := by
  induction n generalizing t with
  | zero => exact h
  | succ n ih =>
    obtain ⟨v, hv, hw⟩ := andThen_eq_next.1 h
    have hrun := ih hv
    rw [List.range_succ, List.map_append, runTaps_append, hrun, andThen_next]
    exact andThen_eq_next.2 ⟨t, hbody n v t (hu.trans (runTaps_leaves hrun)) hw, rfl⟩

/-- A word outside the accumulator, read during the accumulate phase. -/
theorem getD_of_memRead {v : State} {sp : Space} {i : Nat} {w : Word} (hl : Leaves AccWords s v)
    (hsp : sp ≠ .acc) (h : memRead sp i v = .next w) : (s.peek sp i).getD 0 = w := by
  rw [← hl.peek_eq sp i hsp, (memRead_eq_next.1 h).2]
  rfl

theorem denseTaps_ne_acc (c : StatusRegs) : c.denseTaps ≠ .acc := by
  unfold StatusRegs.denseTaps
  cases c.tapSrc <;> decide

theorem velvetTaps_ne_acc (c : StatusRegs) (σ : Polarity) : c.velvetTaps σ ≠ .acc := by
  unfold StatusRegs.velvetTaps
  cases c.tapSrc <;> cases σ <;> decide

theorem denseTap_fanout {i : Nat} {v w : State} (hl : Leaves AccWords s v)
    (h : denseTap f i v = .next w) :
    fanout (accOp f i (.scaled ((s.peek s.c.denseTaps i).getD 0))) v = .next w := by
  obtain ⟨x, hx, h⟩ := andThen_eq_next.1 h
  rw [hl.c_eq] at hx
  rwa [getD_of_memRead hl (denseTaps_ne_acc _) hx]

theorem sparseTap_fanout {i : Nat} {v w : State} (hl : Leaves AccWords s v)
    (h : sparseTap f i v = .next w) :
    fanout (accOp f ((s.peek .spos i).getD 0).toNat (.scaled ((s.peek .sval i).getD 0))) v =
      .next w := by
  obtain ⟨d, hd, h⟩ := andThen_eq_next.1 h
  obtain ⟨x, hx, h⟩ := andThen_eq_next.1 h
  rwa [getD_of_memRead hl (by decide) hd, getD_of_memRead hl (by decide) hx]

theorem velvetTap_fanout {σ : Polarity} {i : Nat} {v w : State} (hl : Leaves AccWords s v)
    (h : velvetTap σ f i v = .next w) :
    fanout (accOp f ((s.peek (s.c.velvetTaps σ) i).getD 0).toNat σ.contribution) v = .next w := by
  obtain ⟨d, hd, h⟩ := andThen_eq_next.1 h
  rw [hl.c_eq] at hd
  rwa [getD_of_memRead hl (velvetTaps_ne_acc _ σ) hd]

/-- The accumulate phase applies the live taps in the order of R148. -/
theorem runTaps_of_accumulate (h : accumulate f s = .next t) :
    runTaps f (liveTaps s) s = .next t := by
  have hrefl : Leaves AccWords s s := Leaves.refl _ s
  unfold accumulate at h
  unfold liveTaps
  cases hk : s.c.kind with
  | dense =>
    simp only [hk] at h
    exact runTaps_of_forN (fun _ _ _ => denseTap_fanout) hrefl h
  | sparse =>
    simp only [hk] at h
    exact runTaps_of_forN (fun _ _ _ => sparseTap_fanout) hrefl h
  | velvet =>
    simp only [hk] at h
    obtain ⟨u, hu, h⟩ := andThen_eq_next.1 h
    have hpos := runTaps_of_forN (f := f) (tapAt := fun i =>
      { delay := ((s.peek (s.c.velvetTaps .pos) i).getD 0).toNat, rule := .added })
      (fun _ _ _ => velvetTap_fanout (σ := .pos)) hrefl hu
    have hl := runTaps_leaves hpos
    rw [hl.c_eq] at h
    have hneg := runTaps_of_forN (f := f) (tapAt := fun i =>
      { delay := ((s.peek (s.c.velvetTaps .neg) i).getD 0).toNat, rule := .subtracted })
      (fun _ _ _ => velvetTap_fanout (σ := .neg)) hl h
    rw [runTaps_append]
    exact andThen_eq_next.2 ⟨u, hpos, hneg⟩

/-- The live taps depend on the configuration, the tap source and the words outside `ACC` and `OUT`. -/
theorem liveTaps_advanced {n : Nat} (hc : u.c = s.c.advanced n)
    (hpeek : ∀ sp, sp ≠ .acc → sp ≠ .out → ∀ i, u.peek sp i = s.peek sp i) :
    liveTaps u = liveTaps s := by
  have hdense : s.c.denseTaps ≠ .out := by
    unfold StatusRegs.denseTaps
    cases s.c.tapSrc <;> decide
  have hvelvet : ∀ σ, s.c.velvetTaps σ ≠ .out := fun σ => by
    unfold StatusRegs.velvetTaps
    cases s.c.tapSrc <;> cases σ <;> decide
  have e1 : ∀ i, u.peek s.c.denseTaps i = s.peek s.c.denseTaps i :=
    hpeek _ (denseTaps_ne_acc _) hdense
  have e2 : ∀ σ i, u.peek (s.c.velvetTaps σ) i = s.peek (s.c.velvetTaps σ) i :=
    fun σ => hpeek _ (velvetTaps_ne_acc _ σ) (hvelvet σ)
  have c1 : u.c.kind = s.c.kind := by rw [hc]; rfl
  have c2 : u.c.na = s.c.na := by rw [hc]; rfl
  have c3 : u.c.denseTaps = s.c.denseTaps := by rw [hc]; rfl
  have c4 : ∀ σ, u.c.velvetTaps σ = s.c.velvetTaps σ := fun σ => by rw [hc]; rfl
  have c5 : ∀ σ, u.c.liveCount σ = s.c.liveCount σ := fun σ => by rw [hc]; cases σ <;> rfl
  have c6 := hpeek .spos (by decide) (by decide)
  have c7 := hpeek .sval (by decide) (by decide)
  simp only [liveTaps, c1, c2, c3, c4, c5, c6, c7, e1, e2]

end Sys2Proof.Machine

end TapList

section PendingWindow

/-! ### The window ahead of the write head (R151, R152) -/

namespace Sys2Proof.Machine

open Sys2Proof.Claims

/-- The slot of channel `ch` of frame `m`, frames counted from the write head of `c` (R151). -/
def StatusRegs.cellOf (c : StatusRegs) (m ch : Nat) : Nat :=
  (c.wh.toNat + (m * c.channels.toNat + ch)) % c.bufLen.toNat

/-- Channel `ch` of frame `m` has a slot of its own when the write head is at frame `f` (R151). -/
structure InWindow (c : StatusRegs) (f m ch : Nat) : Prop where
  ch_lt : ch < c.channels.toNat
  le : f ≤ m
  lt : m * c.channels.toNat + ch < f * c.channels.toNat + c.bufLen.toNat

variable {c : StatusRegs} {f m m' ch ch' d : Nat}

/-- A slot as the kernel computes it at frame `f` is the cell of the frame that the delay names (R142). -/
theorem HeadOk.slot_advanced (h : HeadOk c) (f ch d : Nat) :
    (c.advanced f).slot ch d = c.cellOf (f + d) ch := by
  have hpolicy : (c.advanced f).policy = policyOf (c.advanced f).bufLen := h.policy_eq
  rw [StatusRegs.slot, wrap_eq_mod hpolicy, h.advanced_wh]
  change (c.headAt f + ch + d * c.channels.toNat) % c.bufLen.toNat = _
  rw [StatusRegs.headAt, StatusRegs.cellOf, Nat.add_assoc, Nat.mod_add_mod]
  congr 1
  ring

theorem HeadOk.emitSlot_advanced (h : HeadOk c) (f ch : Nat) :
    (c.advanced f).emitSlot ch = c.cellOf f ch := by
  rw [emitSlot_eq_slot, h.slot_advanced, Nat.add_zero]

/-- Two keys of one frame and channel each are equal only if frame and channel are. -/
theorem key_inj {w : Nat} (hch : ch < w) (hch' : ch' < w) (h : m * w + ch = m' * w + ch') :
    m = m' ∧ ch = ch' := by
  have hw : 0 < w := by omega
  have hdiv : ∀ a b, b < w → (a * w + b) / w = a := fun a b hb => by
    rw [Nat.mul_comm, Nat.mul_add_div hw, Nat.div_eq_of_lt hb, Nat.add_zero]
  have hm : m = m' :=
    calc m = (m * w + ch) / w := (hdiv m ch hch).symm
      _ = (m' * w + ch') / w := congrArg (· / w) h
      _ = m' := hdiv m' ch' hch'
  subst hm
  exact ⟨rfl, by omega⟩

/-- In the window no two keys share a slot (R151). -/
theorem InWindow.cellOf_inj (h : InWindow c f m ch) (h' : InWindow c f m' ch')
    (heq : c.cellOf m ch = c.cellOf m' ch') : m = m' ∧ ch = ch' := by
  have hle : f * c.channels.toNat ≤ m * c.channels.toNat := Nat.mul_le_mul_right _ h.le
  have hle' : f * c.channels.toNat ≤ m' * c.channels.toNat := Nat.mul_le_mul_right _ h'.le
  have hlt := h.lt
  have hlt' := h'.lt
  have hmod : m * c.channels.toNat + ch - f * c.channels.toNat ≡
      m' * c.channels.toNat + ch' - f * c.channels.toNat [MOD c.bufLen.toNat] := by
    refine Nat.ModEq.add_left_cancel' (c.wh.toNat + f * c.channels.toNat) ?_
    have e1 : c.wh.toNat + f * c.channels.toNat + (m * c.channels.toNat + ch - f * c.channels.toNat) =
      c.wh.toNat + (m * c.channels.toNat + ch) := by omega
    have e2 : c.wh.toNat + f * c.channels.toNat +
      (m' * c.channels.toNat + ch' - f * c.channels.toNat) =
      c.wh.toNat + (m' * c.channels.toNat + ch') := by omega
    rw [e1, e2]
    exact heq
  have hkey := Nat.ModEq.eq_of_lt_of_lt hmod (by omega) (by omega)
  exact key_inj h.ch_lt h'.ch_lt (by omega)

/-- A key one buffer length ahead has the same slot. -/
theorem cellOf_add_bufLen (h : m * c.channels.toNat + ch =
    f * c.channels.toNat + c.bufLen.toNat + ch') : c.cellOf m ch = c.cellOf f ch' := by
  rw [StatusRegs.cellOf, StatusRegs.cellOf, h]
  have e : c.wh.toNat + (f * c.channels.toNat + c.bufLen.toNat + ch') =
      c.wh.toNat + (f * c.channels.toNat + ch') + c.bufLen.toNat := by omega
  rw [e, Nat.add_mod_right]

/-- A tap without alias meets keys of the window alone (R152). -/
theorem inWindow_of_noAlias (hd : (d + 1) * c.channels.toNat ≤ c.bufLen.toNat)
    (hch : ch < c.channels.toNat) : InWindow c f (f + d) ch where
  ch_lt := hch
  le := Nat.le_add_right f d
  lt := by
    have e : (f + d) * c.channels.toNat = f * c.channels.toNat + d * c.channels.toNat := by ring
    rw [Nat.succ_mul] at hd
    omega

end Sys2Proof.Machine

end PendingWindow

section FirFold

/-! ### One frame's contributions (R142, R153) -/

namespace Sys2Proof.Machine

open Sys2Proof.Claims

variable {s u v : State} {f : Nat}

theorem contribute_isResult (k : Contribution) (x : Word) (u : State) :
    IsResult (contributionOf k x) (contribute k x u).1 := by
  cases k with
  | scaled w => exact fpResult_isResult _ _
  | added => exact rfl
  | subtracted => exact rfl

/-- One accumulate operation is one addition of the fold (R142, R153). -/
theorem fpAdd_isResult_firAdd {acc : Option Word} {a x : Word} (ha : IsResult acc a) (tap : Tap)
    (u : State) : IsResult (firAdd x acc tap)
      (fpAdd a (contribute tap.rule x u).1 (contribute tap.rule x u).2).1 := by
  have hsum : IsResult ((contributionOf tap.rule x).bind fun w => F32.add a w)
      (fpAdd a (contribute tap.rule x u).1 (contribute tap.rule x u).2).1 :=
    isResult_bind (op := fun w => F32.add a w) (contribute_isResult _ _ _)
      (F32.add_eq_none_right a) (fpResult_isResult _ _)
  refine isResult_bind (op := fun a => (contributionOf tap.rule x).bind fun w => F32.add a w) ha
    (fun hnan => ?_) hsum
  cases contributionOf tap.rule x with
  | none => rfl
  | some w => exact F32.add_eq_none_left hnan w

/-- The slots of the window at frame `f` hold the sums that `acc` names. -/
def Holds (s : State) (f : Nat) (acc : Nat → Nat → Option Word) (u : State) : Prop :=
  ∀ m ch, InWindow s.c f m ch →
    ∃ w, u.peek .acc (s.c.cellOf m ch) = some w ∧ IsResult (acc m ch) w

/-- The sums after a tap has been applied to the channels below `n`: those of its frame have one more
term. -/
def tapSums (s : State) (f : Nat) (tap : Tap) (acc : Nat → Nat → Option Word) (n m ch : Nat) :
    Option Word :=
  if m = f + tap.delay ∧ ch < n then firAdd (samplesOf s ch f) (acc m ch) tap else acc m ch

/-- One tap on one channel adds one term to one key and leaves the others (R142, R152). -/
theorem accOp_holds (hs : HeadOk s.c) (hc : u.c = s.c.advanced f)
    (hin : ∀ i, u.peek .inp i = s.peek .inp i) {tap : Tap}
    (hd : (tap.delay + 1) * s.c.channels.toNat ≤ s.c.bufLen.toNat)
    {acc : Nat → Nat → Option Word} {n : Nat} (hn : n < s.c.channels.toNat)
    (h : Holds s f (tapSums s f tap acc n) u) (hv : accOp f tap.delay tap.rule n u = .next v) :
    Holds s f (tapSums s f tap acc (n + 1)) v := by
  obtain ⟨a, x, ha, hx, _, rfl⟩ := accOp_next hv
  rw [hc, hs.slot_advanced] at ha ⊢
  have hkey : InWindow s.c f (f + tap.delay) n := inWindow_of_noAlias hd hn
  have hsample : samplesOf s n f = x := by
    have hindex : u.c.sampleIndex f n = f * s.c.channels.toNat + n := by rw [hc]; rfl
    rw [hindex, hin] at hx
    rw [samplesOf, hx]
    rfl
  intro m ch hmch
  by_cases heq : m = f + tap.delay ∧ ch = n
  · obtain ⟨rfl, rfl⟩ := heq
    obtain ⟨a', ha', hres⟩ := h _ _ hkey
    cases ha.symm.trans ha'
    refine ⟨_, peek_poke_same _ _ _ _, ?_⟩
    rw [tapSums, if_pos ⟨rfl, Nat.lt_succ_self _⟩, hsample]
    rw [tapSums, if_neg (by simp)] at hres
    exact fpAdd_isResult_firAdd hres tap u
  · obtain ⟨w, hw, hres⟩ := h m ch hmch
    refine ⟨w, ?_, ?_⟩
    · rw [peek_poke_ne _ _ (.inr fun hcell => heq (hmch.cellOf_inj hkey hcell))]
      rw [show ∀ r, (fpAdd a (contribute tap.rule x u).1 r).2.peek .acc (s.c.cellOf m ch) =
        r.peek .acc (s.c.cellOf m ch) from fun r => fpResult_peek _ _ _ _]
      rw [(contribute_leaves (fun _ _ => False) tap.rule x u).peek_eq _ _ id]
      exact hw
    · have hcond : (m = f + tap.delay ∧ ch < n + 1) ↔ (m = f + tap.delay ∧ ch < n) := by
        constructor
        · rintro ⟨hm, hch⟩
          exact ⟨hm, lt_of_le_of_ne (Nat.lt_succ_iff.1 hch) fun he => heq ⟨hm, he⟩⟩
        · rintro ⟨hm, hch⟩
          exact ⟨hm, Nat.lt_succ_of_lt hch⟩
      rw [tapSums, if_congr hcond rfl rfl]
      exact hres

/-- One tap adds its term to the keys of its frame (R142, R153). -/
theorem tap_holds (hs : HeadOk s.c) (hlay : s.c.layout = layoutOf s.c.channels)
    (hc : u.c = s.c.advanced f) (hin : ∀ i, u.peek .inp i = s.peek .inp i) {tap : Tap}
    (hd : (tap.delay + 1) * s.c.channels.toNat ≤ s.c.bufLen.toNat)
    {acc : Nat → Nat → Option Word} (h : Holds s f acc u)
    (hv : fanout (accOp f tap.delay tap.rule) u = .next v) :
    Holds s f (fun m ch => if f + tap.delay = m then firAdd (samplesOf s ch f) (acc m ch) tap
      else acc m ch) v := by
  have hchan : u.c.channels = s.c.channels := by rw [hc]; rfl
  have hend := fanout_forN_induct (P := fun n w => Leaves AccWords u w ∧
      Holds s f (tapSums s f tap acc n) w) (by rw [hc]; exact hlay)
    ⟨Leaves.refl _ u, fun m ch hmch => by simpa [tapSums] using h m ch hmch⟩
    (fun n w w' hn hw hw' => by
      obtain ⟨hl, hold⟩ := hw
      refine ⟨hl.trans (leaves_accOp rfl hw'), ?_⟩
      refine accOp_holds hs (hl.c_eq.trans hc) (fun i => ?_) hd (hchan ▸ hn) hold hw'
      rw [hl.peek_eq _ _ (by simp [AccWords]), hin]) hv
  intro m ch hmch
  obtain ⟨w, hw, hres⟩ := hend.2 m ch hmch
  refine ⟨w, hw, ?_⟩
  rw [tapSums, hchan] at hres
  change IsResult (if f + tap.delay = m then _ else _) w
  rwa [if_congr (show f + tap.delay = m ↔ m = f + tap.delay ∧ ch < s.c.channels.toNat from
    ⟨fun e => ⟨e.symm, hmch.ch_lt⟩, fun e => e.1.symm⟩) rfl rfl]

theorem firFrame_cons (tap : Tap) (rest : List Tap) (x : Nat → Word) (m n : Nat)
    (acc : Option Word) : firFrame (tap :: rest) x m acc n =
      firFrame rest x m (if n + tap.delay = m then firAdd (x n) acc tap else acc) n := by
  unfold firFrame
  rw [List.filter_cons]
  by_cases h : n + tap.delay = m <;> simp [h]

/-- A walk over taps adds the frame's terms to every key of the window (R148, R153). -/
theorem runTaps_holds (hs : HeadOk s.c) (hlay : s.c.layout = layoutOf s.c.channels)
    {taps : List Tap}
    (hd : ∀ tap ∈ taps, (tap.delay + 1) * s.c.channels.toNat ≤ s.c.bufLen.toNat)
    (hc : u.c = s.c.advanced f) (hin : ∀ i, u.peek .inp i = s.peek .inp i)
    {acc : Nat → Nat → Option Word} (h : Holds s f acc u) (hv : runTaps f taps u = .next v) :
    Holds s f (fun m ch => firFrame taps (samplesOf s ch) m (acc m ch) f) v := by
  induction taps generalizing u acc with
  | nil =>
    cases hv
    exact h
  | cons tap rest ih =>
    obtain ⟨w, hw, hv⟩ := andThen_eq_next.1 hv
    have hl : Leaves AccWords u w := leaves_tap (fun _ _ => rfl) hw
    have hhead := tap_holds hs hlay hc hin (hd tap (List.mem_cons_self ..)) h hw
    have hrest := ih (fun t ht => hd t (List.mem_cons_of_mem _ ht)) (hl.c_eq.trans hc)
      (fun i => by rw [hl.peek_eq _ _ (by simp [AccWords]), hin]) hhead hv
    intro m ch hmch
    simp only [firFrame_cons]
    exact hrest m ch hmch

end Sys2Proof.Machine

end FirFold

section FirLaw

/-! ### The frames of a block (R146, R153, R155) -/

namespace Sys2Proof.Machine

open Sys2Proof.Claims

variable {s u v t : State} {f : Nat}

theorem firPart_succ (start : Word) (taps : List Tap) (x : Nat → Word) (m f : Nat) :
    firPart start taps x m (f + 1) = firFrame taps x m (firPart start taps x m f) f := by
  unfold firPart
  rw [List.range_succ, List.foldl_append]
  rfl

/-- Frames that no tap connects to frame `m` add nothing to it (R153). -/
theorem firPart_of_far {taps : List Tap} {m n : Nat} (start : Word) (x : Nat → Word)
    (h : ∀ f < n, ∀ tap ∈ taps, f + tap.delay ≠ m) : firPart start taps x m n = some start := by
  induction n with
  | zero => rfl
  | succ n ih =>
    rw [firPart_succ, ih fun f hf => h f (Nat.lt_succ_of_lt hf), firFrame,
      List.filter_eq_nil_iff.2 fun tap htap => by simpa using h n (Nat.lt_succ_self n) tap htap]
    rfl

/-- A state in which the FIR law speaks: the machine is ready, and no tap and no channel aliases another
(R152). -/
structure NoAlias (s : State) : Prop where
  head : HeadOk s.c
  layout_eq : s.c.layout = layoutOf s.c.channels
  acc_written : Written s .acc s.c.bufLen.toNat
  taps : ∀ tap ∈ liveTaps s, (tap.delay + 1) * s.c.channels.toNat ≤ s.c.bufLen.toNat
  channels : s.c.channels.toNat ≤ s.c.bufLen.toNat

theorem ReadyInv.noAlias (h : ReadyInv s)
    (htaps : ∀ tap ∈ liveTaps s, (tap.delay + 1) * s.c.channels.toNat ≤ s.c.bufLen.toNat)
    (hchan : s.c.channels.toNat ≤ s.c.bufLen.toNat) : NoAlias s :=
  ⟨h.headOk, h.layout_eq, h.acc_written, htaps, hchan⟩

/-- What is pending for channel `ch` of frame `m` after the first `f` frames of the block (R153). -/
abbrev pendingPart (s : State) (f m ch : Nat) : Option Word :=
  firPart (pendingAt s m ch) (liveTaps s) (samplesOf s ch) m f

/-- The emit of frame `f` moves the words of its keys to `OUT` and clears their slots (R146). -/
theorem emitAndClear_moves (h : NoAlias s) (hc : u.c = s.c.advanced f)
    (hv : emitAndClear f u = .next v) :
    (∀ m ch, InWindow s.c f m ch → v.peek .acc (s.c.cellOf m ch) =
      if m = f then some zeroWord else u.peek .acc (s.c.cellOf m ch)) ∧
    (∀ ch < s.c.channels.toNat, v.peek .out (f * s.c.channels.toNat + ch) =
      u.peek .acc (s.c.cellOf f ch)) := by
  have hchan : u.c.channels = s.c.channels := by rw [hc]; rfl
  have hown : ∀ {ch}, ch < s.c.channels.toNat → InWindow s.c f f ch := fun hch =>
    ⟨hch, le_refl f, by have := h.channels; omega⟩
  have hend := fanout_forN_induct (P := fun n w => w.c = s.c.advanced f ∧
      (∀ m ch, InWindow s.c f m ch → w.peek .acc (s.c.cellOf m ch) =
        if m = f ∧ ch < n then some zeroWord else u.peek .acc (s.c.cellOf m ch)) ∧
      ∀ ch < n, w.peek .out (f * s.c.channels.toNat + ch) = u.peek .acc (s.c.cellOf f ch))
    (by rw [hc]; exact h.layout_eq) ⟨hc, by simp, by simp⟩ (fun n w w' hn hw hw' => ?_) hv
  · rw [hchan] at hend
    refine ⟨fun m ch hmch => ?_, hend.2.2⟩
    rw [hend.2.1 m ch hmch, if_congr (and_iff_left hmch.ch_lt) rfl rfl]
  obtain ⟨hcw, hacc, hout⟩ := hw
  rw [hchan] at hn
  obtain ⟨x, hx, _, rfl⟩ := emitOp_next hw'
  have hindex : (s.c.advanced f).sampleIndex f n = f * s.c.channels.toNat + n := rfl
  rw [hcw, h.head.emitSlot_advanced] at hx ⊢
  rw [hindex]
  refine ⟨hcw, fun m ch hmch => ?_, fun ch hch => ?_⟩
  · rw [peek_poke]
    by_cases heq : m = f ∧ ch = n
    · obtain ⟨rfl, rfl⟩ := heq
      simp
    · have hcell : s.c.cellOf m ch ≠ s.c.cellOf f n := fun he => heq (hmch.cellOf_inj (hown hn) he)
      have hcond : (m = f ∧ ch < n + 1) ↔ (m = f ∧ ch < n) := by omega
      rw [if_neg fun he => hcell he.2, peek_poke_ne _ _ (.inl (by decide)), hacc m ch hmch,
        if_congr hcond rfl rfl]
  · rw [peek_poke_ne _ _ (.inl (by decide)), peek_poke]
    rcases Nat.lt_succ_iff_lt_or_eq.1 hch with hlt | rfl
    · rw [if_neg (by omega), hout ch hlt]
    · rw [if_pos ⟨rfl, rfl⟩, ← hx, hacc f ch (hown hn), if_neg (by omega)]

/-- After the first `f` frames: the window holds what is pending, and `OUT` what was emitted. -/
structure FirState (s : State) (f : Nat) (u : State) : Prop where
  c_eq : u.c = s.c.advanced f
  peek_eq : ∀ sp, sp ≠ .acc → sp ≠ .out → ∀ i, u.peek sp i = s.peek sp i
  holds : Holds s f (pendingPart s f) u
  out : ∀ m < f, ∀ ch < s.c.channels.toNat,
    ∃ w, u.peek .out (m * s.c.channels.toNat + ch) = some w ∧ IsResult (pendingPart s (m + 1) m ch) w

/-- Before the first frame the window holds the words that stand in it (R151). -/
theorem NoAlias.firState_zero (h : NoAlias s) : FirState s 0 s where
  c_eq := h.head.advanced_zero.symm
  peek_eq _ _ _ _ := rfl
  holds m ch hmch := by
    obtain ⟨w, hw⟩ := Option.isSome_iff_exists.1
      (h.acc_written _ (Nat.mod_lt (s.c.wh.toNat + (m * s.c.channels.toNat + ch)) h.head.bufLen_pos))
    have hlt := hmch.lt
    rw [Nat.zero_mul, Nat.zero_add] at hlt
    refine ⟨w, hw, ?_⟩
    change w = pendingAt s m ch
    rw [pendingAt, if_pos hlt, hw]
    rfl
  out m hm := absurd hm (Nat.not_lt_zero m)

/-- A key that enters the window at frame `f + 1` takes the slot of a key of frame `f`, which the emit has
cleared, and no tap has met it yet (R151, R152). -/
theorem NoAlias.entering_key (h : NoAlias s) {m ch : Nat} (hmch : InWindow s.c (f + 1) m ch)
    (hnew : f * s.c.channels.toNat + s.c.bufLen.toNat ≤ m * s.c.channels.toNat + ch) :
    (∃ ch', InWindow s.c f f ch' ∧ s.c.cellOf m ch = s.c.cellOf f ch') ∧
      pendingPart s (f + 1) m ch = some zeroWord := by
  have hlt := hmch.lt
  have hchan := h.channels
  rw [Nat.succ_mul] at hlt
  refine ⟨⟨m * s.c.channels.toNat + ch - (f * s.c.channels.toNat + s.c.bufLen.toNat),
    ⟨by omega, le_refl f, by omega⟩, cellOf_add_bufLen (by omega)⟩, ?_⟩
  have hpending : pendingAt s m ch = zeroWord := by
    rw [pendingAt, if_neg (by omega)]
  rw [pendingPart, hpending]
  refine firPart_of_far _ _ fun n hn tap htap heq => ?_
  have halias := h.taps tap htap
  have hreach : m * s.c.channels.toNat =
      n * s.c.channels.toNat + tap.delay * s.c.channels.toNat := by rw [← heq]; ring
  have hnf : n * s.c.channels.toNat ≤ f * s.c.channels.toNat :=
    Nat.mul_le_mul_right _ (Nat.lt_succ_iff.1 hn)
  have hch := hmch.ch_lt
  rw [Nat.succ_mul] at halias
  omega

/-- One sample step adds the terms of its frame, emits the frame and moves the window (R141). -/
theorem FirState.sampleStep (h : NoAlias s) (hu : FirState s f u)
    (ht : Machine.sampleStep f u = .next t) : FirState s (f + 1) t := by
  obtain ⟨a, b, ha, hb, rfl⟩ := sampleStep_next ht
  have hrun := runTaps_of_accumulate ha
  rw [liveTaps_advanced hu.c_eq hu.peek_eq] at hrun
  have hla := runTaps_leaves hrun
  have hca : a.c = s.c.advanced f := hla.c_eq.trans hu.c_eq
  have hsum : Holds s f (pendingPart s (f + 1)) a := fun m ch hmch => by
    rw [pendingPart, firPart_succ]
    exact runTaps_holds h.head h.layout_eq h.taps hu.c_eq
      (hu.peek_eq _ (by decide) (by decide)) hu.holds hrun m ch hmch
  obtain ⟨hacc, hout⟩ := emitAndClear_moves h hca hb
  have hchan : a.c.channels = s.c.channels := by rw [hca]; rfl
  obtain ⟨hlb, _⟩ := emitAndClear_words (by rw [hca]; exact h.layout_eq) hb
  have hcb : b.c = s.c.advanced f := hlb.c_eq.trans hca
  refine
    { c_eq := h.head.advance_c hcb
      peek_eq := fun sp h1 h2 i => ?_
      holds := fun m ch hmch => ?_
      out := fun m hm ch hch => ?_ }
  · refine (hlb.peek_eq sp i ?_).trans ((hla.peek_eq sp i h1).trans (hu.peek_eq sp h1 h2 i))
    rintro ⟨_, _, ⟨rfl, _⟩ | ⟨rfl, _⟩⟩
    · exact h1 rfl
    · exact h2 rfl
  · by_cases hold : m * s.c.channels.toNat + ch < f * s.c.channels.toNat + s.c.bufLen.toNat
    · have hkey : InWindow s.c f m ch := ⟨hmch.ch_lt, Nat.le_of_succ_le hmch.le, hold⟩
      obtain ⟨w, hw, hres⟩ := hsum m ch hkey
      exact ⟨w, (hacc m ch hkey).trans ((if_neg (by have := hmch.le; omega)).trans hw), hres⟩
    · obtain ⟨⟨ch', hkey, hcell⟩, hzero⟩ := h.entering_key hmch (not_lt.1 hold)
      refine ⟨zeroWord, ?_, by rw [hzero]; rfl⟩
      rw [hcell]
      exact (hacc f ch' hkey).trans (if_pos rfl)
  · rcases Nat.lt_succ_iff_lt_or_eq.1 hm with hlt | rfl
    · obtain ⟨w, hw, hres⟩ := hu.out m hlt ch hch
      refine ⟨w, (hlb.peek_eq _ _ ?_).trans ((hla.peek_eq _ _ (by simp [AccWords])).trans hw), hres⟩
      rintro ⟨ch', hch', ⟨hacc', _⟩ | ⟨_, heq⟩⟩
      · cases hacc'
      · rw [StatusRegs.sampleIndex, hchan] at heq
        exact absurd (key_inj hch (hchan ▸ hch') heq).1 (Nat.ne_of_lt hlt)
    · have hkey : InWindow s.c m m ch := ⟨hch, le_refl m, by have := h.channels; omega⟩
      obtain ⟨w, hw, hres⟩ := hsum m ch hkey
      exact ⟨w, (hout ch hch).trans hw, hres⟩

theorem NoAlias.processFrames (h : NoAlias s) {n : Nat}
    (ht : Machine.processFrames n s = .next t) : FirState s n t :=
  forN_induct (P := FirState s) h.firState_zero (fun _ _ _ _ hu hv => hu.sampleStep h hv) ht

/-- The two readings of "what an operation leaves" are one. -/
theorem IsResult.resultIs {r : Option Word} {w : Word} (h : IsResult r w) : ResultIs r w := h

/-- Settles O34: completion by O31's argument, and after the block `OUT` holds, for each frame, the fold of
R153 (`FirState`, kept by every sample step). -/
theorem processIsFirFilter : Obligations.ProcessIsFirFilter := by
  intro s hinv hst htaps hblock halias hchan
  have hs := hinv.ready hst
  obtain ⟨t, ht⟩ := hs.processFrames_completes htaps hblock
  have hfir := (hs.noAlias halias hchan).processFrames ht
  refine ⟨t, (exec_process_ready hst).trans ht, fun m ch hm hch => ?_⟩
  obtain ⟨w, hw, hres⟩ := hfir.out m hm ch hch
  exact ⟨w, hw, hres.resultIs⟩

/-- Settles O35: after the block the window of `FirState` begins at the frame after its last. -/
theorem processLeavesPendingContributions : Obligations.ProcessLeavesPendingContributions := by
  intro s t hinv hst halias hchan ht m ch hch hm hlt
  have hfir := ((hinv.ready hst).noAlias halias hchan).processFrames
    ((exec_process_ready hst).symm.trans ht)
  obtain ⟨w, hw, hres⟩ := hfir.holds m ch ⟨hch, hm, hlt⟩
  exact ⟨w, hw, hres.resultIs⟩

end Sys2Proof.Machine

end FirLaw

/-! ## The dense morph (43_dense_morph.md R190 to R201)

Completion by the accesses that the invariant admits, the words by the laws of the start and of one update, and
the count of updates by induction. -/

section DenseMorph

/-! ### The start (R190 to R194) -/

namespace Sys2Proof.Machine

open Sys2Proof.Claims

variable {s t u : State}

theorem Written.readable_hostOwned {R : Refusal → Prop} {sp : Space} {n : Nat} (h : Written s sp n)
    (hfits : ∀ i < n, s.params.hasWord sp i = true) : ∀ i < n, Readable R s sp i :=
  fun i hi => h.readable hi (hfits i hi)

theorem ReadyInv.hasWord_target (h : ReadyInv s) : ∀ i < s.c.na.toNat,
    s.params.hasWord .dtgt i = true := fun _ hi => decide_eq_true (hi.trans_le h.na_fits)

theorem ReadyInv.hasWord_denseView (h : ReadyInv s) : ∀ i < s.c.na.toNat,
    s.params.hasWord .dtap i = true := fun _ hi => decide_eq_true (hi.trans_le h.na_fits)

/-- Settles O41: the start completes because every word it reads is loaded; its registers and its frame are
`denseStartEffects_next`, its words `denseStartEffects_words`. -/
theorem denseStartSetsDeltas : Obligations.DenseStartSetsDeltas := by
  intro s hinv hst hk hf htgt hview
  have h := hinv.ready hst
  have hexec : exec .startMorph s = denseStartEffects s := by
    rcases exec_startMorph_of_no_fault hst hf with ⟨_, he⟩ | ⟨hv, _⟩
    · exact he
    · simp [hk] at hv
  obtain ⟨t, ht, _⟩ := (h.denseStart_answers (R := fun _ => False) hk (startFault_morphEn hf)
    (htgt.readable_hostOwned h.hasWord_target)
    fun hs => (hview hs).readable_hostOwned h.hasWord_denseView).completes
  obtain ⟨hc, hl⟩ := denseStartEffects_next ht
  refine ⟨t, hexec.trans ht, hc, LeavesButRegs.outside hl, hl.peek_eq, fun i hi => ?_⟩
  obtain ⟨hcur, target, current, delta, ht1, hc1, hd1, hres⟩ := denseStartEffects_words ht hi
  refine ⟨?_, fun target' current' ht' hc' => ?_⟩
  · rw [hcur]
    cases hsrc : s.c.tapSrc with
    | ir => rw [denseTaps_ir hsrc, if_pos rfl]
    | cur => rw [denseTaps_cur hsrc, if_neg (by decide)]
  · cases ht1.symm.trans ht'
    cases hc1.symm.trans hc'
    exact ⟨delta, hd1, hres⟩

/-! ### One update (R195, R196) -/

/-- The additions of one update, each from the words that stood there before (R195). -/
theorem denseAdds_next {n : Nat} (h : forN n denseAdd s = .next t) :
    Leaves (fun sp i => sp = .dcur ∧ i < n) s t ∧ ∀ i, i < n → ∃ a d w,
      s.peek .dcur i = some a ∧ s.peek .ddel i = some d ∧ t.peek .dcur i = some w ∧
      IsResult (F32.add a d) w := by
  refine forN_induct
    (P := fun k u => Leaves (fun sp i => sp = .dcur ∧ i < k) s u ∧ ∀ i, i < k → ∃ a d w,
      s.peek .dcur i = some a ∧ s.peek .ddel i = some d ∧ u.peek .dcur i = some w ∧
      IsResult (F32.add a d) w)
    ⟨Leaves.refl _ s, by simp⟩ (fun k u v _ hu hv => ?_) h
  obtain ⟨hl, hold⟩ := hu
  obtain ⟨a, d, ha, hd, hlv, w, hw, hres⟩ := denseAdd_next hv
  refine ⟨(hl.mono fun sp j hj => ⟨hj.1, Nat.lt_succ_of_lt hj.2⟩).trans
    (hlv.mono fun sp j hj => ⟨hj.1, by omega⟩), fun i hi => ?_⟩
  rcases Nat.lt_succ_iff_lt_or_eq.1 hi with hlt | rfl
  · obtain ⟨a', d', w', h1, h2, h3, h4⟩ := hold i hlt
    exact ⟨a', d', w', h1, h2, (hlv.peek_eq _ _ (by simp; omega)).trans h3, h4⟩
  · rw [hl.peek_eq _ _ (by simp)] at ha hd
    exact ⟨a, d, w, ha, hd, hw, hres⟩

/-- The words of one update with a morph active: sums before the last step, the target's at it (R195,
R196). -/
theorem denseUpdateEffects_words (hm : s.c.mrem ≠ 0) (h : denseUpdateEffects s = .next t) {i : Nat}
    (hi : i < s.c.na.toNat) :
    (s.c.mrem.toNat = 1 → t.peek .dcur i = s.peek .dtgt i) ∧
    (s.c.mrem.toNat ≠ 1 → ∃ a d w, s.peek .dcur i = some a ∧ s.peek .ddel i = some d ∧
      t.peek .dcur i = some w ∧ IsResult (F32.add a d) w) := by
  unfold denseUpdateEffects at h
  rw [if_neg hm] at h
  obtain ⟨u, hu, h⟩ := andThen_eq_next.1 h
  obtain ⟨hl, hadds⟩ := denseAdds_next hu
  simp only [denseSnap, hl.c_eq] at h
  have hlast : s.c.mrem - 1 = 0 ↔ s.c.mrem.toNat = 1 := by
    have := mt BitVec.eq_of_toNat_eq hm
    constructor <;> intro _ <;> bv_omega
  split_ifs at h with hone
  · refine ⟨fun _ => ?_, fun hne => absurd (hlast.1 hone) hne⟩
    obtain ⟨_, _, hcopy⟩ := copyWords_next (by decide) h
    exact (hcopy i hi).1.trans (hl.peek_eq _ _ (by simp))
  · cases h
    exact ⟨fun he => absurd (hlast.2 he) hone, fun _ => hadds i hi⟩

/-- A READY dense engine with scratch: the states in which `UPDATE_MORPH` interpolates. -/
structure DenseMorphReady (s : State) : Prop where
  st : s.c.st = .ready
  kind : s.c.kind = .dense
  morphEn : s.c.morphEn = true
  ready : ReadyInv s

theorem DenseMorphReady.exec_eq (h : DenseMorphReady s) :
    exec .updateMorph s = denseUpdateEffects s := by
  rw [exec_updateMorph_ready h.st, h.kind]
  exact checked_of_no_violation (by simp [firstViolation, h.morphEn]) s _

/-- An update completes; at its last step the target must be loaded (R196). -/
theorem DenseMorphReady.completes (h : DenseMorphReady s)
    (htgt : s.c.mrem.toNat = 1 → Written s .dtgt s.c.na.toNat) :
    ∃ t, denseUpdateEffects s = .next t := by
  obtain ⟨t, ht, _⟩ := (h.ready.denseUpdate_answers (R := fun _ => False)
    fun hone => (htgt hone).readable_hostOwned h.ready.hasWord_target).completes
  exact ⟨t, ht⟩

theorem denseUpdateEffects_idle (hm : s.c.mrem = 0) : denseUpdateEffects s = .next s := if_pos hm

/-- Settles O42: without an active morph an update does nothing; with one it completes, its registers and
its frame are `denseUpdateEffects_next` and its words `denseUpdateEffects_words`. -/
theorem denseUpdateStepsAndSnaps : Obligations.DenseUpdateStepsAndSnaps := by
  intro s hinv hst hk hen htgt
  have h : DenseMorphReady s := ⟨hst, hk, hen, hinv.ready hst⟩
  rw [h.exec_eq]
  refine ⟨denseUpdateEffects_idle, fun hm => ?_⟩
  obtain ⟨t, ht⟩ := h.completes htgt
  rcases denseUpdateEffects_next ht with ⟨hzero, _⟩ | ⟨_, hc, hl⟩
  · exact absurd hzero hm
  refine ⟨t, ht, hc, LeavesButRegs.outside hl, hl.peek_eq, fun i hi => ?_⟩
  obtain ⟨hsnap, hsum⟩ := denseUpdateEffects_words hm ht hi
  refine ⟨hsnap, fun hne a d ha hd => ?_⟩
  obtain ⟨a', d', w, ha', hd', hw, hres⟩ := hsum hne
  cases ha'.symm.trans ha
  cases hd'.symm.trans hd
  exact ⟨w, hw, hres⟩

/-! ### The whole morph (R198, R201) -/

/-- After `k` updates of `s`: `k` steps fewer are left, and a counter that has run out has left the target
words. -/
structure DenseAfter (s : State) (k : Nat) (u : State) : Prop where
  c_eq : u.c = { s.c with mrem := BitVec.ofNat 32 (s.c.mrem.toNat - k) }
  ready : ReadyInv u
  target_eq : ∀ i, u.peek .dtgt i = s.peek .dtgt i
  snapped : 0 < s.c.mrem.toNat → s.c.mrem.toNat ≤ k →
    ∀ i < s.c.na.toNat, u.peek .dcur i = s.peek .dtgt i

theorem toNat_ofNat_sub (w : Word) (k : Nat) :
    (BitVec.ofNat 32 (w.toNat - k)).toNat = w.toNat - k := by
  rw [BitVec.toNat_ofNat]
  exact Nat.mod_eq_of_lt ((Nat.sub_le _ _).trans_lt w.isLt)

theorem DenseAfter.mrem {k : Nat} (h : DenseAfter s k u) : u.c.mrem.toNat = s.c.mrem.toNat - k := by
  rw [h.c_eq]
  exact toNat_ofNat_sub _ _

/-- One more update (R195, R196, R198). -/
theorem DenseAfter.step (h : DenseMorphReady s) (htgt : Written s .dtgt s.c.na.toNat) {k : Nat}
    (hu : DenseAfter s k u) : ∃ t, exec .updateMorph u = .next t ∧ DenseAfter s (k + 1) t := by
  have hready : DenseMorphReady u :=
    ⟨by rw [hu.c_eq]; exact h.st, by rw [hu.c_eq]; exact h.kind, by rw [hu.c_eq]; exact h.morphEn,
      hu.ready⟩
  have hna : u.c.na = s.c.na := by rw [hu.c_eq]
  have htgt' : Written u .dtgt u.c.na.toNat := fun i hi => by
    rw [hu.target_eq]
    exact htgt i (hna ▸ hi)
  obtain ⟨t, ht⟩ := hready.completes fun _ => htgt'
  have hmrem := hu.mrem
  refine ⟨t, hready.exec_eq.trans ht, ?_⟩
  rcases denseUpdateEffects_next ht with ⟨hzero, rfl⟩ | ⟨hm, hc, hl⟩
  · have hdone : s.c.mrem.toNat ≤ k := by
      rw [hzero] at hmrem
      exact Nat.sub_eq_zero_iff_le.1 hmrem.symm
    refine ⟨?_, hu.ready, hu.target_eq, fun hpos _ => hu.snapped hpos hdone⟩
    rw [hu.c_eq, Nat.sub_eq_zero_of_le hdone, Nat.sub_eq_zero_of_le (Nat.le_succ_of_le hdone)]
  · have hpos : 0 < u.c.mrem.toNat := (BitVec.pos_iff_ne_zero _).2 hm
    refine ⟨?_, hu.ready.denseUpdate ht, fun i => ?_, fun _ hle i hi => ?_⟩
    · have hnext : u.c.mrem - 1 = BitVec.ofNat 32 (s.c.mrem.toNat - (k + 1)) := by
        refine BitVec.eq_of_toNat_eq ?_
        rw [toNat_sub_one hpos, toNat_ofNat_sub, hmrem, Nat.sub_sub]
      rw [hc, hnext, hu.c_eq]
    · exact (hl.peek_eq _ _ (by simp)).trans (hu.target_eq i)
    · obtain ⟨hsnap, _⟩ := denseUpdateEffects_words hm ht (hna ▸ hi)
      exact (hsnap (by omega)).trans (hu.target_eq i)

theorem DenseMorphReady.repeated_updateMorph (h : DenseMorphReady s)
    (htgt : Written s .dtgt s.c.na.toNat) (k : Nat) :
    ∃ t, repeated .updateMorph k s = .next t ∧ DenseAfter s k t := by
  induction k with
  | zero =>
    refine ⟨s, rfl, ?_, h.ready, fun _ => rfl, fun hpos hle => absurd hle (not_le.2 hpos)⟩
    simp
  | succ k ih =>
    obtain ⟨u, hu, hafter⟩ := ih
    obtain ⟨t, ht, hafter'⟩ := hafter.step h htgt
    exact ⟨t, andThen_eq_next.2 ⟨u, hu, ht⟩, hafter'⟩

/-- Settles O43: by induction on the number of updates (`DenseAfter`). -/
theorem denseMorphTakesItsSteps : Obligations.DenseMorphTakesItsSteps := by
  intro s hinv hst hk hen htgt k
  have h : DenseMorphReady s := ⟨hst, hk, hen, hinv.ready hst⟩
  obtain ⟨t, ht, hafter⟩ := h.repeated_updateMorph htgt k
  refine ⟨t, ht, hafter.c_eq, ?_, hafter.snapped⟩
  rw [StatusRegs.morphing_dense (by rw [hafter.c_eq]; exact hst) (by rw [hafter.c_eq]; exact hk),
    hafter.mrem]
  omega

end Sys2Proof.Machine

end DenseMorph

/-! ## The velvet morph (44_velvet_morph.md R210 to R228)

The start in each polarity, one step of R220 as an update of one slot and of its polarity's registers, the
count of updates, and the contents that they leave. -/

section VelvetStart

/-! ### The start (R210 to R215) -/

namespace Sys2Proof.Machine

open Sys2Proof.Claims

variable {s t u : State}

/-- The scratch memories of one polarity (R209). -/
def scratchOf (σ : Polarity) : List Space := [workSpace σ, initialSpace σ, snapshotSpace σ]

/-- The start of one polarity leaves every word outside its scratch (R228). -/
theorem velvetStartPol_peek {σ : Polarity} (h : velvetStartPol σ s = .next t) {sp : Space}
    (hsp : sp ∉ scratchOf σ) (i : Nat) : t.peek sp i = s.peek sp i := by
  obtain ⟨_, _, hl, _⟩ := velvetStartPol_next h
  refine hl.peek_eq sp i ?_
  rintro (⟨rfl, _⟩ | ⟨rfl, _⟩ | ⟨rfl, _⟩) <;> simp [scratchOf] at hsp

/-- No memory that a velvet start reads or writes in one polarity is scratch of the other. -/
theorem not_mem_scratchOf {σ τ : Polarity} (h : τ ≠ σ) {sp : Space}
    (hsp : sp ∈ [viewSpace τ, targetSpace τ, workSpace τ, initialSpace τ, snapshotSpace τ]) :
    sp ∉ scratchOf σ := by
  cases σ <;> cases τ
  · exact absurd rfl h
  · revert sp; decide
  · revert sp; decide
  · exact absurd rfl h

theorem velvetTaps_mem (c : StatusRegs) (σ : Polarity) : c.velvetTaps σ ∈
    [viewSpace σ, targetSpace σ, workSpace σ, initialSpace σ, snapshotSpace σ] := by
  unfold StatusRegs.velvetTaps
  cases c.tapSrc <;> simp

/-- What the start leaves in the memories of one polarity (R212, R213, R215). -/
structure PolStarted (s t : State) (σ : Polarity) : Prop where
  live : ∀ i < (s.c.liveCount σ).toNat, t.peek (workSpace σ) i = s.peek (s.c.velvetTaps σ) i ∧
    t.peek (initialSpace σ) i = s.peek (s.c.velvetTaps σ) i
  target : ∀ i < (s.x.targetCount σ).toNat,
    t.peek (snapshotSpace σ) i = s.peek (targetSpace σ) i

theorem velvetStartPol_started {σ : Polarity} (h : velvetStartPol σ s = .next t) :
    PolStarted s t σ := by
  obtain ⟨_, _, _, hlive, htarget⟩ := velvetStartPol_next h
  exact ⟨fun i hi => ⟨(hlive i hi).1, (hlive i hi).2.1⟩, fun i hi => (htarget i hi).1⟩

/-- The words that the start writes in one polarity (R210). -/
def StartWords (s : State) (σ : Polarity) (sp : Space) (i : Nat) : Prop :=
  (sp = workSpace σ ∧ s.c.tapSrc = .ir ∧ i < (s.c.viewCount σ).toNat) ∨
  (sp = initialSpace σ ∧ i < (s.c.liveCount σ).toNat) ∨
  (sp = snapshotSpace σ ∧ i < (s.x.targetCount σ).toNat)

/-- What the start of the positive polarity leaves as the start of the negative one finds it (R228). -/
structure OtherUntouched (s u : State) (σ : Polarity) : Prop where
  x_eq : u.x = s.x
  tapSrc_eq : u.c.tapSrc = s.c.tapSrc
  viewCount_eq : u.c.viewCount σ = s.c.viewCount σ
  liveCount_eq : u.c.liveCount σ = s.c.liveCount σ
  peek_eq : ∀ sp ∈ [viewSpace σ, targetSpace σ, workSpace σ, initialSpace σ, snapshotSpace σ],
    ∀ i, u.peek sp i = s.peek sp i

theorem velvetStartPol_untouched {σ τ : Polarity} (hne : τ ≠ σ) (h : velvetStartPol σ s = .next u) :
    OtherUntouched s u τ := by
  obtain ⟨hc, _⟩ := velvetStartPol_next h
  exact
    { x_eq := (velvetStartPol_leaves h).x_eq
      tapSrc_eq := by rw [hc, setPol_tapSrc]
      viewCount_eq := by rw [hc, setPol_viewCount]
      liveCount_eq := by rw [hc]; exact liveCount_setPol_ne _ _ hne
      peek_eq := fun sp hsp => velvetStartPol_peek h (not_mem_scratchOf hne hsp) }

theorem OtherUntouched.startWords {σ : Polarity} (h : OtherUntouched s u σ) :
    StartWords u σ = StartWords s σ := by
  unfold StartWords
  rw [h.x_eq, h.tapSrc_eq, h.viewCount_eq, h.liveCount_eq]

theorem OtherUntouched.started {σ : Polarity} (h : OtherUntouched s u σ) (ht : PolStarted u t σ) :
    PolStarted s t σ := by
  have htaps : u.c.velvetTaps σ = s.c.velvetTaps σ := by
    unfold StatusRegs.velvetTaps
    rw [h.tapSrc_eq]
  refine ⟨fun i hi => ?_, fun i hi => ?_⟩
  · have hlive := ht.live i (by rwa [h.liveCount_eq])
    rwa [htaps, h.peek_eq _ (velvetTaps_mem _ σ)] at hlive
  · have htarget := ht.target i (by rwa [h.x_eq])
    rwa [h.peek_eq _ (by simp)] at htarget

theorem PolStarted.keep {σ : Polarity} (h : PolStarted s u σ) (hk : OtherUntouched u t σ) :
    PolStarted s t σ where
  live i hi := by
    rw [hk.peek_eq _ (by simp), hk.peek_eq _ (by simp)]
    exact h.live i hi
  target i hi := by
    rw [hk.peek_eq _ (by simp)]
    exact h.target i hi

/-- The words of a velvet start, in both polarities (R210 to R215). -/
theorem velvetStartEffects_words (h : velvetStartEffects s = .next t) :
    t.draws = s.draws ∧ (∀ σ, PolStarted s t σ) ∧
      LeavesButRegs (fun sp i => ∃ σ, StartWords s σ sp i) s t := by
  obtain ⟨u, v, hu, hv, rfl⟩ := velvetStartEffects_next h
  have hneg : OtherUntouched s u .neg := velvetStartPol_untouched (by decide) hu
  have hpos : OtherUntouched u v .pos := velvetStartPol_untouched (by decide) hv
  obtain ⟨_, hdu, hlu, _⟩ := velvetStartPol_next hu
  obtain ⟨_, hdv, hlv, _⟩ := velvetStartPol_next hv
  refine ⟨hdv.trans hdu, fun σ => ?_, ?_⟩
  · cases σ with
    | pos =>
      have hp := (velvetStartPol_started hu).keep hpos
      exact ⟨hp.live, hp.target⟩
    | neg =>
      have hn := hneg.started (velvetStartPol_started hv)
      exact ⟨hn.live, hn.target⟩
  · have hlu' : LeavesButRegs (fun sp i => ∃ σ, StartWords s σ sp i) s u :=
      hlu.mono fun sp i hw => ⟨.pos, hw⟩
    have hlv' : LeavesButRegs (fun sp i => ∃ σ, StartWords s σ sp i) u v :=
      hlv.mono fun sp i hw => by
        have hw' : StartWords u .neg sp i := hw
        rw [hneg.startWords] at hw'
        exact ⟨.neg, hw'⟩
    exact (hlu'.trans hlv').trans (leavesButRegs_setC _ v _)

/-- Settles O44: the start completes because every word it reads is loaded and its checks bound the counts
by the capacities; its registers are `velvetStartEffects_c`, its words `velvetStartEffects_words`. -/
theorem velvetStartSnapshots : Obligations.VelvetStartSnapshots := by
  intro s hinv hst hk hf htarget hview
  have h := hinv.ready hst
  have hexec : exec .startMorph s = velvetStartEffects s := by
    rcases exec_startMorph_of_no_fault hst hf with ⟨hd, _⟩ | ⟨_, he⟩
    · simp [hk] at hd
    · exact he
  have htfits : ∀ σ, (s.x.targetCount σ).toNat ≤ s.params.irDepth := by
    have hf' := hf
    simp only [startFault, hk] at hf'
    split_ifs at hf' with hen hdepth
    rw [not_or, not_lt, not_lt] at hdepth
    intro σ
    cases σ with
    | pos => exact hdepth.1
    | neg => exact hdepth.2
  have hready : ∀ σ, VelvetStartReady (fun _ => False) s σ := h.velvetStartReady hk hf
    (fun σ => (htarget σ).readable_hostOwned fun i hi => by
      rw [hasWord_targetSpace]
      exact decide_eq_true (hi.trans_le (htfits σ)))
    fun hs σ => (hview hs σ).readable_hostOwned fun i hi => by
      rw [hasWord_viewSpace]
      exact decide_eq_true (hi.trans_le (h.viewCount_fits σ))
  obtain ⟨t, ht, _⟩ := (velvetStart_answers hready).completes
  obtain ⟨hdraws, hstarted, hl⟩ := velvetStartEffects_words ht
  exact ⟨t, hexec.trans ht, velvetStartEffects_c ht, hl.outside, hdraws,
    fun σ => (hstarted σ).live, fun σ => (hstarted σ).target, hl.peek_eq⟩

end Sys2Proof.Machine

end VelvetStart

section VelvetStepAsUpdate

/-! ### One step as an update (R220 to R222, R228) -/

namespace Sys2Proof.Machine

open Sys2Proof.Claims

variable {s t u : State} {σ τ : Polarity}

/-- The state with a word placed in a working array, if there is one to place. -/
def place (σ : Polarity) (w : Option (Nat × Word)) (s : State) : State :=
  match w with
  | none => s
  | some (i, v) => s.poke (workSpace σ) i v

/-- The state after a step that places `w`: the polarity's registers are one step on. -/
def stepped (σ : Polarity) (w : Option (Nat × Word)) (s : State) : State :=
  { place σ w s with c := s.c.setPol σ (stepRegs (s.c.pol σ)) }

/-- `w` is what the step places: nothing, or the target element at the progression cursor in the slot that
the step names (R221, R222). -/
def StepPlaces (σ : Polarity) (s : State) (w : Option (Nat × Word)) : Prop :=
  match w with
  | none => stepSlot s.params.substSlot (s.c.pol σ) = none
  | some (i, v) => stepSlot s.params.substSlot (s.c.pol σ) = some i ∧
      s.params.hasWord (snapshotSpace σ) (s.c.pol σ).pc.toNat = true ∧
      s.peek (snapshotSpace σ) (s.c.pol σ).pc.toNat = some v ∧
      s.params.hasWord (workSpace σ) i = true

/-- The move of one element, as `velvetStep` makes it, places the element. -/
theorem migrate_eq_next {i : Nat} {r : VelvetRegs}
    (hslot : stepSlot s.params.substSlot (s.c.pol σ) = some i) (hr : r = stepRegs (s.c.pol σ)) :
    (andThen (memRead (snapshotSpace σ) (s.c.pol σ).pc.toNat s) fun v =>
      andThen (memWrite (workSpace σ) i v s) fun s' =>
        .next { s' with c := s'.c.setPol σ r }) = .next t ↔
      ∃ w, StepPlaces σ s w ∧ t = stepped σ w s := by
  subst hr
  constructor
  · intro h
    obtain ⟨v, hv, h⟩ := andThen_eq_next.1 h
    obtain ⟨u, hu, h⟩ := andThen_eq_next.1 h
    obtain ⟨hwork, rfl⟩ := memWrite_eq_next.1 hu
    obtain ⟨hsnap, hv⟩ := memRead_eq_next.1 hv
    cases h
    exact ⟨some (i, v), ⟨hslot, hsnap, hv, hwork⟩, rfl⟩
  · rintro ⟨w, hw, rfl⟩
    cases w with
    | none => exact absurd (hslot.symm.trans hw) (by simp)
    | some iv =>
      obtain ⟨hslot', hsnap, hv, hwork⟩ := hw
      cases hslot.symm.trans hslot'
      exact andThen_eq_next.2 ⟨_, memRead_eq_next.2 ⟨hsnap, hv⟩,
        andThen_eq_next.2 ⟨_, memWrite_eq_next.2 ⟨hwork, rfl⟩, rfl⟩⟩

/-- A step that names no slot places nothing. -/
theorem unplaced_eq_next {r : VelvetRegs} (hslot : stepSlot s.params.substSlot (s.c.pol σ) = none)
    (hr : r = stepRegs (s.c.pol σ)) :
    (Host.Outcome.next { s with c := s.c.setPol σ r } : Res State) = .next t ↔
      ∃ w, StepPlaces σ s w ∧ t = stepped σ w s := by
  subst hr
  constructor
  · intro h
    cases h
    exact ⟨none, hslot, rfl⟩
  · rintro ⟨w, hw, rfl⟩
    cases w with
    | none => rfl
    | some iv => exact absurd (hslot.symm.trans hw.1) (by simp)

/-- One step of R220 is one update of one polarity. -/
theorem velvetStep_eq_next : velvetStep σ s = .next t ↔
    ∃ w, StepPlaces σ s w ∧ t = stepped σ w s := by
  unfold velvetStep
  simp only [BitVec.lt_def]
  split_ifs with hsub hrem happ
  · exact migrate_eq_next (stepSlot_substitute _ hsub.1 hsub.2)
      (stepRegs_substitute hsub.1 hsub.2).symm
  · have hp : ¬ (s.c.pol σ).pc.toNat < (s.c.pol σ).tl.toNat := fun hp => hsub ⟨hrem, hp⟩
    exact unplaced_eq_next (stepSlot_eq_none _ hp) (stepRegs_remove hrem hp).symm
  · exact migrate_eq_next (stepSlot_append _ hrem happ) (stepRegs_append hrem happ).symm
  · have hdone := unplaced_eq_next (t := t) (stepSlot_eq_none _ happ)
      (stepRegs_complete hrem happ).symm
    rwa [setPol_pol] at hdone

theorem place_peek (w : Option (Nat × Word)) {sp : Space} (h : sp ≠ workSpace σ) (i : Nat) :
    (place σ w s).peek sp i = s.peek sp i := by
  cases w with
  | none => rfl
  | some iv => exact peek_poke_ne _ _ (.inl h)

theorem stepped_pol_ne (w : Option (Nat × Word)) (h : τ ≠ σ) :
    (stepped σ w s).c.pol τ = s.c.pol τ := pol_setPol_ne _ _ _ _ h

theorem stepped_params (w : Option (Nat × Word)) : (stepped σ w s).params = s.params := by
  cases w <;> rfl

theorem snapshotSpace_ne_workSpace (τ σ : Polarity) : snapshotSpace τ ≠ workSpace σ := by
  cases σ <;> cases τ <;> decide

theorem workSpace_ne (h : τ ≠ σ) : workSpace τ ≠ workSpace σ := by
  cases σ <;> cases τ
  · exact absurd rfl h
  · decide
  · decide
  · exact absurd rfl h

/-- What a polarity places does not depend on the other's step (R228). -/
theorem stepPlaces_stepped (w w' : Option (Nat × Word)) (h : τ ≠ σ) :
    StepPlaces τ (stepped σ w s) w' ↔ StepPlaces τ s w' := by
  have hpeek : ∀ i, (stepped σ w s).peek (snapshotSpace τ) i = s.peek (snapshotSpace τ) i :=
    place_peek w (snapshotSpace_ne_workSpace τ σ)
  cases w' <;> simp only [StepPlaces, stepped_pol_ne w h, stepped_params, hpeek]

theorem setPol_comm (c : StatusRegs) (r r' : VelvetRegs) (h : τ ≠ σ) :
    (c.setPol σ r).setPol τ r' = (c.setPol τ r').setPol σ r := by
  cases σ <;> cases τ
  · exact absurd rfl h
  · rfl
  · rfl
  · exact absurd rfl h

/-- Words placed in the two working arrays, in either order. -/
theorem poke_workSpace_comm (i j : Nat) (v v' : Word) (h : τ ≠ σ) :
    (s.poke (workSpace σ) i v).poke (workSpace τ) j v' =
      (s.poke (workSpace τ) j v').poke (workSpace σ) i v := by
  cases σ <;> cases τ
  · exact absurd rfl h
  · rfl
  · rfl
  · exact absurd rfl h

/-- The two polarities' updates commute (R228). -/
theorem stepped_comm (w w' : Option (Nat × Word)) (h : τ ≠ σ) :
    stepped τ w' (stepped σ w s) = stepped σ w (stepped τ w' s) := by
  have hc : (stepped τ w' (stepped σ w s)).c = (stepped σ w (stepped τ w' s)).c := by
    change (s.c.setPol σ _).setPol τ (stepRegs ((s.c.setPol σ _).pol τ)) =
      (s.c.setPol τ _).setPol σ (stepRegs ((s.c.setPol τ _).pol σ))
    rw [pol_setPol_ne _ _ _ _ h, pol_setPol_ne _ _ _ _ h.symm, setPol_comm _ _ _ h]
  have hplace : place τ w' (place σ w s) = place σ w (place τ w' s) := by
    cases w with
    | none => rfl
    | some iv =>
      cases w' with
      | none => rfl
      | some jv => exact poke_workSpace_comm _ _ _ _ h
  have hboth : ∀ {σ τ w w'}, stepped τ w' (stepped σ w s) =
      { place τ w' (place σ w s) with c := (stepped τ w' (stepped σ w s)).c } := by
    intro σ τ w w'
    cases w <;> cases w' <;> rfl
  rw [hboth, hboth (σ := τ), hplace, hc]

theorem velvetSteps_comm (h : τ ≠ σ) (ht : andThen (velvetStep σ s) (velvetStep τ) = .next t) :
    andThen (velvetStep τ s) (velvetStep σ) = .next t := by
  obtain ⟨u, hu, ht⟩ := andThen_eq_next.1 ht
  obtain ⟨w, hw, rfl⟩ := velvetStep_eq_next.1 hu
  obtain ⟨w', hw', rfl⟩ := velvetStep_eq_next.1 ht
  rw [stepPlaces_stepped w w' h] at hw'
  refine andThen_eq_next.2 ⟨_, velvetStep_eq_next.2 ⟨w', hw', rfl⟩,
    velvetStep_eq_next.2 ⟨w, (stepPlaces_stepped w' w h.symm).2 hw, stepped_comm w w' h⟩⟩

/-- Settles O46: each step is an update of its own polarity (`velvetStep_eq_next`), and the two updates
commute. -/
theorem polarityOrderUnobservable : Obligations.PolarityOrderUnobservable := fun _ _ =>
  ⟨velvetSteps_comm (by decide), velvetSteps_comm (by decide)⟩

/-! ### One update of both polarities (R219, R220) -/

/-- A step places the target element at the progression cursor in its slot and keeps every other word of the
working arrays (R221, R222). -/
theorem velvetStep_work (h : velvetStep σ s = .next t) (i : Nat) :
    t.peek (workSpace σ) i =
      if stepSlot s.params.substSlot (s.c.pol σ) = some i
      then s.peek (snapshotSpace σ) (s.c.pol σ).pc.toNat else s.peek (workSpace σ) i := by
  obtain ⟨w, hw, rfl⟩ := velvetStep_eq_next.1 h
  cases w with
  | none =>
    have hslot : stepSlot s.params.substSlot (s.c.pol σ) = none := hw
    rw [hslot, if_neg (by simp)]
    rfl
  | some iv =>
    obtain ⟨j, v⟩ := iv
    obtain ⟨hslot, _, hv, _⟩ := hw
    rw [hslot, hv]
    change (s.poke (workSpace σ) j v).peek (workSpace σ) i = _
    rw [peek_poke]
    simp only [true_and, Option.some.injEq, eq_comm]

/-- A step touches no word but those of its working array (R228). -/
theorem velvetStep_peek (h : velvetStep σ s = .next t) {sp : Space} (hsp : sp ≠ workSpace σ)
    (i : Nat) : t.peek sp i = s.peek sp i := by
  obtain ⟨w, _, rfl⟩ := velvetStep_eq_next.1 h
  exact place_peek w hsp i

theorem velvetStep_draws (h : velvetStep σ s = .next t) : t.draws = s.draws := by
  obtain ⟨w, _, rfl⟩ := velvetStep_eq_next.1 h
  cases w <;> rfl

/-- The working arrays after one update: in each polarity the slot of its step and nothing else. -/
theorem velvetUpdateEffects_work (h : velvetUpdateEffects s = .next t) (σ : Polarity) (i : Nat) :
    t.peek (workSpace σ) i =
      if stepSlot s.params.substSlot (s.c.pol σ) = some i
      then s.peek (snapshotSpace σ) (s.c.pol σ).pc.toNat else s.peek (workSpace σ) i := by
  obtain ⟨u, hu, hv⟩ := andThen_eq_next.1 h
  cases σ with
  | pos =>
    rw [velvetStep_peek hv (workSpace_ne (by decide))]
    exact velvetStep_work hu i
  | neg =>
    have hpol : u.c.pol .neg = s.c.pol .neg := by
      rw [velvetStep_c hu]
      exact pol_setPol_ne _ _ _ _ (by decide)
    rw [velvetStep_work hv, velvetStep_params hu, hpol,
      velvetStep_peek hu (snapshotSpace_ne_workSpace _ _),
      velvetStep_peek hu (workSpace_ne (by decide))]

theorem velvetUpdateEffects_snapshot (h : velvetUpdateEffects s = .next t) (σ : Polarity) (i : Nat) :
    t.peek (snapshotSpace σ) i = s.peek (snapshotSpace σ) i := by
  obtain ⟨u, hu, hv⟩ := andThen_eq_next.1 h
  rw [velvetStep_peek hv (snapshotSpace_ne_workSpace _ _),
    velvetStep_peek hu (snapshotSpace_ne_workSpace _ _)]

/-- The words that one update writes: at most one slot in each working array. -/
theorem velvetUpdateEffects_frame (h : velvetUpdateEffects s = .next t) :
    LeavesButRegs (fun sp i => ∃ σ, sp = workSpace σ ∧
      stepSlot s.params.substSlot (s.c.pol σ) = some i) s t := by
  obtain ⟨u, hu, hv⟩ := andThen_eq_next.1 h
  have hpol : u.c.pol .neg = s.c.pol .neg := by
    rw [velvetStep_c hu]
    exact pol_setPol_ne _ _ _ _ (by decide)
  have hlu : LeavesButRegs (fun sp i => ∃ σ, sp = workSpace σ ∧
      stepSlot s.params.substSlot (s.c.pol σ) = some i) s u :=
    (velvetStep_leaves hu).mono fun sp i hw => ⟨.pos, hw⟩
  refine hlu.trans ((velvetStep_leaves hv).mono fun sp i hw => ⟨.neg, ?_⟩)
  rwa [velvetStep_params hu, hpol] at hw

/-- Settles O45: the update completes by the invariant, its registers are `velvetUpdateEffects_c` and its
words `velvetUpdateEffects_work`. -/
theorem velvetUpdateStepsEachPolarity : Obligations.VelvetUpdateStepsEachPolarity := by
  intro s hinv hst hk hen
  have h := hinv.velvetMorphReady hst hk hen
  obtain ⟨t, ht, _⟩ := h.exec_updateMorph
  have heff : velvetUpdateEffects s = .next t := h.exec_eq ▸ ht
  obtain ⟨u, hu, hv⟩ := andThen_eq_next.1 heff
  have hl := velvetUpdateEffects_frame heff
  refine ⟨t, ht, velvetUpdateEffects_c heff, hl.outside,
    (velvetStep_draws hv).trans (velvetStep_draws hu), fun σ i hslot => ?_, hl.peek_eq⟩
  rw [velvetUpdateEffects_work heff, if_pos hslot]

end Sys2Proof.Machine

end VelvetStepAsUpdate

section VelvetCompletion

/-! ### The count of updates and the final contents (R224, R226) -/

namespace Sys2Proof.Machine

open Sys2Proof.Claims

/-- A polarity is busy until both cursors have passed the elements they had left (R224). -/
theorem CursorsInv.busy_iff {r : VelvetRegs} (h : CursorsInv r) (k : Nat) :
    (stepRegs^[k] r).busy = true ↔ k < max r.rc.toNat (r.tl.toNat - r.pc.toNat) := by
  have hle := h.pc_le_tl
  rw [VelvetRegs.busy_iff, iterate_stepRegs_tl, iterate_stepRegs_rc, iterate_stepRegs_pc hle]
  omega

/-- Settles O47: `k` updates are `k` steps of R220 for each polarity, and the cursors after `k` steps are
known. -/
theorem velvetMorphStepCount : Obligations.VelvetMorphStepCount := by
  intro s hinv hst hk hen k
  have hready := hinv.velvetMorphReady hst hk hen
  obtain ⟨u, hu, huready, hpol⟩ := hready.repeated_updateMorph k
  have hbusy : ∀ σ, (u.c.pol σ).busy = true ↔
      k < max (s.c.pol σ).rc.toNat ((s.c.pol σ).tl.toNat - (s.c.pol σ).pc.toNat) := fun σ => by
    rw [hpol]
    exact (hready.polarity σ).cursors.busy_iff k
  refine ⟨u, hu, fun σ => ⟨?_, ?_, hbusy σ⟩, ?_⟩
  · rw [hpol, iterate_stepRegs_rc]
  · rw [hpol, iterate_stepRegs_pc (hready.polarity σ).cursors.pc_le_tl]
  · rw [StatusRegs.morphing_velvet huready.st huready.kind]
    exact exists_congr hbusy

/-- The slot that step `k + 1` from a fresh start with `m` elements toward `n` writes (R221, R222, R225). -/
def freshSlot (p : SubstSlot) (m n k : Nat) : Option Nat :=
  if k < min m n then
    (match p with
      | .regression => some (m - 1 - k)
      | .progression => some k)
  else if k < m then none
  else if k < n then some k
  else none

theorem CursorsInv.iterate {r : VelvetRegs} (h : CursorsInv r) (k : Nat) :
    CursorsInv (stepRegs^[k] r) := by
  induction k with
  | zero => exact h
  | succ k ih =>
    rw [Function.iterate_succ_apply']
    exact ih.step

/-- The length after `k` steps from a fresh start with `m` elements toward `n`. -/
theorem CursorsInv.len_of_fresh {r : VelvetRegs} (h : CursorsInv r) (hpc : r.pc = 0) (k : Nat) :
    (stepRegs^[k] r).len.toNat = (r.len.toNat - k) + min k r.tl.toNat := by
  obtain ⟨hrc, hpk⟩ := h.cursors_of_fresh hpc k
  rw [(h.iterate k).len_eq, hrc, hpk]

theorem CursorsInv.stepSlot_of_fresh {r : VelvetRegs} (h : CursorsInv r) (hpc : r.pc = 0)
    (p : SubstSlot) (k : Nat) :
    stepSlot p (stepRegs^[k] r) = freshSlot p r.len.toNat r.tl.toNat k := by
  obtain ⟨hrc, hpk⟩ := h.cursors_of_fresh hpc k
  have hlen := h.len_of_fresh hpc k
  have htl := congrArg BitVec.toNat (iterate_stepRegs_tl r k)
  unfold freshSlot
  split_ifs with hsub hrem happ
  · unfold stepSlot
    rw [if_pos (by omega)]
    cases p with
    | regression => exact congrArg some (by omega)
    | progression => exact congrArg some (by omega)
  · exact stepSlot_eq_none p (by omega)
  · rw [stepSlot_append p (by omega) (by omega)]
    exact congrArg some (by omega)
  · exact stepSlot_eq_none p (by omega)

/-- Slot `i` after `k` steps from a fresh start with `m` elements `old` toward `n` elements `target`, under
either reading of the substitution slot (R226). -/
def slotAfter (p : SubstSlot) (m n : Nat) (old target : Nat → Option Word) (k i : Nat) :
    Option Word :=
  match p with
  | .regression =>
    if i < m then (if m - 1 - i < min k n then target (m - 1 - i) else old i) else target i
  | .progression => if i < min k n then target i else old i

theorem freshSlot_regression_eq_some {m n k i : Nat} :
    freshSlot .regression m n k = some i ↔
      k < n ∧ (k < m ∧ i = m - 1 - k ∨ m ≤ k ∧ i = k) := by
  unfold freshSlot
  split_ifs with hsub hrem happ
  · rw [Option.some.injEq]
    omega
  · exact iff_of_false nofun (by omega)
  · rw [Option.some.injEq]
    omega
  · exact iff_of_false nofun (by omega)

theorem freshSlot_progression_eq_some {m n k i : Nat} :
    freshSlot .progression m n k = some i ↔ k < n ∧ i = k := by
  unfold freshSlot
  split_ifs with hsub hrem happ
  · rw [Option.some.injEq]
    omega
  · exact iff_of_false nofun (by omega)
  · rw [Option.some.injEq]
    omega
  · exact iff_of_false nofun (by omega)

/-- One more step changes the slot that it names, and no other slot of the array. -/
theorem slotAfter_succ {p : SubstSlot} {m n k i : Nat} {old target : Nat → Option Word} :
    slotAfter p m n old target (k + 1) i =
      if freshSlot p m n k = some i then target (min k n) else slotAfter p m n old target k i := by
  cases p with
  | regression =>
    simp only [slotAfter, freshSlot_regression_eq_some]
    by_cases hm : i < m
    · rw [if_pos hm, if_pos hm]
      by_cases hslot : k < n ∧ (k < m ∧ i = m - 1 - k ∨ m ≤ k ∧ i = k)
      · rw [if_pos hslot, if_pos (by omega), show m - 1 - i = min k n by omega]
      · rw [if_neg hslot]
        exact if_congr (by omega) rfl rfl
    · rw [if_neg hm, if_neg hm]
      split_ifs with hslot
      · rw [show i = min k n by omega]
      · rfl
  | progression =>
    simp only [slotAfter, freshSlot_progression_eq_some]
    by_cases hslot : k < n ∧ i = k
    · rw [if_pos hslot, if_pos (by omega), show i = min k n by omega]
    · rw [if_neg hslot]
      exact if_congr (by omega) rfl rfl

theorem slotAfter_zero (p : SubstSlot) {m n i : Nat} (old target : Nat → Option Word)
    (hi : i < m) : slotAfter p m n old target 0 i = old i := by
  cases p <;> simp [slotAfter, hi]

/-- The contents once both cursors have passed all their elements are those of R226. -/
theorem slotAfter_complete (p : SubstSlot) {m n k i : Nat} (old target : Nat → Option Word)
    (hk : max m n ≤ k) (hi : i < n) :
    slotAfter p m n old target k i = finalSlot p m n old target i := by
  cases p with
  | progression => exact if_pos (by omega)
  | regression =>
    simp only [slotAfter, finalSlot]
    by_cases hm : i < m
    · rw [if_pos hm]
      by_cases hmn : m ≤ n
      · rw [if_pos hmn, if_pos hm, if_pos (by omega)]
      · rw [if_neg hmn]
        by_cases hold : i < m - n
        · rw [if_pos hold, if_neg (by omega)]
        · rw [if_neg hold, if_pos (by omega)]
    · rw [if_neg hm, if_pos (by omega), if_neg hm]

/-- A step never writes past the length that it leaves. -/
theorem lt_of_freshSlot_ne {p : SubstSlot} {m n k i : Nat} (h : freshSlot p m n k ≠ some i)
    (hi : i < (m - (k + 1)) + min (k + 1) n) : i < (m - k) + min k n := by
  by_contra hge
  apply h
  cases p with
  | regression => exact freshSlot_regression_eq_some.2 (by omega)
  | progression => exact freshSlot_progression_eq_some.2 (by omega)

/-- The state after `k` updates from the fresh start `s`: in the polarity `σ` the registers, the snapshot and
the slots below the length. -/
structure VelvetProgress (s u : State) (σ : Polarity) (k : Nat) : Prop where
  params_eq : u.params = s.params
  regs_eq : u.c.pol σ = stepRegs^[k] (s.c.pol σ)
  snapshot_eq : ∀ i, u.peek (snapshotSpace σ) i = s.peek (snapshotSpace σ) i
  slot_eq : ∀ i, i < (u.c.pol σ).len.toNat → u.peek (workSpace σ) i =
    slotAfter s.params.substSlot (s.c.pol σ).len.toNat (s.c.pol σ).tl.toNat
      (s.peek (workSpace σ)) (s.peek (snapshotSpace σ)) k i

theorem VelvetProgress.start (s : State) (σ : Polarity) : VelvetProgress s s σ 0 where
  params_eq := rfl
  regs_eq := rfl
  snapshot_eq _ := rfl
  slot_eq _ hi := (slotAfter_zero _ _ _ hi).symm

theorem VelvetProgress.update {s u t : State} {σ : Polarity} {k : Nat}
    (hcur : CursorsInv (s.c.pol σ)) (hpc : (s.c.pol σ).pc = 0) (h : VelvetProgress s u σ k)
    (ht : velvetUpdateEffects u = .next t) (hregs : t.c.pol σ = stepRegs (u.c.pol σ)) :
    VelvetProgress s t σ (k + 1) where
  params_eq := (velvetUpdateEffects_frame ht).params_eq.trans h.params_eq
  regs_eq := by rw [hregs, h.regs_eq, Function.iterate_succ_apply']
  snapshot_eq i := (velvetUpdateEffects_snapshot ht σ i).trans (h.snapshot_eq i)
  slot_eq i hi := by
    rw [hregs, h.regs_eq, ← Function.iterate_succ_apply' stepRegs, hcur.len_of_fresh hpc] at hi
    rw [velvetUpdateEffects_work ht, h.params_eq, h.regs_eq, hcur.stepSlot_of_fresh hpc,
      h.snapshot_eq, (hcur.cursors_of_fresh hpc k).2, slotAfter_succ]
    split_ifs with hslot
    · rfl
    · refine h.slot_eq i ?_
      rw [h.regs_eq, hcur.len_of_fresh hpc]
      exact lt_of_freshSlot_ne hslot hi

theorem VelvetMorphReady.progress {s : State} (h : VelvetMorphReady s) {σ : Polarity}
    (hpc : (s.c.pol σ).pc = 0) (k : Nat) :
    ∃ u, repeated .updateMorph k s = .next u ∧ VelvetMorphReady u ∧ VelvetProgress s u σ k := by
  induction k with
  | zero => exact ⟨s, rfl, h, VelvetProgress.start s σ⟩
  | succ k ih =>
    obtain ⟨u, hu, hready, hprog⟩ := ih
    obtain ⟨t, ht, hready', hregs⟩ := hready.exec_updateMorph
    exact ⟨t, andThen_eq_next.2 ⟨u, hu, ht⟩, hready',
      hprog.update (h.polarity σ).cursors hpc (hready.exec_eq ▸ ht) (hregs σ)⟩

/-- Settles O49, by induction on the updates: after `k` of them each slot is `slotAfter`, and once `k` has
reached both counts that is R226. -/
theorem velvetFinalContents : Obligations.VelvetFinalContents := by
  intro s σ hinv hst hk hen hpc k hk'
  have hready := hinv.velvetMorphReady hst hk hen
  obtain ⟨t, ht, _, hprog⟩ := hready.progress hpc k
  have hlen : (t.c.pol σ).len = (s.c.pol σ).tl := BitVec.eq_of_toNat_eq (by
    rw [hprog.regs_eq, (hready.polarity σ).cursors.len_of_fresh hpc]
    omega)
  refine ⟨t, ht, hlen, fun i hi => ?_⟩
  rw [hprog.slot_eq i (by rwa [hlen]), slotAfter_complete _ _ _ hk' hi]

end Sys2Proof.Machine

end VelvetCompletion

/-! ## Reset, command words and host moves (10_state.md R54; 20_memory.md R81; 30_encoding.md R103, R110)

What the registers and memories hold after power-on and after hardware reset, the words that are commands,
and the step of each host move and of the pseudo-instructions. -/

section ResetAndHostMoves

namespace Sys2Proof.Machine

open Sys2Proof.Claims

/-! ### Reset (R54, R290) -/

theorem OperandRegs.reset_get (i : Fin 12) : OperandRegs.reset.get i = 0 := by
  revert i
  decide

theorem StatusRegs.reset_get (i : Fin 18) : StatusRegs.reset.get i = 0 := by
  revert i
  decide

theorem powerOn_peek (p : Params) (sp : Space) (i : Nat) : (State.powerOn p).peek sp i = none := by
  cases sp <;> rfl

/-- Settles O1: the reset values are 0 register by register, and no bank has a written word. -/
theorem resetRegistersZeroMemoryUnspecified : Obligations.ResetRegistersZeroMemoryUnspecified := by
  refine ⟨OperandRegs.reset_get, StatusRegs.reset_get, fun sp i => ?_⟩
  have hnone : State.reset.peek sp i = none := powerOn_peek _ sp i
  exact ⟨hnone, by rw [State.hostView, hnone, Option.getD_none]⟩

/-- Settles O3: the step of the reset move is `hardReset`, which replaces the registers and nothing else. -/
theorem hardwareResetClearsRegistersKeepsMemory :
    Obligations.HardwareResetClearsRegistersKeepsMemory := fun _ _ h =>
  ⟨_, step_cons h, OperandRegs.reset_get, StatusRegs.reset_get, rfl, rfl, rfl, rfl, rfl⟩

/-! ### Host moves (R81, R83) -/

theorem hostWrite_hostOwned {sp : Space} {i : Nat} {v : Word} {s : State}
    (h : sp.hostOwned = true) : hostWrite sp i v s = memWrite sp i v s := if_pos h

theorem hostWrite_not_hostOwned {sp : Space} {i : Nat} {v : Word} {s : State}
    (h : sp.hostOwned = false) : hostWrite sp i v s = .refused (.notAMove sp) :=
  if_neg (Bool.eq_false_iff.1 h)

/-- Settles O25: a host write is the model's write of that word, or no move. -/
theorem hostWriteChangesOneWord : Obligations.HostWriteChangesOneWord := by
  intro s sp i v rest h
  have hstep : step s = hostWrite sp i v { s with host := rest } := step_cons h
  constructor
  · intro howned hword
    rw [hstep, hostWrite_hostOwned howned]
    exact ⟨_, memWrite_eq_next.2 ⟨hword, rfl⟩, peek_poke_same _ _ _ _,
      fun sp' j hne => peek_poke_ne _ _ hne, rfl⟩
  · intro howned
    rw [hstep, hostWrite_not_hostOwned howned]

/-- What the host reads is the word, or the power-on word where nothing has written one (log 6). -/
theorem hostView_of_peek {s : State} {sp : Space} {i : Nat} {w : Word}
    (h : s.peek sp i = some w) : s.hostView sp i = w := by
  rw [State.hostView, h, Option.getD_some]

theorem hostView_of_unwritten {s : State} {sp : Space} {i : Nat} (h : s.peek sp i = none) :
    s.hostView sp i = Config.powerOnWord sp i := by
  rw [State.hostView, h, Option.getD_none]

/-- Settles O26: the step of each kind of read is its answer. -/
theorem hostReadsChangeNothing : Obligations.HostReadsChangeNothing := by
  refine ⟨fun s i rest h => step_readX h, fun s i rest h => step_cons h,
    fun s f rest h => step_cons h, fun s sp i rest h hword => ?_⟩
  exact ⟨s.hostView sp i, (step_cons h).trans (if_pos hword), fun _ => hostView_of_peek,
    hostView_of_unwritten⟩

/-! ### The issue of a command (R107, R273) -/

theorem step_command {s : State} {w : Word} {i : Instr} {rest : List HostMove}
    (h : s.host = .command w :: rest) (hw : decode w = .ok i) :
    step s = exec i { s with host := rest } :=
  (step_cons h).trans (issue_ok hw _)

/-- A command word is one word of 32 bits: nothing of it is cut off. -/
theorem withFetchWord_encode (s : State) (i : Instr) :
    s.withFetchWord 32 (encode i).toNat = { s with host := .command (encode i) :: s.host } := by
  rw [State.withFetchWord, Nat.mod_eq_of_lt (encode i).isLt, BitVec.ofNat_toNat, BitVec.setWidth_eq]

/-- Settles O23: the step of a command move issues its word, and an encoding decodes to its command. -/
theorem stepRunsDecodedCommand : Obligations.StepRunsDecodedCommand := by
  refine ⟨fun s w i rest h hw _ => step_command h hw, fun s i => ?_⟩
  rw [withFetchWord_encode]
  exact step_command rfl (decode_encode i)

/-! ### The pseudo-instructions (R24, R110) -/

/-- Of several steps the first can be taken apart. -/
theorem steps_succ_of_step {s t : State} (n : Nat) (h : step s = .next t) :
    steps (n + 1) s = steps n t := by
  induction n with
  | zero => exact (andThen_eq_next.2 ⟨s, rfl, h⟩)
  | succ n ih =>
    change andThen (steps (n + 1) s) step = andThen (steps n t) step
    rw [ih]

theorem steps_writeX {s : State} {i : Fin 12} {v : Word} {rest : List HostMove} (n : Nat)
    (h : s.host = .writeX i v :: rest) :
    steps (n + 1) s = steps n { s with x := s.x.set i v, host := rest } :=
  steps_succ_of_step n (step_writeX h)

theorem steps_one (s : State) : steps 1 s = step s := rfl

/-- `Init(...)`: eight register writes, then the command. -/
theorem steps_scriptInit {s : State} {kind bufLen channels nA nB morph capP capN : Word}
    {rest : List HostMove}
    (h : s.host = scriptInit kind bufLen channels nA nB morph capP capN ++ rest) :
    steps 9 s = exec .init { s with
      host := rest
      x := { s.x with kind := kind, buflen := bufLen, channels := channels, ntapsA := nA,
                      ntapsB := nB, morphEn := morph, capP := capP, capN := capN } } := by
  rw [steps_writeX 8 h]
  iterate 7 rw [steps_writeX _ rfl]
  rw [steps_one, step_command rfl (decode_encode .init)]
  rfl

/-- The query changes status registers only, and does not look at the host's coming moves. -/
theorem exec_isMorphing_host (s : State) :
    ∃ c, ∀ host, exec .isMorphing { s with host := host } =
      .next { s with host := host, c := c } := by
  cases hst : s.c.st with
  | uninit =>
    exact ⟨(raiseFault .notInit s).c, fun host => exec_uninit (i := .isMorphing) nofun hst⟩
  | ready =>
    exact ⟨{ s.c with result := (BitVec.ofBool s.c.morphing).zeroExtend 32 },
      fun host => exec_isMorphing_ready hst⟩
  | fault => exact ⟨s.c, fun host => exec_fault (s := { s with host := host }) hst .isMorphing⟩

/-- `IsMorphing()`: the query, then the read of `RESULT`. -/
theorem steps_scriptIsMorphing {s t : State} {rest : List HostMove}
    (h : s.host = scriptIsMorphing ++ rest)
    (ht : exec .isMorphing { s with host := rest } = .next t) :
    steps 2 s = .next { t with answers := t.c.result :: t.answers } := by
  obtain ⟨c, hc⟩ := exec_isMorphing_host s
  cases (hc rest).symm.trans ht
  have hquery : step s = .next { s with host := .readC 2 :: rest, c := c } :=
    (step_command h (decode_encode .isMorphing)).trans (hc _)
  rw [steps_succ_of_step 1 hquery, steps_one, step_cons rfl]
  rfl

/-- Settles O28: the moves of each script are made one by one. -/
theorem pseudoInstructionsRunTheirMoves : Obligations.PseudoInstructionsRunTheirMoves :=
  ⟨fun _ _ _ _ _ _ _ _ _ _ h => steps_scriptInit h,
    fun _ _ _ h ht => steps_scriptIsMorphing h ht⟩

end Sys2Proof.Machine

namespace Sys2Proof

open Sys2Proof.Claims

/-! ### The command words (R101, R103) -/

/-- Settles O20: five of the words are encodings; the other three are evaluated. -/
theorem specWordsDecode : Obligations.SpecWordsDecode :=
  ⟨decode_encode .init, decode_encode .process, decode_encode .startMorph,
    decode_encode .updateMorph, decode_encode .isMorphing, by decide, by decide, by decide⟩

/-- The opcodes of the commands are 1 to 5 (R101). -/
theorem opcode_le_iff (o : BitVec 8) : (1#8 ≤ o && o ≤ 5#8) = true ↔ ∃ i, o = opcodeOf i := by
  constructor
  · intro h
    have hmem : o ∈ [1#8, 2#8, 3#8, 4#8, 5#8] := by
      revert o
      decide
    simp only [List.mem_cons, List.not_mem_nil, or_false] at hmem
    rcases hmem with rfl | rfl | rfl | rfl | rfl
    · exact ⟨.init, rfl⟩
    · exact ⟨.process, rfl⟩
    · exact ⟨.startMorph, rfl⟩
    · exact ⟨.updateMorph, rfl⟩
    · exact ⟨.isMorphing, rfl⟩
  · rintro ⟨i, rfl⟩
    cases i <;> decide

/-- The well-formedness check passes exactly the words that the decoder reads (R103). -/
theorem commandWordOk_iff {w : Word} : commandWordOk w = true ↔ ∃ i, decode w = .ok i := by
  rw [commandWordOk, Bool.and_eq_true, beq_iff_eq, opcode_le_iff]
  constructor
  · rintro ⟨hz, i, ho⟩
    refine ⟨i, decode_eq_ok_iff.2 ?_⟩
    rw [← zeroField_append_opcodeField w, hz, ho, encode]
  · rintro ⟨i, hi⟩
    obtain ⟨hz, ho⟩ := fields_of_decode_eq_ok hi
    exact ⟨hz, i, ho⟩

/-- Settles O22: the decoder inverts the encoding, and the check passes the words that decode. -/
theorem decodeExactlyInvertsEncode : Obligations.DecodeExactlyInvertsEncode :=
  ⟨fun _ _ => decode_eq_ok_iff, fun _ => commandWordOk_iff.symm⟩

end Sys2Proof

end ResetAndHostMoves

/-! ## binary32 (40_wrap_and_fanout.md R135 to R137; log 11)

The finite magnitudes as multiples of 2^-149, the rounding of a ratio to the nearest of them, and the facts
of R137 that rest on a result being exact. -/

section Magnitudes

/-! ### The finite magnitudes in order -/

namespace Sys2Proof.Machine

/-- The magnitude bits of a significand `n` of at most 24 bits with the quantum `2 ^ k`; the significand
`2 ^ 24` is the first one of the next exponent. -/
theorem F32.unitsOfMag_significand {k n : Nat} (hn : n ≤ 2 ^ 24) (hk : k = 0 ∨ 2 ^ 23 ≤ n) :
    F32.unitsOfMag (k * 2 ^ 23 + n) = n * 2 ^ k := by
  unfold F32.unitsOfMag
  rcases Nat.lt_or_ge n (2 ^ 23) with hsub | hnormal
  · obtain rfl := hk.resolve_right (by omega)
    rw [if_pos (by omega)]
    omega
  · rw [if_neg (by omega)]
    rcases Nat.lt_or_ge n (2 ^ 24) with hlt | hge
    · rw [show (k * 2 ^ 23 + n) / 2 ^ 23 - 1 = k by omega,
        show 2 ^ 23 + (k * 2 ^ 23 + n) % 2 ^ 23 = n by omega]
    · rw [show (k * 2 ^ 23 + n) / 2 ^ 23 - 1 = k + 1 by omega,
        show 2 ^ 23 + (k * 2 ^ 23 + n) % 2 ^ 23 = 2 ^ 23 by omega, show n = 2 ^ 23 * 2 by omega,
        Nat.mul_assoc (2 ^ 23), ← Nat.pow_succ']

/-- Every magnitude has a significand and a quantum. -/
theorem F32.exists_significand (m : Nat) :
    ∃ k n, m = k * 2 ^ 23 + n ∧ n < 2 ^ 24 ∧ (k = 0 ∨ 2 ^ 23 ≤ n) :=
  ⟨m / 2 ^ 23 - 1, m - (m / 2 ^ 23 - 1) * 2 ^ 23, by omega, by omega, by omega⟩

theorem F32.unitsOfMag_strictMono : StrictMono F32.unitsOfMag := by
  refine strictMono_nat_of_lt_succ fun m => ?_
  obtain ⟨k, n, rfl, hn, hk⟩ := F32.exists_significand m
  rw [Nat.add_assoc, F32.unitsOfMag_significand hn.le hk,
    F32.unitsOfMag_significand hn (hk.imp_right (Nat.le_succ_of_le ·))]
  exact Nat.mul_lt_mul_of_pos_right (Nat.lt_succ_self n) (Nat.two_pow_pos k)

/-- Every significand of at most 24 bits is a finite magnitude with any quantum, a normal one where the
quantum allows. -/
theorem F32.exists_unitsOfMag_eq {n : Nat} (hn : n ≤ 2 ^ 24) (k : Nat) :
    ∃ m, m ≤ (k + 2) * 2 ^ 23 ∧ F32.unitsOfMag m = n * 2 ^ k := by
  induction k generalizing n with
  | zero => exact ⟨0 * 2 ^ 23 + n, by omega, F32.unitsOfMag_significand hn (.inl rfl)⟩
  | succ k ih =>
    rcases Nat.lt_or_ge n (2 ^ 23) with hsub | hnormal
    · obtain ⟨m, hm, hu⟩ := ih (n := n * 2) (by omega)
      exact ⟨m, hm.trans (Nat.mul_le_mul_right _ (Nat.le_succ _)),
        by rw [hu, Nat.mul_assoc, ← Nat.pow_succ']⟩
    · exact ⟨(k + 1) * 2 ^ 23 + n, by omega, F32.unitsOfMag_significand hn (.inr hnormal)⟩

end Sys2Proof.Machine

end Magnitudes

section Rounding

/-! ### Rounding to nearest, ties to even (R135) -/

namespace Sys2Proof.Machine

open Sys2Proof.Claims

variable {num den : Nat}

/-- How far `u` units lie from `num / den`, in units of `1 / den`. -/
def offBy (u num den : Nat) : Nat := ((u * den : Int) - num).natAbs

theorem offBy_mul (a c num den : Nat) : offBy (a * c) num den = offBy a num (den * c) := by
  unfold offBy
  push_cast
  rw [Int.mul_assoc, Int.mul_comm (c : Int)]

theorem offBy_exact (u den : Nat) : offBy u (u * den) den = 0 := by
  unfold offBy
  push_cast
  rw [Int.sub_self, Int.natAbs_zero]

/-- `nearest` is within half a unit of the ratio on either side, and even at the half. -/
theorem F32.nearest_within_half (num : Nat) (hden : 0 < den) :
    2 * (F32.nearest num den * den) ≤ 2 * num + den ∧
      2 * num ≤ 2 * (F32.nearest num den * den) + den ∧
      (2 * (F32.nearest num den * den) = 2 * num + den ∨
        2 * num = 2 * (F32.nearest num den * den) + den → F32.nearest num den % 2 = 0) := by
  have hdiv := Nat.div_add_mod' num den
  have hmod := Nat.mod_lt num hden
  unfold F32.nearest
  dsimp only
  split_ifs with hup
  · rw [Nat.add_mul, Nat.one_mul]
    omega
  · omega

theorem F32.nearest_bounds (num den : Nat) :
    num / den ≤ F32.nearest num den ∧ F32.nearest num den ≤ num / den + 1 := by
  unfold F32.nearest
  dsimp only
  split_ifs <;> omega

/-- No natural number is nearer, and one that is equally near leaves `nearest` even. -/
theorem F32.nearest_best (num : Nat) (hden : 0 < den) (a : Nat) :
    offBy (F32.nearest num den) num den ≤ offBy a num den ∧
      (a ≠ F32.nearest num den → offBy a num den = offBy (F32.nearest num den) num den →
        F32.nearest num den % 2 = 0) := by
  obtain ⟨hlow, hhigh, heven⟩ := F32.nearest_within_half num hden
  unfold offBy
  generalize F32.nearest num den = n at *
  rcases lt_trichotomy a n with hlt | rfl | hgt
  · have hstep : a * den + den ≤ n * den := by
      rw [← Nat.succ_mul]
      exact Nat.mul_le_mul_right den hlt
    omega
  · exact ⟨le_rfl, fun h => absurd rfl h⟩
  · have hstep : n * den + den ≤ a * den := by
      rw [← Nat.succ_mul]
      exact Nat.mul_le_mul_right den hgt
    omega

/-- The exponent of the rounding quantum of `num / den`: it leaves 24 bits. -/
def quantumExp (num den : Nat) : Nat := (num / den).log2 - 23

/-- The multiple of the rounding quantum that is nearest to `num / den`. -/
def significand (num den : Nat) : Nat := F32.nearest num (den * 2 ^ quantumExp num den)

theorem F32.roundMag_eq (num den : Nat) : F32.roundMag num den =
    min F32.infMag (quantumExp num den * 2 ^ 23 + significand num den) := rfl

theorem pow_le_of_quantumExp_ne_zero (h : quantumExp num den ≠ 0) :
    2 ^ 23 * 2 ^ quantumExp num den ≤ num / den := by
  unfold quantumExp at *
  have hne : num / den ≠ 0 := by
    intro hzero
    rw [hzero] at h
    exact h rfl
  calc 2 ^ 23 * 2 ^ ((num / den).log2 - 23)
      = 2 ^ (num / den).log2 := by rw [← Nat.pow_add]; congr 1; omega
    _ ≤ num / den := Nat.log2_self_le hne

theorem lt_pow_quantumExp (num den : Nat) : num / den < 2 ^ 24 * 2 ^ quantumExp num den := by
  unfold quantumExp
  calc num / den < 2 ^ ((num / den).log2 + 1) := Nat.lt_log2_self
    _ ≤ 2 ^ (24 + ((num / den).log2 - 23)) := Nat.pow_le_pow_right (by decide) (by omega)
    _ = 2 ^ 24 * 2 ^ ((num / den).log2 - 23) := Nat.pow_add ..

theorem significand_le (num den : Nat) : significand num den ≤ 2 ^ 24 := by
  have hlt : num / (den * 2 ^ quantumExp num den) < 2 ^ 24 := by
    rw [← Nat.div_div_eq_div_mul]
    exact Nat.div_lt_of_lt_mul (Nat.mul_comm _ _ ▸ lt_pow_quantumExp num den)
  exact (F32.nearest_bounds _ _).2.trans hlt

theorem le_significand (h : quantumExp num den ≠ 0) : 2 ^ 23 ≤ significand num den := by
  refine le_trans ?_ (F32.nearest_bounds _ _).1
  rw [← Nat.div_div_eq_div_mul]
  exact (Nat.le_div_iff_mul_le (Nat.two_pow_pos _)).2 (pow_le_of_quantumExp_ne_zero h)

/-- The rounded magnitude, before a magnitude beyond the largest finite one becomes infinity, is its
significand times its quantum. -/
theorem unitsOfMag_rounded (num den : Nat) :
    F32.unitsOfMag (quantumExp num den * 2 ^ 23 + significand num den) =
      significand num den * 2 ^ quantumExp num den :=
  F32.unitsOfMag_significand (significand_le num den)
    ((eq_or_ne _ 0).imp_right le_significand)

theorem offBy_rounded (num den : Nat) :
    offBy (F32.unitsOfMag (quantumExp num den * 2 ^ 23 + significand num den)) num den =
      offBy (significand num den) num (den * 2 ^ quantumExp num den) := by
  rw [unitsOfMag_rounded, offBy_mul]

/-- A magnitude of a smaller quantum lies below the least significand of the rounding quantum, which is
nearer. -/
theorem offBy_rounded_lt_of_quantum_lt (hden : 0 < den) {k n : Nat} (hn : n < 2 ^ 24)
    (hk : k < quantumExp num den) :
    offBy (significand num den) num (den * 2 ^ quantumExp num den) < offBy (n * 2 ^ k) num den := by
  have hD : 0 < den * 2 ^ quantumExp num den := Nat.mul_pos hden (Nat.two_pow_pos _)
  refine lt_of_le_of_lt (F32.nearest_best num hD (2 ^ 23)).1 ?_
  rw [← offBy_mul]
  have hunits : n * 2 ^ k < 2 ^ 23 * 2 ^ quantumExp num den :=
    calc n * 2 ^ k < 2 ^ 24 * 2 ^ k := Nat.mul_lt_mul_of_pos_right hn (Nat.two_pow_pos k)
      _ = 2 ^ 23 * 2 ^ (k + 1) := by rw [← Nat.pow_add, ← Nat.pow_add]; congr 1; omega
      _ ≤ _ := Nat.mul_le_mul_left _ (Nat.pow_le_pow_right (by decide) hk)
  have hbelow : n * 2 ^ k * den < 2 ^ 23 * 2 ^ quantumExp num den * den :=
    Nat.mul_lt_mul_of_pos_right hunits hden
  have hleast : 2 ^ 23 * 2 ^ quantumExp num den * den ≤ num :=
    (Nat.le_div_iff_mul_le hden).1 (pow_le_of_quantumExp_ne_zero (by omega))
  unfold offBy
  generalize n * 2 ^ k = u at *
  generalize 2 ^ 23 * 2 ^ quantumExp num den = u' at *
  omega

/-- The rounded magnitude is at least as near as every magnitude, and even where another is equally near. -/
theorem rounded_best (hden : 0 < den) (m : Nat) :
    offBy (F32.unitsOfMag (quantumExp num den * 2 ^ 23 + significand num den)) num den ≤
        offBy (F32.unitsOfMag m) num den ∧
      (m ≠ quantumExp num den * 2 ^ 23 + significand num den →
        offBy (F32.unitsOfMag m) num den =
          offBy (F32.unitsOfMag (quantumExp num den * 2 ^ 23 + significand num den)) num den →
        (quantumExp num den * 2 ^ 23 + significand num den) % 2 = 0) := by
  have hD : 0 < den * 2 ^ quantumExp num den := Nat.mul_pos hden (Nat.two_pow_pos _)
  obtain ⟨k, n, hm, hn, hk⟩ := F32.exists_significand m
  have hunits : F32.unitsOfMag m = n * 2 ^ k := hm ▸ F32.unitsOfMag_significand hn.le hk
  rcases Nat.lt_or_ge k (quantumExp num den) with hlt | hge
  · have hfar := offBy_rounded_lt_of_quantum_lt hden hn hlt
    rw [hunits, offBy_rounded]
    exact ⟨hfar.le, fun _ h => absurd h hfar.ne'⟩
  · have hmul : F32.unitsOfMag m = n * 2 ^ (k - quantumExp num den) * 2 ^ quantumExp num den := by
      rw [hunits, Nat.mul_assoc, ← Nat.pow_add, Nat.sub_add_cancel hge]
    obtain ⟨hle, heven⟩ := F32.nearest_best num hD (n * 2 ^ (k - quantumExp num den))
    rw [offBy_rounded, hmul, offBy_mul]
    refine ⟨hle, fun hne htie => ?_⟩
    have hsig : n * 2 ^ (k - quantumExp num den) ≠ significand num den := fun heq =>
      hne (F32.unitsOfMag_strictMono.injective (by rw [hmul, heq, unitsOfMag_rounded]))
    have hpar : significand num den % 2 = 0 := heven hsig htie
    omega

/-- A ratio of at most 25 bits of quantum `D` rounds up to `2 ^ 24` exactly from half a unit below on. -/
theorem F32.le_nearest_iff (num : Nat) {D : Nat} (hD : 0 < D) :
    2 ^ 24 ≤ F32.nearest num D ↔ (2 ^ 25 - 1) * D ≤ 2 * num := by
  obtain ⟨hlow, hhigh, heven⟩ := F32.nearest_within_half num hD
  generalize F32.nearest num D = n at *
  constructor
  · intro hn
    have hmul : 2 ^ 24 * D ≤ n * D := Nat.mul_le_mul_right D hn
    omega
  · intro hnum
    by_contra hlt
    have hmul : n * D ≤ (2 ^ 24 - 1) * D := Nat.mul_le_mul_right D (by omega)
    have hn : n = 2 ^ 24 - 1 := Nat.eq_of_mul_eq_mul_right hD (by omega)
    have hpar := heven (.inr (by omega))
    omega

/-- Half a quantum above the largest finite magnitude: the rounding threshold of infinity. -/
theorem infMag_le_rounded_iff (hden : 0 < den) :
    F32.infMag ≤ quantumExp num den * 2 ^ 23 + significand num den ↔
      (2 ^ 25 - 1) * 2 ^ 252 * den ≤ num := by
  have hle := significand_le num den
  have hthreshold : (2 ^ 25 - 1) * 2 ^ 252 * den ≤ num ↔ (2 ^ 25 - 1) * 2 ^ 252 ≤ num / den :=
    (Nat.le_div_iff_mul_le hden).symm
  have hupper := lt_pow_quantumExp num den
  rcases lt_trichotomy (quantumExp num den) 253 with hlt | heq | hgt
  · refine iff_of_false ?_ ?_
    · unfold F32.infMag
      omega
    · rw [hthreshold, Nat.not_le]
      calc num / den < 2 ^ 24 * 2 ^ quantumExp num den := hupper
        _ ≤ 2 ^ 24 * 2 ^ 252 :=
          Nat.mul_le_mul_left _ (Nat.pow_le_pow_right (by decide) (by omega))
        _ ≤ (2 ^ 25 - 1) * 2 ^ 252 := Nat.mul_le_mul_right _ (by decide)
  · have hsig : significand num den = F32.nearest num (den * 2 ^ 253) := by rw [significand, heq]
    have hhalf : (2 ^ 25 - 1) * (den * 2 ^ 253) = 2 * ((2 ^ 25 - 1) * 2 ^ 252 * den) := by ring
    have hnearest := F32.le_nearest_iff num (Nat.mul_pos hden (Nat.two_pow_pos 253))
    rw [← hsig, hhalf, Nat.mul_le_mul_left_iff two_pos] at hnearest
    rw [← hnearest, heq]
    unfold F32.infMag
    omega
  · have hge := le_significand (num := num) (den := den) (by omega)
    refine iff_of_true ?_ ?_
    · unfold F32.infMag
      omega
    · rw [hthreshold]
      calc (2 ^ 25 - 1) * 2 ^ 252 ≤ 2 ^ 23 * 2 ^ 254 := by decide
        _ ≤ 2 ^ 23 * 2 ^ quantumExp num den :=
          Nat.mul_le_mul_left _ (Nat.pow_le_pow_right (by decide) (by omega))
        _ ≤ num / den := pow_le_of_quantumExp_ne_zero (by omega)

theorem F32.roundMag_eq_infMag_iff (hden : 0 < den) :
    F32.roundMag num den = F32.infMag ↔ (2 ^ 25 - 1) * 2 ^ 252 * den ≤ num := by
  rw [F32.roundMag_eq, min_eq_left_iff, infMag_le_rounded_iff hden]

theorem F32.roundMag_of_lt_infMag (h : F32.roundMag num den < F32.infMag) :
    F32.roundMag num den = quantumExp num den * 2 ^ 23 + significand num den := by
  rw [F32.roundMag_eq] at *
  omega

/-- Settles O51: a magnitude with a larger quantum than the ratio's is a multiple of the ratio's quantum and
loses to the nearest multiple, one with a smaller quantum lies below all of them. -/
theorem roundingIsToNearestEven : Obligations.RoundingIsToNearestEven := by
  intro num den hden
  refine ⟨fun hfin m _ => ?_, F32.roundMag_eq_infMag_iff hden⟩
  rw [F32.roundMag_of_lt_infMag hfin]
  exact rounded_best hden m

end Sys2Proof.Machine

end Rounding

section ExactResults

/-! ### Words, and results that are exact (R135 to R137) -/

namespace Sys2Proof.Machine

open Sys2Proof.Claims

/-! A word is its sign and its magnitude bits. -/

theorem F32.mag_pack (neg : Bool) {m : Nat} (h : m < 2 ^ 31) : F32.mag (F32.pack neg m) = m := by
  unfold F32.mag F32.pack
  rw [BitVec.toNat_ofNat]
  cases neg
  · rw [if_neg Bool.false_ne_true]
    omega
  · rw [if_pos rfl]
    omega

theorem F32.sign_pack (neg : Bool) {m : Nat} (h : m < 2 ^ 31) : F32.sign (F32.pack neg m) = neg := by
  unfold F32.sign F32.pack
  rw [BitVec.msb_eq_decide, BitVec.toNat_ofNat]
  cases neg
  · rw [if_neg Bool.false_ne_true, decide_eq_false_iff_not]
    omega
  · rw [if_pos rfl, decide_eq_true_iff]
    omega

theorem F32.pack_sign_mag (w : Word) : F32.pack (F32.sign w) (F32.mag w) = w := by
  have hw := w.isLt
  refine BitVec.eq_of_toNat_eq ?_
  unfold F32.pack F32.sign F32.mag
  rw [BitVec.toNat_ofNat, BitVec.msb_eq_decide]
  split_ifs with hs
  · rw [decide_eq_true_iff] at hs
    omega
  · rw [decide_eq_true_iff] at hs
    omega

theorem F32.eq_of_sign_mag {a b : Word} (hs : F32.sign a = F32.sign b)
    (hm : F32.mag a = F32.mag b) : a = b := by
  rw [← F32.pack_sign_mag a, ← F32.pack_sign_mag b, hs, hm]

theorem F32.mag_lt_infMag {w : Word} (hn : F32.isNaN w = false) (hi : F32.isInf w = false) :
    F32.mag w < F32.infMag :=
  lt_of_le_of_ne (not_lt.1 (of_decide_eq_false hn)) (of_decide_eq_false hi)

theorem F32.unitsOfMag_eq_zero_iff {m : Nat} : F32.unitsOfMag m = 0 ↔ m = 0 :=
  F32.unitsOfMag_strictMono.injective.eq_iff' rfl

/-- A ratio that is a finite magnitude is rounded to that magnitude. -/
theorem F32.roundMag_exact {m den : Nat} (hm : m < F32.infMag) (hden : 0 < den) :
    F32.roundMag (F32.unitsOfMag m * den) den = m := by
  have hfin : F32.roundMag (F32.unitsOfMag m * den) den < F32.infMag := by
    refine lt_of_le_of_ne (min_le_left _ _) fun hinf => ?_
    have hle := (F32.roundMag_eq_infMag_iff hden).1 hinf
    have hlast : F32.unitsOfMag m ≤ F32.unitsOfMag (F32.infMag - 1) :=
      F32.unitsOfMag_strictMono.monotone (by omega)
    have hlt : F32.unitsOfMag (F32.infMag - 1) < (2 ^ 25 - 1) * 2 ^ 252 := by decide +kernel
    exact absurd hle (Nat.not_le.2 (Nat.mul_lt_mul_of_pos_right (hlast.trans_lt hlt) hden))
  have hbest : offBy (F32.unitsOfMag (F32.roundMag (F32.unitsOfMag m * den) den))
      (F32.unitsOfMag m * den) den = 0 := by
    rw [F32.roundMag_of_lt_infMag hfin]
    exact Nat.le_zero.1 ((offBy_exact _ _).le.trans' (rounded_best hden m).1)
  refine F32.unitsOfMag_strictMono.injective (Nat.eq_of_mul_eq_mul_right hden ?_)
  unfold offBy at hbest
  generalize F32.unitsOfMag (F32.roundMag _ _) = u at *
  generalize F32.unitsOfMag m = u' at *
  omega

theorem F32.infMag_lt : F32.infMag < 2 ^ 31 := by decide

/-- Settles O52: `n` is a significand of at most 24 bits, so its multiple of 2^149 is a finite magnitude. -/
theorem conversionExactUpTo24Bits : Obligations.ConversionExactUpTo24Bits := by
  intro n hn
  obtain ⟨m, hm, hunits⟩ := F32.exists_unitsOfMag_eq hn 149
  have hfin : m < F32.infMag := lt_of_le_of_lt hm (by decide)
  have hword : F32.ofNat n = F32.pack false m := by
    have hexact := F32.roundMag_exact hfin one_pos
    rw [Nat.mul_one, hunits] at hexact
    rw [F32.ofNat, hexact]
  have hmag : F32.mag (F32.pack false m) = m := F32.mag_pack false (hfin.trans F32.infMag_lt)
  have hsign : F32.sign (F32.pack false m) = false := F32.sign_pack false (hfin.trans F32.infMag_lt)
  rw [hword]
  refine ⟨?_, ?_, ?_⟩
  · rw [F32.isNaN, hmag, decide_eq_false hfin.not_gt]
  · rw [F32.isInf, hmag, decide_eq_false hfin.ne]
  · rw [F32.value, hsign, if_neg Bool.false_ne_true, F32.units, hmag, hunits]
    push_cast
    rfl

/-! The facts of R137. -/

/-- A finite word is the rounding of its own magnitude, with its sign. -/
theorem F32.pack_roundMag_units {v : Word} {den : Nat} (hn : F32.isNaN v = false)
    (hi : F32.isInf v = false) (hden : 0 < den) :
    F32.pack (F32.sign v) (F32.roundMag (F32.units v * den) den) = v := by
  rw [F32.units, F32.roundMag_exact (F32.mag_lt_infMag hn hi) hden, F32.pack_sign_mag]

theorem F32.value_eq_zero_iff {v : Word} : F32.value v = 0 ↔ F32.mag v = 0 := by
  rw [← F32.unitsOfMag_eq_zero_iff, F32.value, F32.units]
  split_ifs <;> omega

theorem F32.value_natAbs (v : Word) : (F32.value v).natAbs = F32.units v := by
  unfold F32.value
  split_ifs <;> omega

theorem F32.value_neg_iff {v : Word} (h : F32.value v ≠ 0) : F32.value v < 0 ↔ F32.sign v = true := by
  unfold F32.value at *
  split_ifs at * with hs
  · simp only [hs, iff_true]
    omega
  · simp only [hs, iff_false, Bool.false_eq_true]
    omega

theorem F32.zero_addFinite {v : Word} (hn : F32.isNaN v = false) (hi : F32.isInf v = false)
    (hv : v ≠ 0x80000000#32) : F32.addFinite 0x00000000#32 v = v := by
  have hzero : F32.value 0x00000000#32 = 0 := by decide
  unfold F32.addFinite
  rw [hzero, Int.zero_add]
  dsimp only
  split_ifs with hval
  · have hmag : F32.mag v = 0 := F32.value_eq_zero_iff.1 hval
    have hword := F32.pack_sign_mag v
    rw [hmag] at hword
    cases hs : F32.sign v with
    | false => rw [← hword, hs]; decide
    | true => exact absurd (hword.symm.trans (hs ▸ by decide)) hv
  · have hsign : decide (F32.value v < 0) = F32.sign v :=
      Bool.eq_iff_iff.2 (decide_eq_true_iff.trans (F32.value_neg_iff hval))
    rw [hsign, F32.value_natAbs, ← Nat.mul_one (F32.units v)]
    exact F32.pack_roundMag_units hn hi one_pos

theorem F32.zero_add {v : Word} (hn : F32.isNaN v = false) (hv : v ≠ 0x80000000#32) :
    F32.add 0x00000000#32 v = some v := by
  have hnz : F32.isNaN 0x00000000#32 = false := by decide
  have hiz : F32.isInf 0x00000000#32 = false := by decide
  unfold F32.add
  rw [hnz, hiz, hn, Bool.or_false, if_neg Bool.false_ne_true, if_neg Bool.false_ne_true]
  cases hi : F32.isInf v with
  | true => rfl
  | false => exact congrArg some (F32.zero_addFinite hn hi hv)

theorem F32.mul_one {v : Word} (hn : F32.isNaN v = false) : F32.mul v 0x3F800000#32 = some v := by
  have hn1 : F32.isNaN 0x3F800000#32 = false := by decide
  have hi1 : F32.isInf 0x3F800000#32 = false := by decide
  have hz1 : F32.isZero 0x3F800000#32 = false := by decide
  have hs1 : F32.sign 0x3F800000#32 = false := by decide
  have hu1 : F32.units 0x3F800000#32 = 2 ^ 149 := by decide +kernel
  unfold F32.mul
  simp only [hn, hn1, hi1, hz1, hs1, hu1, Bool.or_false, Bool.bne_false, Bool.false_eq_true, if_false]
  cases hi : F32.isInf v with
  | true =>
    have hmag : F32.mag v = F32.infMag := of_decide_eq_true hi
    have hz : F32.isZero v = false := by
      rw [F32.isZero, hmag]
      decide
    rw [if_pos rfl, hz, if_neg Bool.false_ne_true, ← hmag, F32.pack_sign_mag]
  | false =>
    rw [if_neg Bool.false_ne_true, F32.pack_roundMag_units hn hi (Nat.two_pow_pos 149)]

theorem F32.zero_mul {v : Word} (hn : F32.isNaN v = false) (hi : F32.isInf v = false) :
    F32.mul 0x00000000#32 v = some (if F32.sign v then 0x80000000#32 else 0x00000000#32) := by
  have hn0 : F32.isNaN 0x00000000#32 = false := by decide
  have hi0 : F32.isInf 0x00000000#32 = false := by decide
  have hs0 : F32.sign 0x00000000#32 = false := by decide
  have hu0 : F32.units 0x00000000#32 = 0 := by decide
  have hr0 : F32.roundMag 0 (2 ^ 149) = 0 := by decide +kernel
  unfold F32.mul
  simp only [hn, hi, hn0, hi0, hs0, hu0, Bool.or_false, Bool.false_bne, Bool.false_eq_true, if_false,
    Nat.zero_mul, hr0]
  cases F32.sign v <;> rfl

theorem F32.addFinite_comm (a b : Word) : F32.addFinite a b = F32.addFinite b a := by
  unfold F32.addFinite
  rw [Int.add_comm, Bool.and_comm]

/-- Two infinities of one sign are one word, so the sum is the same whichever stands first. -/
theorem F32.add_comm (a b : Word) : F32.add a b = F32.add b a := by
  unfold F32.add
  rw [Bool.or_comm, F32.addFinite_comm]
  cases hnan : F32.isNaN b || F32.isNaN a with
  | true => rfl
  | false =>
    cases ha : F32.isInf a <;> cases hb : F32.isInf b
    · rfl
    · rfl
    · rfl
    · by_cases hs : F32.sign a = F32.sign b
      · have hab : a = b := F32.eq_of_sign_mag hs
          ((of_decide_eq_true ha).trans (of_decide_eq_true hb).symm)
        rw [hab]
      · simp [hs, Ne.symm hs]

theorem F32.mul_comm (a b : Word) : F32.mul a b = F32.mul b a := by
  unfold F32.mul
  rw [Bool.or_comm (F32.isNaN a), Bool.or_comm (F32.isInf a), Bool.or_comm (F32.isZero a),
    bne_comm (a := F32.sign a), Nat.mul_comm (F32.units a)]

/-- Settles O53; 2^24, 1 and 1 show that sums do not associate: 2^24 + 1 is a tie and loses its last bit. -/
theorem binary32Facts : Obligations.Binary32Facts :=
  ⟨fun _ _ _ _ => rfl, by decide, by decide, fun _ => F32.zero_add, fun _ => F32.mul_one,
    fun _ => F32.zero_mul, F32.add_comm, F32.mul_comm,
    0x4B800000#32, 0x3F800000#32, 0x3F800000#32, by decide +kernel⟩

/-! The draw of a NaN (R136). -/

/-- The exponent bits of a NaN are all ones and its fraction is not 0. -/
theorem F32.fields_of_isNaN {w : Word} (h : F32.isNaN w = true) :
    w.extractLsb' 23 8 = 0xFF#8 ∧ F32.frac w ≠ 0 := by
  have hmag : F32.infMag < w.toNat % 2 ^ 31 := of_decide_eq_true h
  unfold F32.infMag at hmag
  unfold F32.frac
  refine ⟨BitVec.eq_of_toNat_eq ?_, by omega⟩
  rw [BitVec.extractLsb'_toNat, Nat.shiftRight_eq_div_pow]
  change w.toNat / 2 ^ 23 % 2 ^ 8 = 255
  omega

/-- Setting exponent bits that are all ones already changes nothing. -/
theorem or_exponent_of_ones {w : Word} (h : w.extractLsb' 23 8 = 0xFF#8) :
    w ||| 0x7F800000#32 = w := by
  have hmask : ∀ i < 32, (0x7F800000#32).getLsbD i = true → ∃ j < 8, i = 23 + j := by decide
  refine BitVec.eq_of_getLsbD_eq fun i hi => ?_
  rw [BitVec.getLsbD_or]
  cases hm : (0x7F800000#32).getLsbD i with
  | false => rw [Bool.or_false]
  | true =>
    obtain ⟨j, hj, rfl⟩ := hmask i hi hm
    have hones : ∀ j < 8, (0xFF#8).getLsbD j = true := by decide
    have hbit := congrArg (·.getLsbD j) h
    simp only [BitVec.getLsbD_extractLsb', hj, decide_true, Bool.true_and, hones j hj] at hbit
    rw [hbit, Bool.or_true]

/-- Settles O54: a NaN word is the draw made from its own bits. -/
theorem naNDrawIsAnyNaN : Obligations.NaNDrawIsAnyNaN := by
  refine ⟨nanOf_isNaN, fun w hw => ⟨w, ?_⟩⟩
  obtain ⟨hexp, hfrac⟩ := F32.fields_of_isNaN hw
  rw [nanOf, or_exponent_of_ones hexp]
  exact if_neg hfrac

end Sys2Proof.Machine

end ExactResults
